-- ==== Sys2Proof/Word.lean ====
section
/-! DEFINITION. The word types of the block: 32-bit buffer words and 8-bit fields (00_scope.md R6). -/

namespace Sys2Proof

/-- One word of a command buffer, `WORD_BITS` = 32 (R6). Every field is unsigned (R8). -/
abbrev Word := BitVec 32

/-- One 8-bit field or bulk byte (R6). -/
abbrev Byte := BitVec 8

/-- Four words, `BUF_WORDS` = 4 (R6, R14, R43): the value of a request or a response, all words known. -/
structure Words where
  w0 : Word
  w1 : Word
  w2 : Word
  w3 : Word
  deriving DecidableEq, Repr

end Sys2Proof
end

