-- ==== Sys2Proof/Config.lean ====
section
/-! DEFINITION. The parameters the spec fixes (00_scope.md R6), the ones it leaves open (R7), and the
model's free values. An `opaque` constant here has no body: nothing proved can depend on its value. -/

namespace Sys2Proof

/-- A channel handle, "a value of the open parameter type `Handle`, with decidable equality" (R16, D41).
The name is an identity only: no rule computes with it, and it is not the channel's index.
DESIGN CHOICE (log 1, safe). -/
structure Handle where
  name : Nat
  deriving DecidableEq, Repr

/-- The identity of a host caller, read by the block only as a slot's owner (R122).
DESIGN CHOICE (log 2, safe). -/
abbrev CallerId := Nat

/-- The byte order of a 32-bit word in storage (R32, D32). -/
inductive ByteOrder
  | little
  | big
  deriving DecidableEq, Repr, Inhabited

namespace Config

/-- `BULK_MAX` (R6, R130). -/
def bulkMax : Nat := 8

/-- `DBR_BITS`, the spec's decision D14 (R7, R23). -/
abbrev dbrBits : Nat := 32

/-- `CHAN_MASK`, an open parameter (R7, D12): the value the machine is built with. The model reads it
from `State.chanMask`, which starts here (log 8). -/
opaque chanMask : BitVec 16

/-- `DBR_ADDR`, an open parameter no rule reads (R7, R29, D19; log 20). -/
opaque dbrAddr : Nat

/-- `IMR_ADDR`, an open parameter no rule reads (R7, R29, D19; log 20). -/
opaque imrAddr : Nat

/-- `HOST_BYTE_ORDER`, an open parameter (R7, R32, D32; log 20). No rule of the codec depends on it. -/
opaque hostByteOrder : ByteOrder

/-- `DBR` at reset: "an arbitrary `DBR_BITS`-bit value, a draw" (R23, D15; log 6). -/
opaque dbrAtReset : BitVec dbrBits

/-- `IMR_ALL_MASKED` at reset: "a Boolean draw" (R24, D18; log 7). -/
opaque imrAtReset : Bool

/-- What the clock input reads before any agent has driven it (R104; log 18). -/
opaque clockInput : Nat

/-- What SEND's `reject` draw is before any agent has driven it (R93; log 18). -/
opaque rejectInput : Bool

/-- Whether a rejected doorbell write leaves its bit set, before any agent has driven it (R93; log 18). -/
opaque ringOnRejectInput : Bool

/-- INIT's choice of handles before any agent has driven it (R89; log 18). -/
opaque handleInput : List Handle

end Config

end Sys2Proof
end

