-- ==== Sys2Proof/Syntax.lean ====
section
/-! DEFINITION. The block's operations (30_encoding.md R58, R62, R64) and a request as the caller presents it
on the operation-select and operand ports. -/

namespace Sys2Proof

/-- The five operation kinds of a command (R58). -/
inductive OpKind
  | read
  | write
  | update
  | bulkRead
  | bulkWrite
  deriving DecidableEq, Repr

/-- The fourteen operations OPSEL names (R62). -/
inductive Opcode
  | enc (k : OpKind)
  | dec (k : OpKind)
  | init
  | resolve
  | send
  | wait
  deriving DecidableEq, Repr

/-- A block operation with its operands (R64), one constructor for each row of the opcode table. Each port has
exactly its field's width (R57); a bulk `count` and byte list are checked by `Instr.wellFormed`. -/
inductive Instr
  | encRead (h : Handle) (ty : BitVec 4) (reg : Byte) (chid : BitVec 4)
  | encWrite (h : Handle) (ty : BitVec 4) (reg : Byte) (chid : BitVec 4) (value : Byte)
  | encUpdate (h : Handle) (ty : BitVec 4) (reg : Byte) (chid : BitVec 4) (value mask : Byte)
  | encBread (h : Handle) (ty : BitVec 4) (reg : Byte) (chid : BitVec 4) (count : Nat)
  | encBwrite (h : Handle) (ty : BitVec 4) (reg : Byte) (chid : BitVec 4) (count : Nat) (bytes : List Byte)
  | decRead (h : Handle)
  | decWrite (h : Handle)
  | decUpdate (h : Handle)
  | decBread (h : Handle) (count : Nat)
  | decBwrite (h : Handle)
  | init
  | resolve (h : Handle)
  | send (h : Handle)
  | wait (h : Handle)
  deriving DecidableEq, Repr

/-- The ports whose width the block checks (R57, R62, R64). -/
inductive Port
  | opsel
  | ty
  | reg
  | chid
  | value
  | mask
  | byte
  deriving DecidableEq, Repr

/-- What a caller presents: the number on OPSEL and the number on each operand port, before any width check.
An operation reads only its own operand ports (R64; log 13). -/
structure Request where
  opsel : Nat
  h : Handle
  ty : Nat
  reg : Nat
  chid : Nat
  value : Nat
  mask : Nat
  count : Nat
  bytes : List Nat
  deriving DecidableEq, Repr

/-- Why the block gives a request no meaning (60_exceptions.md R113). Each is raised by the decoder of a request,
the last two also by the meanings of the bulk operations; each is the spec's own refusal, so safe. -/
inductive RequestError
  /-- A reserved OPSEL value (R63). -/
  | reservedOpsel
  /-- A value wider than the port `p` (R57). -/
  | tooWide (p : Port)
  /-- A bulk `count` above 8 (R130). -/
  | countOver8
  /-- An ENC.BWRITE byte list whose length is not `count` (R113). -/
  | byteListLength
  deriving DecidableEq, Repr

end Sys2Proof
end

