-- ==== Sys2Proof/Machine/State.lean ====
section
/-! DEFINITION. The machine's state as plain data (10_state.md), the reasons it stops, and the state after reset
(70_reset_and_hazards.md R124). -/

namespace Sys2Proof.Machine

/-- A slot's phase (R18). -/
inductive Phase
  | free
  | loaded
  | sent
  | done
  | failed
  deriving DecidableEq, Repr

/-- A command buffer: four 32-bit words, each written or unwritten (R14, R15). -/
structure Buffer where
  c0 : Option Word
  c1 : Option Word
  c2 : Option Word
  c3 : Option Word
  deriving DecidableEq, Repr

/-- A transfer slot, the source's transfer record (R17). -/
structure Slot where
  phase : Phase
  op : Option OpKind
  cb : Buffer
  sent : Option Words
  owner : Option CallerId
  deriving DecidableEq, Repr

/-- The transport's lifecycle state (R20). -/
inductive Life
  | uninitialized
  | ready
  deriving DecidableEq, Repr

/-- The transport-level errors (R109). They are returned values, never traps (R115). -/
inductive TransportError
  | notReady
  | inval
  | dbRejected
  | xfer
  deriving DecidableEq, Repr

/-- What an operation returns to its caller when the machine goes on (R11): `ok` with the results of R64, `err`, or
`hold`. -/
inductive Reply
  /-- `ok` with no result: ENC.*, INIT, SEND, WAIT. -/
  | done
  /-- `ok(rc)`: DEC.WRITE, DEC.UPDATE, DEC.BWRITE. -/
  | rc (rc : Byte)
  /-- `ok(rc, value)`: DEC.READ. -/
  | rcValue (rc value : Byte)
  /-- `ok(rc, bytes, payload_valid)`: DEC.BREAD. -/
  | rcBytes (rc : Byte) (bytes : List Byte) (payloadValid : Bool)
  /-- `ok(index)`: RESOLVE. -/
  | index (i : Nat)
  /-- `err(E)`. -/
  | err (e : TransportError)
  /-- The operation has no step yet; its caller waits (R96, R97). -/
  | hold
  deriving DecidableEq, Repr

/-- What stands outside the block during one operation: who issues it, and the draws the operation may take. The model
places no law on them (R93, R89, R104; log 4). -/
structure Inputs where
  /-- The caller whose operation is on the ports. -/
  caller : CallerId
  /-- The clock reading in milliseconds, before truncation (R104). -/
  clockMs : Nat
  /-- SEND's draw `reject` (R93). -/
  reject : Bool
  /-- Whether a rejected doorbell write left the bit set (R93). -/
  ringOnReject : Bool
  /-- INIT's choice of handles (R89). -/
  handles : List Handle
  deriving DecidableEq, Repr

/-- One atomic step of some agent (R12, R35, R38). -/
inductive AgentStep
  /-- The caller named in the inputs issues, or retries, the next operation of its program. -/
  | caller (io : Inputs)
  /-- RESPOND (R99). -/
  | respond (h : Handle) (r : Words)
  /-- RESPOND with the answer of the reference peer (R107). -/
  | peerRespond (h : Handle)
  /-- FAIL (R101). -/
  | fail (h : Handle)
  /-- DBCLEAR (R102). -/
  | dbclear (m : BitVec Config.dbrBits)
  deriving DecidableEq, Repr

/-- A host caller: its program, in lines that stop at their first `err` (R65, R66; log 17), and the replies returned to
it, the newest first (log 12). -/
structure Caller where
  program : List (List Request)
  returned : List Reply
  deriving DecidableEq, Repr

/-- The whole machine. -/
structure State where
  /-- The transfer slots `S[h]`, sparse, by the handle's name (R17; log 24). -/
  slots : List (Nat × Slot)
  /-- `LIFE` (R20). -/
  life : Life
  /-- `NCHAN_R` (R21). -/
  nchanR : Option Nat
  /-- `CHANS` (R22). -/
  chans : List Handle
  /-- `DBR` (R23). -/
  dbr : BitVec Config.dbrBits
  /-- `IMR_ALL_MASKED` (R24). -/
  imrAllMasked : Bool
  /-- The parameter `CHAN_MASK` (R7, D12): no step writes it (log 8). -/
  chanMask : BitVec 16
  /-- The inputs of the current operation (log 4). -/
  inputs : Inputs
  /-- The result ports: the outcome of the last operation (R11, R64). -/
  port : Option Reply
  /-- The host callers, sparse, by caller id (R12a; log 12). -/
  callers : List (Nat × Caller)
  /-- The agents' coming steps, in order (R38; log 3). -/
  schedule : List AgentStep
  /-- The reference peer's registers (R107; log 16). -/
  peer : List Host.Cell
  deriving DecidableEq, Repr

/-- The faults of R112. -/
inductive Fault
  /-- `F_UNWRITTEN`: a read of a buffer word nothing has written. Raised by DEC.* and SEND's snapshot. The spec's own
  fault (D40), safe. -/
  | fUnwritten
  /-- `F_SEQ`: an operation in a phase the sequencer does not allow. Raised by ENC.*, SEND, WAIT and DEC.*. The spec's own
  fault (D24), safe. -/
  | fSeq
  /-- `F_REINIT`: INIT when `LIFE = Ready`. Raised by INIT. The spec's own fault (D21), safe. -/
  | fReinit
  deriving DecidableEq, Repr

/-- The inputs the block refuses (R113). -/
inductive Refusal
  /-- An instruction with no meaning in the model. Raised by `exec` only, by no arm now; safe. -/
  | notModelled (mnemonic : String)
  /-- A request outside the admitted forms. Raised by the decoder of a request and by the bulk operations. The spec's own
  refusal (R113), safe. -/
  | badRequest (e : RequestError)
  deriving DecidableEq, Repr

/-- A buffer whose four words are unwritten (R15). -/
def Buffer.unwritten : Buffer := ⟨none, none, none, none⟩

/-- A slot at reset (R17): FREE, with nothing in it. -/
def Slot.free : Slot := ⟨.free, none, .unwritten, none, none⟩

/-- A caller with no program and no reply (log 12). -/
def Caller.idle : Caller := ⟨[], []⟩

/-- The inputs before any agent has driven them: free values (log 18). -/
def Inputs.undriven : Inputs :=
  ⟨0, Config.clockInput, Config.rejectInput, Config.ringOnRejectInput, Config.handleInput⟩

/-- The state at the creation of a block instance (R124). -/
def State.reset : State where
  slots := []
  life := .uninitialized
  nchanR := none
  chans := []
  dbr := Config.dbrAtReset
  imrAllMasked := Config.imrAtReset
  chanMask := Config.chanMask
  inputs := .undriven
  port := none
  callers := []
  schedule := []
  peer := []

end Sys2Proof.Machine
end

