-- ==== Sys2Proof/Machine/Operands.lean ====
section
/-! DEFINITION. The fields of the wire format and their accessors (30_encoding.md R45 to R55), the bulk lanes (R53), the
population count (R9) and the choice of distinct handles (R89). -/

namespace Sys2Proof.Machine

/-! ## Fields of a word -/

/-- `w[lo+n-1 : lo]` (R8). -/
def getField (lo n : Nat) (w : Word) : BitVec n := w.extractLsb' lo n

/-- `w` with bits `[lo+n-1 : lo]` replaced by `x`: `(w & ~mask) | (zext_32(x) << lo)`, the form of R45 to R51. -/
def putField (lo n : Nat) (w : Word) (x : BitVec n) : Word :=
  (w &&& ~~~((BitVec.allOnes n).setWidth 32 <<< lo)) ||| (x.setWidth 32 <<< lo)

/-- `get_chid` (R45). -/
def getChid (w : Word) : BitVec 4 := getField 12 4 w
/-- `put_chid` (R45). -/
def putChid (w : Word) (x : BitVec 4) : Word := putField 12 4 w x
/-- `get_type` (R46). -/
def getType (w : Word) : BitVec 4 := getField 8 4 w
/-- `put_type` (R46). -/
def putType (w : Word) (x : BitVec 4) : Word := putField 8 4 w x
/-- `get_reg` (R47). -/
def getReg (w : Word) : Byte := getField 0 8 w
/-- `put_reg` (R47). -/
def putReg (w : Word) (x : Byte) : Word := putField 0 8 w x
/-- `get_func` (R48). -/
def getFunc (w : Word) : Byte := getField 0 8 w
/-- `put_func` (R48). -/
def putFunc (w : Word) (x : Byte) : Word := putField 0 8 w x
/-- `get_value` (R49). -/
def getValue (w : Word) : Byte := getField 8 8 w
/-- `put_value` (R49). -/
def putValue (w : Word) (x : Byte) : Word := putField 8 8 w x
/-- `get_mask` (R50). -/
def getMask (w : Word) : Byte := getField 16 8 w
/-- `put_mask` (R50). -/
def putMask (w : Word) (x : Byte) : Word := putField 16 8 w x
/-- `get_rc` (R51). -/
def getRc (w : Word) : Byte := getField 24 8 w
/-- `put_rc`, used only by the exchange agent and the reference peer (R51). -/
def putRc (w : Word) (x : Byte) : Word := putField 24 8 w x
/-- `get_ts`: the whole word (R52). -/
def getTs (w : Word) : Word := w
/-- `put_ts` (R52). -/
def putTs (x : Word) : Word := x

/-- The request word 0 (R54). -/
def packW0 (ty : BitVec 4) (reg : Byte) (chid : BitVec 4) : Word :=
  (chid.setWidth 32 <<< 12) ||| (ty.setWidth 32 <<< 8) ||| reg.setWidth 32

/-- The request word 1 (R55, D4). -/
def packW1 (func value mask : Byte) : Word :=
  (mask.setWidth 32 <<< 16) ||| (value.setWidth 32 <<< 8) ||| func.setWidth 32

/-! ## Words of a buffer and bulk lanes -/

end Sys2Proof.Machine

namespace Sys2Proof

/-- `CB[j]` of four known words, for `j` in 0..3 (R10). -/
def Words.word (W : Words) : Nat → Word
  | 0 => W.w0
  | 1 => W.w1
  | 2 => W.w2
  | _ => W.w3

/-- `CB[j] <- v`, for `j` in 0..3 (R10). -/
def Words.setWord (W : Words) (j : Nat) (v : Word) : Words :=
  match j with
  | 0 => { W with w0 := v }
  | 1 => { W with w1 := v }
  | 2 => { W with w2 := v }
  | _ => { W with w3 := v }

end Sys2Proof

namespace Sys2Proof.Machine

/-- `get_byte`: bulk byte `i`, word `2 + i/4`, lane `i % 4` (R53). -/
def getByte (W : Words) (i : Nat) : Byte := getField (8 * (i % 4)) 8 (W.word (2 + i / 4))

/-- `put_byte` (R53). -/
def putByte (W : Words) (i : Nat) (b : Byte) : Words :=
  W.setWord (2 + i / 4) (putField (8 * (i % 4)) 8 (W.word (2 + i / 4)) b)

/-- Put a list of bytes into the lanes `i`, `i+1`, … (the loop of R73). -/
def putBytes (W : Words) (i : Nat) : List Byte → Words
  | [] => W
  | b :: bs => putBytes (putByte W i b) (i + 1) bs

/-- Lanes `0 .. n-1` (the list of R83). -/
def getBytes (W : Words) (n : Nat) : List Byte := (List.range n).map (getByte W)

/-! ## Counting and choosing -/

/-- `popcount` (R9, R88). -/
def popcount {w : Nat} (m : BitVec w) : Nat := (List.range w).countP (fun i => m.getLsbD i)

/-- A handle that is not in the list. -/
def freshHandle (used : List Handle) : Handle := ⟨used.foldr (fun h n => max h.name n) 0 + 1⟩

/-- A list of `n` pairwise distinct handles, none of them in `used`, as the draw `want` asks: an entry of `want` that would
repeat a handle is replaced by a fresh one, and a draw that is too short is filled up. Every list of `n` distinct handles is
the choice of some draw, namely of itself (R89; log 5). -/
def chooseHandles : Nat → List Handle → List Handle → List Handle
  | 0, _, _ => []
  | n + 1, want, used =>
    let pick := want.headD (freshHandle used)
    let h := if pick ∈ used then freshHandle used else pick
    h :: chooseHandles n want.tail (h :: used)

end Sys2Proof.Machine
end

