-- ==== Sys2Proof/Machine/Flags.lean ====
section
/-! DEFINITION. Status. The block has no flag register (R26): the status is the return code of the response, and the one
derived indicator is `payload_valid`. Both are results, not state. -/

namespace Sys2Proof.Machine

/-- The return code of a response, `W1[31:24]`, verbatim and unsigned (R51, R76). -/
def returnCode (W : Words) : Byte := getRc W.w1

/-- `payload_valid`: true exactly when the return code is zero (R26, R83). -/
def payloadValid (W : Words) : Bool := returnCode W == 0

/-- The number of a transport error (R109, D22). -/
def TransportError.code : TransportError → Nat
  | .notReady => 1
  | .inval => 2
  | .dbRejected => 3
  | .xfer => 4

end Sys2Proof.Machine
end

