-- ==== Sys2Proof/Machine/Sparse.lean ====
section
/-! DEFINITION. Sparse tables as plain data: a list of (key, value) pairs with keys strictly rising and no entry equal to
what an unlisted key reads as, so that equal tables are equal lists (log 24). Used for the slots, the callers and the
reference peer's registers. -/

namespace Sys2Proof.Machine.Sparse

variable {α : Type}

/-- What key `k` holds; `d` where nothing is listed. -/
def lookup (d : α) : List (Nat × α) → Nat → α
  | [], _ => d
  | (k', v) :: t, k => if k' = k then v else lookup d t k

/-- The table without key `k`. -/
def erase (t : List (Nat × α)) (k : Nat) : List (Nat × α) :=
  t.filter (fun e => e.1 != k)

/-- Put an entry in front of the first greater key. -/
def place (k : Nat) (v : α) : List (Nat × α) → List (Nat × α)
  | [] => [(k, v)]
  | (k', v') :: t => if k < k' then (k, v) :: (k', v') :: t else (k', v') :: place k v t

/-- Set key `k` to `v`; setting it to what an unlisted key reads as removes the entry. -/
def set [DecidableEq α] (d : α) (t : List (Nat × α)) (k : Nat) (v : α) : List (Nat × α) :=
  if v = d then erase t k else place k v (erase t k)

/-- The canonical form: keys strictly rising, no entry equal to `d`. -/
abbrev Wf (d : α) (t : List (Nat × α)) : Prop :=
  t.Pairwise (fun a b => a.1 < b.1) ∧ ∀ e ∈ t, e.2 ≠ d

end Sys2Proof.Machine.Sparse
end

