-- ==== Sys2Proof/Machine/Ops.lean ====
section
/-! DEFINITION. The shared operations over the state: slots and their buffers, the lock, the doorbell, the result ports,
and the one way an error is raised. -/

namespace Sys2Proof.Machine

/-! ## Buffers -/

/-- All four words written (R14). -/
def Buffer.ofWords (W : Words) : Buffer := ⟨some W.w0, some W.w1, some W.w2, some W.w3⟩

/-- A read of the four words; `none` when one of them is unwritten (R15). -/
def Buffer.read : Buffer → Option Words
  | ⟨some a, some b, some c, some d⟩ => some ⟨a, b, c, d⟩
  | _ => none

/-! ## Slots -/

/-- `S[h]` (R17). -/
def State.slot (s : State) (h : Handle) : Slot := Sparse.lookup Slot.free s.slots h.name

/-- Replace the slot `S[h]`. -/
def State.setSlot (s : State) (h : Handle) (sl : Slot) : State :=
  { s with slots := Sparse.set Slot.free s.slots h.name sl }

/-- End a transfer: words unwritten, no op, no snapshot, no owner, FREE (R79, R94, R97). -/
def State.freeSlot (s : State) (h : Handle) : State := s.setSlot h Slot.free

/-! ## Results and errors -/

/-- Put an outcome on the result ports (R11, R64). -/
def State.reply (s : State) (r : Reply) : State := { s with port := some r }

/-- Raise a transport error. The block has no trap: an error saves nothing and transfers no control, it is the operation's
return value (R10, R115). -/
def State.raise (s : State) (e : TransportError) : State := s.reply (.err e)

/-- A transport error that ends the transfer of `h`: the slot is freed and the error returned (R94, R97, R111). -/
def State.endTransfer (s : State) (h : Handle) (e : TransportError) : State := (s.freeSlot h).raise e

/-! ## The lock -/

/-- The three outcomes of `acquire` (R96). -/
inductive Acquire
  | granted
  | selfHeld
  | held
  deriving DecidableEq, Repr

/-- `acquire(h)` by the current caller (R96). -/
def acquire (s : State) (h : Handle) : Acquire :=
  if (s.slot h).phase = .free then .granted
  else if (s.slot h).owner = some s.inputs.caller then .selfHeld
  else .held

/-! ## The clock -/

/-- `CLK_MS`: the clock reading truncated to its low 32 bits (R104). -/
def State.clkMs (s : State) : Word := BitVec.ofNat 32 s.inputs.clockMs

/-! ## The doorbell -/

/-- A host write of `v` to `DBR`: write 1 to set (R23). -/
def State.writeDbr (s : State) (v : BitVec Config.dbrBits) : State := { s with dbr := s.dbr ||| v }

/-- The word SEND writes for channel index `i` (R92, R93, D13). -/
def doorbellWord (i : Nat) : BitVec Config.dbrBits := 1#32 <<< i

/-- The doorbell is the block's one interrupt output: bit `i` set requests the remote core's attention for channel index
`i` (R118). -/
def State.doorbell (s : State) (i : Nat) : Bool := s.dbr.getLsbD i

/-! ## The channel set -/

/-- The channels RESOLVE scans: positions `0 .. NCHAN_R-1` of `CHANS` (R91; log 19). -/
def State.channels (s : State) : List Handle := s.chans.take (s.nchanR.getD 0)

/-- The position of a handle in the channel set (R91). -/
def State.indexOf? (s : State) (h : Handle) : Option Nat := s.channels.findIdx? (fun c => c == h)

/-! ## Callers -/

/-- The record of caller `k` (R12a). -/
def State.callerOf (s : State) (k : CallerId) : Caller := Sparse.lookup Caller.idle s.callers k

/-- Replace the record of caller `k`. -/
def State.setCaller (s : State) (k : CallerId) (c : Caller) : State :=
  { s with callers := Sparse.set Caller.idle s.callers k c }

end Sys2Proof.Machine
end

