-- ==== Sys2Proof/Machine/Decoder.lean ====
section
/-! DEFINITION. The response unmarshaller (41_decoder.md): the five pure decoders and the five block operations DEC.*. -/

namespace Sys2Proof.Machine

/-! ## The pure decoders (R76): total, and no decoder checks the echo (R78) -/

/-- `decode_read`: `(rc, value)`, the value whatever `rc` is (R80). -/
def decodeRead (W : Words) : Byte × Byte := (returnCode W, getValue W.w1)

/-- `decode_write` (R81). -/
def decodeWrite (W : Words) : Byte := returnCode W

/-- `decode_update` (R82). -/
def decodeUpdate (W : Words) : Byte := returnCode W

/-- `decode_bulk_read`: `(rc, bytes, payload_valid)`, no byte when `rc ≠ 0` (R83). -/
def decodeBulkRead (W : Words) (count : Nat) : Byte × List Byte × Bool :=
  (returnCode W, if payloadValid W then getBytes W count else [], payloadValid W)

/-- `decode_bulk_write` (R84). -/
def decodeBulkWrite (W : Words) : Byte := returnCode W

/-! ## The block operations -/

/-- The atomic step every DEC.* takes (R79): `result` says what it makes of the four response words (log 15). -/
def decodeStep (h : Handle) (result : Words → Reply) (s : State) : Host.Outcome State Fault Refusal :=
  if (s.slot h).phase = .done ∧ (s.slot h).owner = some s.inputs.caller then
    match (s.slot h).cb.read with
    | some W => .next ((s.freeSlot h).reply (result W))
    | none => .fault .fUnwritten
  else .fault .fSeq

/-- DEC.READ (R79, R80). -/
def execDecRead (h : Handle) (s : State) : Host.Outcome State Fault Refusal :=
  decodeStep h (fun W => .rcValue (decodeRead W).1 (decodeRead W).2) s

/-- DEC.WRITE (R79, R81). -/
def execDecWrite (h : Handle) (s : State) : Host.Outcome State Fault Refusal :=
  decodeStep h (fun W => .rc (decodeWrite W)) s

/-- DEC.UPDATE (R79, R82). -/
def execDecUpdate (h : Handle) (s : State) : Host.Outcome State Fault Refusal :=
  decodeStep h (fun W => .rc (decodeUpdate W)) s

/-- DEC.BREAD (R79, R83); the count is the caller's (D10), and the refusal comes first (R114, R130). -/
def execDecBread (h : Handle) (count : Nat) (s : State) : Host.Outcome State Fault Refusal :=
  if count ≤ Config.bulkMax then
    decodeStep h (fun W => .rcBytes (decodeBulkRead W count).1 (decodeBulkRead W count).2.1 (decodeBulkRead W count).2.2) s
  else .refused (.badRequest .countOver8)

/-- DEC.BWRITE (R79, R84). -/
def execDecBwrite (h : Handle) (s : State) : Host.Outcome State Fault Refusal :=
  decodeStep h (fun W => .rc (decodeBulkWrite W)) s

end Sys2Proof.Machine
end

