-- ==== Sys2Proof/WellFormed.lean ====
section
/-! DEFINITION. The operand forms the block admits (30_encoding.md R57, R64; 60_exceptions.md R113). The widths of the
other ports are in `Instr`'s types. -/

namespace Sys2Proof

/-- `count : 0..8`, and an ENC.BWRITE byte list of exactly `count` entries (R64, R65, R130). -/
def Instr.wellFormed : Instr → Bool
  | .encRead _ _ _ _ => true
  | .encWrite _ _ _ _ _ => true
  | .encUpdate _ _ _ _ _ _ => true
  | .encBread _ _ _ _ count => decide (count ≤ Config.bulkMax)
  | .encBwrite _ _ _ _ count bytes => decide (count ≤ Config.bulkMax) && decide (bytes.length = count)
  | .decRead _ => true
  | .decWrite _ => true
  | .decUpdate _ => true
  | .decBread _ count => decide (count ≤ Config.bulkMax)
  | .decBwrite _ => true
  | .init => true
  | .resolve _ => true
  | .send _ => true
  | .wait _ => true

/-- An ENC.BWRITE byte list has exactly `count` entries (R65, R113). -/
def Instr.listFits : Instr → Bool
  | .encBwrite _ _ _ _ count bytes => decide (bytes.length = count)
  | .encRead _ _ _ _ => true
  | .encWrite _ _ _ _ _ => true
  | .encUpdate _ _ _ _ _ _ => true
  | .encBread _ _ _ _ _ => true
  | .decRead _ => true
  | .decWrite _ => true
  | .decUpdate _ => true
  | .decBread _ _ => true
  | .decBwrite _ => true
  | .init => true
  | .resolve _ => true
  | .send _ => true
  | .wait _ => true

/-- The handle an operation names, if it names one (R64). -/
def Instr.handle? : Instr → Option Handle
  | .encRead h _ _ _ => some h
  | .encWrite h _ _ _ _ => some h
  | .encUpdate h _ _ _ _ _ => some h
  | .encBread h _ _ _ _ => some h
  | .encBwrite h _ _ _ _ _ => some h
  | .decRead h => some h
  | .decWrite h => some h
  | .decUpdate h => some h
  | .decBread h _ => some h
  | .decBwrite h => some h
  | .init => none
  | .resolve h => some h
  | .send h => some h
  | .wait h => some h

/-- The operation OPSEL names for an instruction (R62). -/
def Instr.opcode : Instr → Opcode
  | .encRead _ _ _ _ => .enc .read
  | .encWrite _ _ _ _ _ => .enc .write
  | .encUpdate _ _ _ _ _ _ => .enc .update
  | .encBread _ _ _ _ _ => .enc .bulkRead
  | .encBwrite _ _ _ _ _ _ => .enc .bulkWrite
  | .decRead _ => .dec .read
  | .decWrite _ => .dec .write
  | .decUpdate _ => .dec .update
  | .decBread _ _ => .dec .bulkRead
  | .decBwrite _ => .dec .bulkWrite
  | .init => .init
  | .resolve _ => .resolve
  | .send _ => .send
  | .wait _ => .wait

end Sys2Proof
end

