-- ==== Sys2Proof/Decode.lean ====
section
/-! DEFINITION. The decoder of a request (30_encoding.md R57, R62, R63, R113), total and rejecting by name, and after it
the encoder, which drives the ports for an instruction. -/

namespace Sys2Proof

/-- The func code of a kind (R58). -/
def OpKind.code : OpKind → Nat
  | .read => 0
  | .write => 1
  | .update => 2
  | .bulkRead => 3
  | .bulkWrite => 4

/-- The kind a func code names; 5 and above name none (R58, R61). -/
def OpKind.ofCode? : Nat → Option OpKind
  | 0 => some .read
  | 1 => some .write
  | 2 => some .update
  | 3 => some .bulkRead
  | 4 => some .bulkWrite
  | _ => none

/-- The transport class's sub-operations (R62). -/
def transportOp? : Nat → Option Opcode
  | 0 => some .init
  | 1 => some .resolve
  | 2 => some .send
  | 3 => some .wait
  | _ => none

/-- `OPSEL[4:3]` is the class and `OPSEL[2:0]` the sub-operation; every other value is reserved (R62, R63). -/
def opcodeOf? (opsel : BitVec 5) : Option Opcode :=
  let sub := (opsel.extractLsb' 0 3).toNat
  match (opsel.extractLsb' 3 2).toNat with
  | 0 => (OpKind.ofCode? sub).map .enc
  | 1 => (OpKind.ofCode? sub).map .dec
  | 2 => transportOp? sub
  | _ => none

/-- A number presented on a port of `w` bits: refused when it does not fit (R57). -/
def fit (w : Nat) (p : Port) (v : Nat) : Except RequestError (BitVec w) :=
  if v < 2 ^ w then .ok (BitVec.ofNat w v) else .error (.tooWide p)

/-- Every entry of a byte list fits 8 bits (R57). -/
def fitBytes : List Nat → Except RequestError (List Byte)
  | [] => .ok []
  | v :: vs =>
    match fit 8 .byte v, fitBytes vs with
    | .ok b, .ok bs => .ok (b :: bs)
    | .error e, _ => .error e
    | _, .error e => .error e

/-- The operands every encode reads: `type`, `reg` and `chid`. -/
def fitHeader (r : Request) : Except RequestError (BitVec 4 × Byte × BitVec 4) := do
  let ty ← fit 4 .ty r.ty
  let reg ← fit 8 .reg r.reg
  let chid ← fit 4 .chid r.chid
  return (ty, reg, chid)

/-- A bulk count is an integer in 0..8 (R64, R130). -/
def fitCount (n : Nat) : Except RequestError Nat :=
  if n ≤ Config.bulkMax then .ok n else .error .countOver8

/-- The instruction of an operation whose operands are on the ports of `r` (R64). -/
def decodeOperands (r : Request) : Opcode → Except RequestError Instr
  | .enc .read => do
    let (ty, reg, chid) ← fitHeader r
    return .encRead r.h ty reg chid
  | .enc .write => do
    let (ty, reg, chid) ← fitHeader r
    let value ← fit 8 .value r.value
    return .encWrite r.h ty reg chid value
  | .enc .update => do
    let (ty, reg, chid) ← fitHeader r
    let value ← fit 8 .value r.value
    let mask ← fit 8 .mask r.mask
    return .encUpdate r.h ty reg chid value mask
  | .enc .bulkRead => do
    let (ty, reg, chid) ← fitHeader r
    let count ← fitCount r.count
    return .encBread r.h ty reg chid count
  | .enc .bulkWrite => do
    let (ty, reg, chid) ← fitHeader r
    let count ← fitCount r.count
    let bytes ← fitBytes r.bytes
    if bytes.length = count then return .encBwrite r.h ty reg chid count bytes else .error .byteListLength
  | .dec .read => .ok (.decRead r.h)
  | .dec .write => .ok (.decWrite r.h)
  | .dec .update => .ok (.decUpdate r.h)
  | .dec .bulkRead => do
    let count ← fitCount r.count
    return .decBread r.h count
  | .dec .bulkWrite => .ok (.decBwrite r.h)
  | .init => .ok .init
  | .resolve => .ok (.resolve r.h)
  | .send => .ok (.send r.h)
  | .wait => .ok (.wait r.h)

/-- The decoder of a request: the instruction, or the refusal's name (R63, R113). A number above 31 does not fit the
5-bit port (log 14). -/
def decode (r : Request) : Except RequestError Instr := do
  let opsel ← fit 5 .opsel r.opsel
  match opcodeOf? opsel with
  | some op => decodeOperands r op
  | none => .error .reservedOpsel

/-! ## The encoder -/

/-- The OPSEL value of an operation, from the table of R62. -/
def Opcode.opsel : Opcode → Nat
  | .enc k => k.code
  | .dec k => 0x08 + k.code
  | .init => 0x10
  | .resolve => 0x11
  | .send => 0x12
  | .wait => 0x13

/-- A request with the given OPSEL and every operand port at 0 (log 13). -/
def Request.bare (opsel : Nat) : Request where
  opsel := opsel
  h := ⟨0⟩
  ty := 0
  reg := 0
  chid := 0
  value := 0
  mask := 0
  count := 0
  bytes := []

/-- The request that names an instruction: its OPSEL, its operands on their ports, and 0 on every port the operation
does not read (R62, R64; log 13). -/
def encode (i : Instr) : Request :=
  let r := Request.bare i.opcode.opsel
  match i with
  | .encRead h ty reg chid => { r with h := h, ty := ty.toNat, reg := reg.toNat, chid := chid.toNat }
  | .encWrite h ty reg chid value =>
    { r with h := h, ty := ty.toNat, reg := reg.toNat, chid := chid.toNat, value := value.toNat }
  | .encUpdate h ty reg chid value mask =>
    { r with h := h, ty := ty.toNat, reg := reg.toNat, chid := chid.toNat, value := value.toNat, mask := mask.toNat }
  | .encBread h ty reg chid count =>
    { r with h := h, ty := ty.toNat, reg := reg.toNat, chid := chid.toNat, count := count }
  | .encBwrite h ty reg chid count bytes =>
    { r with h := h, ty := ty.toNat, reg := reg.toNat, chid := chid.toNat, count := count,
             bytes := bytes.map BitVec.toNat }
  | .decRead h => { r with h := h }
  | .decWrite h => { r with h := h }
  | .decUpdate h => { r with h := h }
  | .decBread h count => { r with h := h, count := count }
  | .decBwrite h => { r with h := h }
  | .init => r
  | .resolve h => { r with h := h }
  | .send h => { r with h := h }
  | .wait h => { r with h := h }

/-- The request of an opcode-table word: the table gives the OPSEL bits only, so every operand port is 0 (log 13). -/
def tableRequest (_nbits w : Nat) : Request := Request.bare w

/-- What the decoder reads from an opcode-table word. -/
def decodeTableWord (nbits w : Nat) : Option Instr :=
  match decode (tableRequest nbits w) with
  | .ok i => some i
  | .error _ => none

end Sys2Proof
end

