-- ==== Sys2Proof/Machine/Encoder.lean ====
section
/-! DEFINITION. The command marshaller (40_encoder.md): the five pure encoders and the five block operations ENC.*. -/

namespace Sys2Proof.Machine

/-- The func code of a kind on the wire (R48, R58). -/
def funcByte (k : OpKind) : Byte := BitVec.ofNat 8 k.code

/-! ## The pure encoders (R67) -/

/-- `encode_read` (R69). -/
def encodeRead (ty : BitVec 4) (reg : Byte) (chid : BitVec 4) (ts : Word) : Words :=
  ⟨packW0 ty reg chid, packW1 (funcByte .read) 0 0, 0, putTs ts⟩

/-- `encode_write` (R70). -/
def encodeWrite (ty : BitVec 4) (reg : Byte) (chid : BitVec 4) (value : Byte) (ts : Word) : Words :=
  ⟨packW0 ty reg chid, packW1 (funcByte .write) value 0, 0, putTs ts⟩

/-- `encode_update` (R71). -/
def encodeUpdate (ty : BitVec 4) (reg : Byte) (chid : BitVec 4) (value mask : Byte) (ts : Word) : Words :=
  ⟨packW0 ty reg chid, packW1 (funcByte .update) value mask, 0, putTs ts⟩

/-- `encode_bulk_read` (R72). -/
def encodeBulkRead (ty : BitVec 4) (reg : Byte) (chid : BitVec 4) (count : Nat) : Words :=
  ⟨packW0 ty reg chid, packW1 (funcByte .bulkRead) (BitVec.ofNat 8 count) 0, 0, 0⟩

/-- `encode_bulk_write` (R73). -/
def encodeBulkWrite (ty : BitVec 4) (reg : Byte) (chid : BitVec 4) (count : Nat) (bytes : List Byte) : Words :=
  putBytes ⟨packW0 ty reg chid, packW1 (funcByte .bulkWrite) (BitVec.ofNat 8 count) 0, 0, 0⟩ 0 (bytes.take count)

/-! ## The block operations -/

/-- A slot that holds the request `W` of kind `k`, owned by `c` (R68). -/
def loadedSlot (k : OpKind) (W : Words) (c : CallerId) : Slot := ⟨.loaded, some k, .ofWords W, none, some c⟩

/-- The atomic step every ENC.* takes (R68) once its words are known. -/
def encodeStep (k : OpKind) (h : Handle) (W : Words) (s : State) : Host.Outcome State Fault Refusal :=
  match acquire s h with
  | .granted => .next ((s.setSlot h (loadedSlot k W s.inputs.caller)).reply .done)
  | .selfHeld => .fault .fSeq
  | .held => .next (s.reply .hold)

/-- ENC.READ (R68, R69). -/
def execEncRead (h : Handle) (ty : BitVec 4) (reg : Byte) (chid : BitVec 4) (s : State) :
    Host.Outcome State Fault Refusal :=
  encodeStep .read h (encodeRead ty reg chid s.clkMs) s

/-- ENC.WRITE (R68, R70). -/
def execEncWrite (h : Handle) (ty : BitVec 4) (reg : Byte) (chid : BitVec 4) (value : Byte) (s : State) :
    Host.Outcome State Fault Refusal :=
  encodeStep .write h (encodeWrite ty reg chid value s.clkMs) s

/-- ENC.UPDATE (R68, R71). -/
def execEncUpdate (h : Handle) (ty : BitVec 4) (reg : Byte) (chid : BitVec 4) (value mask : Byte) (s : State) :
    Host.Outcome State Fault Refusal :=
  encodeStep .update h (encodeUpdate ty reg chid value mask s.clkMs) s

/-- ENC.BREAD (R68, R72); the refusal comes first (R114, R130). -/
def execEncBread (h : Handle) (ty : BitVec 4) (reg : Byte) (chid : BitVec 4) (count : Nat) (s : State) :
    Host.Outcome State Fault Refusal :=
  if count ≤ Config.bulkMax then encodeStep .bulkRead h (encodeBulkRead ty reg chid count) s
  else .refused (.badRequest .countOver8)

/-- ENC.BWRITE (R68, R73); the refusals come first (R113, R114, R130). -/
def execEncBwrite (h : Handle) (ty : BitVec 4) (reg : Byte) (chid : BitVec 4) (count : Nat) (bytes : List Byte)
    (s : State) : Host.Outcome State Fault Refusal :=
  if count ≤ Config.bulkMax then
    if bytes.length = count then encodeStep .bulkWrite h (encodeBulkWrite ty reg chid count bytes) s
    else .refused (.badRequest .byteListLength)
  else .refused (.badRequest .countOver8)

end Sys2Proof.Machine
end

