-- ==== Sys2Proof/Machine/Selector.lean ====
section
/-! DEFINITION. The doorbell-channel selector (42_channel_selector.md): INIT, RESOLVE and SEND. -/

namespace Sys2Proof.Machine

/-- What INIT writes (R87 to R90): the channel count, the channel set, the inbound mask and the lifecycle state. `DBR` is
not written. -/
def State.bringUp (s : State) : State :=
  { s with
    nchanR := some (popcount s.chanMask)
    chans := chooseHandles (popcount s.chanMask) s.inputs.handles []
    imrAllMasked := true
    life := .ready }

/-- INIT (R87), one atomic step (R127). -/
def execInit (s : State) : Host.Outcome State Fault Refusal :=
  match s.life with
  | .ready => .fault .fReinit
  | .uninitialized => .next (s.bringUp.reply .done)

/-- `resolve(h)`: the index, or the transport error (R91). -/
def resolve (s : State) (h : Handle) : Except TransportError Nat :=
  match s.life with
  | .uninitialized => .error .notReady
  | .ready =>
    match s.indexOf? h with
    | some i => .ok i
    | none => .error .inval

/-- RESOLVE (R91): no state changes but the result ports. -/
def execResolve (h : Handle) (s : State) : Host.Outcome State Fault Refusal :=
  match resolve s h with
  | .ok i => .next (s.reply (.index i))
  | .error e => .next (s.raise e)

/-- The transport primitive `send(h)` (R93): the error it returns, if any, and the state with `DBR` as it leaves it. -/
def sendPrimitive (s : State) (h : Handle) : Option TransportError × State :=
  match resolve s h with
  | .error e => (some e, s)
  | .ok i =>
    if s.inputs.reject then
      (some .dbRejected, if s.inputs.ringOnReject then s.writeDbr (doorbellWord i) else s)
    else (none, s.writeDbr (doorbellWord i))

/-- A slot after its doorbell has been rung: the words delivered are kept in `sent` (R39, R94). -/
def sentSlot (sl : Slot) (W : Words) : Slot := { sl with sent := some W, phase := .sent }

/-- SEND (R93, R94): `F_SEQ` is checked before anything else, the snapshot is read only after the doorbell write (R114). -/
def execSend (h : Handle) (s : State) : Host.Outcome State Fault Refusal :=
  if (s.slot h).phase = .loaded ∧ (s.slot h).owner = some s.inputs.caller then
    match sendPrimitive s h with
    | (some e, s') => .next (s'.endTransfer h e)
    | (none, s') =>
      match (s'.slot h).cb.read with
      | some W => .next ((s'.setSlot h (sentSlot (s'.slot h) W)).reply .done)
      | none => .fault .fUnwritten
  else .fault .fSeq

end Sys2Proof.Machine
end

