-- ==== Sys2Proof/Machine/Transfer.lean ====
section
/-! DEFINITION. Transfer sequencing (43_transfer.md): WAIT, and the environment's steps RESPOND, FAIL and DBCLEAR. -/

namespace Sys2Proof.Machine

/-- WAIT (R97). -/
def execWait (h : Handle) (s : State) : Host.Outcome State Fault Refusal :=
  if (s.slot h).owner = some s.inputs.caller then
    match (s.slot h).phase with
    | .free => .fault .fSeq
    | .loaded => .fault .fSeq
    | .sent => .next (s.reply .hold)
    | .done => .next (s.reply .done)
    | .failed => .next (s.endTransfer h .xfer)
  else .fault .fSeq

/-- A slot after the response words have been written over its buffer (R99). -/
def doneSlot (sl : Slot) (r : Words) : Slot := { sl with cb := .ofWords r, phase := .done }

/-- A slot after the exchange has failed (R101). -/
def failedSlot (sl : Slot) : Slot := { sl with cb := .unwritten, phase := .failed }

/-- RESPOND(h, R) (R99): enabled when the slot is SENT; where it is not enabled it does not happen (log 11). -/
def respond (h : Handle) (r : Words) (s : State) : State :=
  if (s.slot h).phase = .sent then s.setSlot h (doneSlot (s.slot h) r) else s

/-- FAIL(h) (R101): enabled when the slot is SENT; where it is not enabled it does not happen (log 11). -/
def fail (h : Handle) (s : State) : State :=
  if (s.slot h).phase = .sent then s.setSlot h (failedSlot (s.slot h)) else s

/-- DBCLEAR(m) (R102): `DBR & ~m`, in every state. -/
def dbclear (m : BitVec Config.dbrBits) (s : State) : State := { s with dbr := s.dbr &&& ~~~m }

end Sys2Proof.Machine
end

