-- ==== Sys2Proof/Machine/Dispatch.lean ====
section
/-! DEFINITION. One arm per operation of spec/opcode_table.json. -/

namespace Sys2Proof.Machine

def exec (i : Instr) (s : State) : Host.Outcome State Fault Refusal :=
  match i with
  | .encRead h ty reg chid => Sys2Proof.Machine.execEncRead h ty reg chid s
  | .encWrite h ty reg chid value => Sys2Proof.Machine.execEncWrite h ty reg chid value s
  | .encUpdate h ty reg chid value mask => Sys2Proof.Machine.execEncUpdate h ty reg chid value mask s
  | .encBread h ty reg chid count => Sys2Proof.Machine.execEncBread h ty reg chid count s
  | .encBwrite h ty reg chid count bytes => Sys2Proof.Machine.execEncBwrite h ty reg chid count bytes s
  | .decRead h => Sys2Proof.Machine.execDecRead h s
  | .decWrite h => Sys2Proof.Machine.execDecWrite h s
  | .decUpdate h => Sys2Proof.Machine.execDecUpdate h s
  | .decBread h count => Sys2Proof.Machine.execDecBread h count s
  | .decBwrite h => Sys2Proof.Machine.execDecBwrite h s
  | .init => Sys2Proof.Machine.execInit s
  | .resolve h => Sys2Proof.Machine.execResolve h s
  | .send h => Sys2Proof.Machine.execSend h s
  | .wait h => Sys2Proof.Machine.execWait h s

end Sys2Proof.Machine
end

