-- ==== Sys2Proof/Machine/Peer.lean ====
section
/-! DEFINITION. The far end: the update law (43_transfer.md R105), the named property of a correct response (R106), and the
optional reference peer (R107, D38). No rule of the block depends on the peer (R27). -/

namespace Sys2Proof.Machine

/-- What an unlisted register of the reference peer holds (log 16). -/
def peerDefault : Byte := 0

/-- The canonical form of the peer's register file. -/
abbrev Memory.wf (m : List Host.Cell) : Prop := Sparse.Wf peerDefault m

/-- The number of the register `P[chid][type][reg]`, the register address taken mod 256 (R107). -/
def peerKey (chid ty reg : Nat) : Nat := chid * 4096 + ty * 256 + reg % 256

/-- `P[chid][type][reg]` (R107). -/
def peerRead (P : List Host.Cell) (chid ty reg : Nat) : Byte := Sparse.lookup peerDefault P (peerKey chid ty reg)

/-- `P[chid][type][reg] <- v` (R107). -/
def peerWrite (P : List Host.Cell) (chid ty reg : Nat) (v : Byte) : List Host.Cell :=
  Sparse.set peerDefault P (peerKey chid ty reg) v

/-- The bytes of `n` contiguous registers from `reg` on (R107). -/
def peerReadBulk (P : List Host.Cell) (chid ty reg n : Nat) : List Byte :=
  (List.range n).map (fun i => peerRead P chid ty (reg + i))

/-- Write a list of bytes to contiguous registers from `reg` on, the first byte first (R107). -/
def peerWriteBulk (P : List Host.Cell) (chid ty reg : Nat) : List Byte → List Host.Cell
  | [] => P
  | b :: bs => peerWriteBulk (peerWrite P chid ty reg b) chid ty (reg + 1) bs

/-- What UPDATE leaves in the register at a remote core that executes it, on 8 bits (R105). -/
def updateLaw (old value mask : Byte) : Byte := (old &&& ~~~mask) ||| (value &&& mask)

/-- The registers after the request `W` of kind `k` (R107). -/
def peerRegisters (P : List Host.Cell) (k : OpKind) (W : Words) : List Host.Cell :=
  let c := (getChid W.w0).toNat
  let t := (getType W.w0).toNat
  let r := (getReg W.w0).toNat
  match k with
  | .read => P
  | .write => peerWrite P c t r (getValue W.w1)
  | .update => peerWrite P c t r (updateLaw (peerRead P c t r) (getValue W.w1) (getMask W.w1))
  | .bulkRead => P
  | .bulkWrite => peerWriteBulk P c t r (getBytes W (getValue W.w1).toNat)

/-- The response to the request `W` of kind `k`: `rc = 0` in every case (R107). -/
def peerResponse (P : List Host.Cell) (k : OpKind) (W : Words) : Words :=
  let c := (getChid W.w0).toNat
  let t := (getType W.w0).toNat
  let r := (getReg W.w0).toNat
  let w1 := putRc W.w1 0
  match k with
  | .read => { W with w1 := putValue w1 (peerRead P c t r) }
  | .write => { W with w1 := w1 }
  | .update => { W with w1 := w1 }
  | .bulkRead => putBytes ⟨W.w0, w1, 0, 0⟩ 0 (peerReadBulk P c t r (getValue W.w1).toNat)
  | .bulkWrite => { W with w1 := w1 }

/-- The kind of a request the reference peer answers: its func code names an operation, and a bulk count is at most 8
(R58, R107; log 16). -/
def requestKind? (W : Words) : Option OpKind :=
  match OpKind.ofCode? (getFunc W.w1).toNat with
  | some .bulkRead => if (getValue W.w1).toNat ≤ Config.bulkMax then some .bulkRead else none
  | some .bulkWrite => if (getValue W.w1).toNat ≤ Config.bulkMax then some .bulkWrite else none
  | k => k

/-- The reference peer answers the exchange of `h`: one possible RESPOND, with the peer's registers moved. Where the slot is
not SENT, or holds no request the peer answers, it does not happen (R107; log 11, 16). -/
def peerRespond (h : Handle) (s : State) : State :=
  match (s.slot h).phase, (s.slot h).sent with
  | .sent, some W =>
    match requestKind? W with
    | some k => { respond h (peerResponse s.peer k W) s with peer := peerRegisters s.peer k W }
    | none => s
  | _, _ => s

end Sys2Proof.Machine
end

