-- ==== Sys2Proof/Machine/Agents.lean ====
section
/-! DEFINITION. The agents' steps: how a caller's next operation is fetched and retired, and the environment's steps
(00_scope.md R12, 20_memory.md R35, R38, 30_encoding.md R65, R66). -/

namespace Sys2Proof.Machine

/-! ## A caller's program -/

/-- The operation a caller issues next: the first of its first line that is not used up (R65). -/
def nextRequest? : List (List Request) → Option Request
  | [] => none
  | [] :: rest => nextRequest? rest
  | (r :: _) :: _ => some r

/-- The program after its next operation returned `ok` (R65, R66). -/
def afterOk : List (List Request) → List (List Request)
  | [] => []
  | [] :: rest => afterOk rest
  | [_] :: rest => rest
  | (_ :: r :: rs) :: rest => (r :: rs) :: rest

/-- The program after its next operation returned `err`: no later operation of the same line runs (R66; log 17). -/
def afterErr : List (List Request) → List (List Request)
  | [] => []
  | [] :: rest => afterErr rest
  | (_ :: _) :: rest => rest

/-- The caller's record after the reply `r`: on `hold` the operation stays the next one (R11, R96; log 10). -/
def Caller.after (c : Caller) : Reply → Caller
  | .hold => c
  | .err e => ⟨afterErr c.program, .err e :: c.returned⟩
  | .done => ⟨afterOk c.program, .done :: c.returned⟩
  | .rc a => ⟨afterOk c.program, .rc a :: c.returned⟩
  | .rcValue a b => ⟨afterOk c.program, .rcValue a b :: c.returned⟩
  | .rcBytes a b v => ⟨afterOk c.program, .rcBytes a b v :: c.returned⟩
  | .index n => ⟨afterOk c.program, .index n :: c.returned⟩

/-- File the outcome on the result ports in the record of the caller that issued the operation. -/
def State.retire (s : State) : State :=
  match s.port with
  | some r => s.setCaller s.inputs.caller ((s.callerOf s.inputs.caller).after r)
  | none => s

/-! ## Steps -/

/-- What a step does after `exec`: file the reply; a fault or a refusal stands. -/
def retireOutcome : Host.Outcome State Fault Refusal → Host.Outcome State Fault Refusal
  | .next s => .next s.retire
  | .fault f => .fault f
  | .refused r => .refused r

/-- One caller's step: its next operation, decoded and executed with the inputs of this step. A caller with no operation
left does nothing (log 11); a request the decoder refuses has no run (R113; log 23). -/
def callerStep (io : Inputs) (s : State) : Host.Outcome State Fault Refusal :=
  match nextRequest? (s.callerOf io.caller).program with
  | none => .next s
  | some r =>
    match decode r with
    | .ok i => retireOutcome (exec i { s with inputs := io })
    | .error e => .refused (.badRequest e)

/-- One agent's step (R12, R35). -/
def agentStep (a : AgentStep) (s : State) : Host.Outcome State Fault Refusal :=
  match a with
  | .caller io => callerStep io s
  | .respond h r => .next (respond h r s)
  | .peerRespond h => .next (peerRespond h s)
  | .fail h => .next (fail h s)
  | .dbclear m => .next (dbclear m s)

/-- The step of the agent the schedule names; with nothing scheduled, no agent moves (R38; log 3, 11). -/
def scheduledStep (s : State) : Host.Outcome State Fault Refusal :=
  match s.schedule with
  | [] => .next s
  | a :: rest => agentStep a { s with schedule := rest }

/-- Place one request as the very next operation: at the head of the program of the caller on the inputs, and that caller's
step at the head of the schedule, with the inputs as they stand (log 12). -/
def State.present (s : State) (r : Request) : State :=
  let c := s.callerOf s.inputs.caller
  { s.setCaller s.inputs.caller { c with program := [r] :: c.program } with
    schedule := .caller s.inputs :: s.schedule }

end Sys2Proof.Machine
end

