-- ==== Sys2Proof/Machine/Step.lean ====
section
/-! DEFINITION. One step of the machine. -/

namespace Sys2Proof.Machine

/-- One atomic step (R35, R38). -/
def step (s : State) : Host.Outcome State Fault Refusal := scheduledStep s

/-- `s` with the instruction of an opcode-table word placed as the next operation to be issued (log 12, 13). -/
def State.withFetchWord (s : State) (nbits w : Nat) : State := s.present (tableRequest nbits w)

end Sys2Proof.Machine
end

