-- ==== Sys2Proof/Machine/Assembler.lean ====
section
/-! DEFINITION. The text form of operations (30_encoding.md R65) and of the pseudo-operations (R66): one line of text to the
requests it stands for. Where R65 is silent the choices are log 22. -/

namespace Sys2Proof.Machine

/-- The lexical parts of a line. -/
inductive Token
  | word (cs : List Char)
  | num (n : Nat)
  | comma
  | openList
  | closeList
  | arrow
  deriving DecidableEq, Repr

/-- Why a line is refused. -/
inductive AsmError
  | badCharacter
  | badNumber
  | badOperand
  | unknownMnemonic
  | wrongOperands
  | byteListLength
  | wrongResults
  deriving DecidableEq, Repr

/-! ## Tokens -/

/-- The value of a digit, if it is one in the base. -/
def digitValue? (base : Nat) (c : Char) : Option Nat :=
  let v :=
    if '0' ≤ c ∧ c ≤ '9' then c.toNat - '0'.toNat
    else if 'a' ≤ c ∧ c ≤ 'f' then c.toNat - 'a'.toNat + 10
    else if 'A' ≤ c ∧ c ≤ 'F' then c.toNat - 'A'.toNat + 10
    else base
  if v < base then some v else none

/-- The value of a non-empty digit string read after `acc`. -/
def digitsValue? (base : Nat) : Nat → List Char → Option Nat
  | acc, [] => some acc
  | acc, c :: cs =>
    match digitValue? base c with
    | some d => digitsValue? base (acc * base + d) cs
    | none => none

/-- A number, "decimal or `0x` hexadecimal" (R65). -/
def number? : List Char → Option Nat
  | '0' :: 'x' :: c :: cs => digitsValue? 16 0 (c :: cs)
  | [] => none
  | c :: cs => digitsValue? 10 0 (c :: cs)

/-- A run of letters, digits, dots and underscores is a number when it starts with a digit, and a word otherwise. -/
def wordToken : List Char → Except AsmError Token
  | [] => .error .badCharacter
  | c :: cs =>
    if c.isDigit then
      match number? (c :: cs) with
      | some n => .ok (.num n)
      | none => .error .badNumber
    else .ok (.word (c :: cs))

/-- Close the run collected so far, in front of the tokens that follow. -/
def closeRun (run : List Char) (rest : Except AsmError (List Token)) : Except AsmError (List Token) :=
  if run = [] then rest
  else
    match wordToken run, rest with
    | .ok t, .ok ts => .ok (t :: ts)
    | .error e, _ => .error e
    | _, .error e => .error e

/-- Put a token in front. -/
def pushToken (t : Token) (rest : Except AsmError (List Token)) : Except AsmError (List Token) :=
  rest.map (t :: ·)

/-- The tokens of a line; `run` is the run being collected. A `;` starts a comment (R65). -/
def lexFrom (run : List Char) : List Char → Except AsmError (List Token)
  | [] => closeRun run (.ok [])
  | '-' :: '>' :: cs => closeRun run (pushToken .arrow (lexFrom [] cs))
  | c :: cs =>
    if c.isAlphanum ∨ c = '.' ∨ c = '_' then lexFrom (run ++ [c]) cs
    else if c = ';' then closeRun run (.ok [])
    else if c.isWhitespace then closeRun run (lexFrom [] cs)
    else if c = ',' then closeRun run (pushToken .comma (lexFrom [] cs))
    else if c = Char.ofNat 0x7B then closeRun run (pushToken .openList (lexFrom [] cs))
    else if c = Char.ofNat 0x7D then closeRun run (pushToken .closeList (lexFrom [] cs))
    else .error .badCharacter

/-! ## Operands -/

/-- An operand of a line. -/
inductive Operand
  | num (n : Nat)
  | handle (h : Handle)
  | bytes (bs : List Nat)
  deriving DecidableEq, Repr

/-- A handle is written `h0`, `h1`, … (R65). -/
def handleNamed? : List Char → Option Handle
  | 'h' :: c :: cs => (digitsValue? 10 0 (c :: cs)).map Handle.mk
  | _ => none

/-- The entries of a byte list after its first, up to its closing mark, and the tokens that follow. -/
def listEntries : List Token → Except AsmError (List Nat × List Token)
  | .closeList :: ts => .ok ([], ts)
  | .comma :: .num n :: ts => (listEntries ts).map (fun p => (n :: p.1, p.2))
  | _ => .error .badOperand

/-- One operand at the front of the tokens, and the tokens that follow. -/
def operandAt : List Token → Except AsmError (Operand × List Token)
  | .num n :: ts => .ok (.num n, ts)
  | .word cs :: ts =>
    match handleNamed? cs with
    | some h => .ok (.handle h, ts)
    | none => .error .badOperand
  | .openList :: .closeList :: ts => .ok (.bytes [], ts)
  | .openList :: .num n :: ts => (listEntries ts).map (fun p => (.bytes (n :: p.1), p.2))
  | _ => .error .badOperand

/-- The comma-separated operands up to the arrow or the end, and the tokens from the arrow on. The number bounds how many
operands are read. -/
def operandsFrom : Nat → List Token → Except AsmError (List Operand × List Token)
  | 0, _ => .error .wrongOperands
  | n + 1, ts =>
    match operandAt ts with
    | .error e => .error e
    | .ok (o, .comma :: ts') => (operandsFrom n ts').map (fun p => (o :: p.1, p.2))
    | .ok (o, ts') => .ok ([o], ts')

/-- The operands of a line; a line without operands has none (R65: INIT). -/
def operands : List Token → Except AsmError (List Operand × List Token)
  | [] => .ok ([], [])
  | .arrow :: ts => .ok ([], .arrow :: ts)
  | ts => operandsFrom ts.length ts

/-- How many results are named after the arrow: a comma-separated list of words. -/
def resultNames : List Token → Except AsmError Nat
  | [.word _] => .ok 1
  | .word _ :: .comma :: ts => (resultNames ts).map (· + 1)
  | _ => .error .wrongResults

/-! ## Lines -/

/-- The mnemonics of R65 and the operations they name. -/
def mnemonics : List (String × Opcode) :=
  [("ENC.READ", .enc .read), ("ENC.WRITE", .enc .write), ("ENC.UPDATE", .enc .update), ("ENC.BREAD", .enc .bulkRead),
   ("ENC.BWRITE", .enc .bulkWrite), ("DEC.READ", .dec .read), ("DEC.WRITE", .dec .write), ("DEC.UPDATE", .dec .update),
   ("DEC.BREAD", .dec .bulkRead), ("DEC.BWRITE", .dec .bulkWrite), ("INIT", .init), ("RESOLVE", .resolve), ("SEND", .send),
   ("WAIT", .wait)]

/-- The pseudo-operations of R66 and their kinds. -/
def pseudoMnemonics : List (String × OpKind) :=
  [("PMIC.READ", .read), ("PMIC.WRITE", .write), ("PMIC.UPDATE", .update), ("PMIC.BREAD", .bulkRead),
   ("PMIC.BWRITE", .bulkWrite)]

/-- The entry of a table of names. -/
def named? {α : Type} (t : List (String × α)) (cs : List Char) : Option α :=
  (t.find? (fun e => e.1.toList == cs)).map Prod.snd

/-- The name of an entry of a table of names. -/
def nameOf {α : Type} [DecidableEq α] (t : List (String × α)) (a : α) : List Char :=
  ((t.find? (fun e => e.2 = a)).map (fun e => e.1.toList)).getD []

/-- The request of an operation with its operands in the order of R65. The numbers stand on the ports as they are written;
whether they fit is the decoder's to say (R57, R113). An ENC.BWRITE byte list has exactly `count` entries, or the line is refused
(R65). -/
def requestOf (op : Opcode) (os : List Operand) : Except AsmError Request :=
  let q := Request.bare op.opsel
  match op, os with
  | .enc .read, [.handle h, .num t, .num r, .num c] => .ok { q with h := h, ty := t, reg := r, chid := c }
  | .enc .write, [.handle h, .num t, .num r, .num c, .num v] =>
    .ok { q with h := h, ty := t, reg := r, chid := c, value := v }
  | .enc .update, [.handle h, .num t, .num r, .num c, .num v, .num m] =>
    .ok { q with h := h, ty := t, reg := r, chid := c, value := v, mask := m }
  | .enc .bulkRead, [.handle h, .num t, .num r, .num c, .num n] =>
    .ok { q with h := h, ty := t, reg := r, chid := c, count := n }
  | .enc .bulkWrite, [.handle h, .num t, .num r, .num c, .num n, .bytes bs] =>
    if bs.length = n then .ok { q with h := h, ty := t, reg := r, chid := c, count := n, bytes := bs }
    else .error .byteListLength
  | .dec .bulkRead, [.handle h, .num n] => .ok { q with h := h, count := n }
  | .dec .read, [.handle h] => .ok { q with h := h }
  | .dec .write, [.handle h] => .ok { q with h := h }
  | .dec .update, [.handle h] => .ok { q with h := h }
  | .dec .bulkWrite, [.handle h] => .ok { q with h := h }
  | .init, [] => .ok q
  | .resolve, [.handle h] => .ok { q with h := h }
  | .send, [.handle h] => .ok { q with h := h }
  | .wait, [.handle h] => .ok { q with h := h }
  | _, _ => .error .wrongOperands

/-- How many results an operation names after its arrow (R65). -/
def resultCount : Opcode → Nat
  | .dec .read => 2
  | .dec .write => 1
  | .dec .update => 1
  | .dec .bulkRead => 2
  | .dec .bulkWrite => 1
  | .resolve => 1
  | .enc _ => 0
  | .init => 0
  | .send => 0
  | .wait => 0

/-- The four requests of a pseudo-operation with the operands of its encode (R66). -/
def pseudoRequests (k : OpKind) (os : List Operand) : Except AsmError (List Request) :=
  match requestOf (.enc k) os with
  | .error e => .error e
  | .ok q =>
    .ok [q, { Request.bare Opcode.send.opsel with h := q.h }, { Request.bare Opcode.wait.opsel with h := q.h },
      { Request.bare (Opcode.dec k).opsel with h := q.h, count := if k = .bulkRead then q.count else 0 }]

/-- The results named after the arrow, if there is one, are as many as the operation has. -/
def checkResults (op : Opcode) : List Token → Except AsmError Unit
  | [] => .ok ()
  | .arrow :: ts =>
    match resultNames ts with
    | .ok n => if n = resultCount op then .ok () else .error .wrongResults
    | .error e => .error e
  | _ => .error .wrongOperands

/-- The requests of a line's tokens: none for an empty line, four for a pseudo-operation, one otherwise. -/
def assembleTokens : List Token → Except AsmError (List Request)
  | [] => .ok []
  | .word m :: ts =>
    match operands ts with
    | .error e => .error e
    | .ok (os, rest) =>
      match named? mnemonics m, named? pseudoMnemonics m with
      | some op, _ =>
        match checkResults op rest, requestOf op os with
        | .ok _, .ok q => .ok [q]
        | .error e, _ => .error e
        | _, .error e => .error e
      | none, some k =>
        match checkResults (.dec k) rest, pseudoRequests k os with
        | .ok _, .ok qs => .ok qs
        | .error e, _ => .error e
        | _, .error e => .error e
      | none, none => .error .unknownMnemonic
  | _ => .error .unknownMnemonic

/-- The requests of one line of text (R65). -/
def assembleLine (text : List Char) : Except AsmError (List Request) :=
  match lexFrom [] text with
  | .ok ts => assembleTokens ts
  | .error e => .error e

/-- The lines of a caller's program from its lines of text; empty lines stand for nothing. -/
def assembleProgram : List (List Char) → Except AsmError (List (List Request))
  | [] => .ok []
  | t :: ts =>
    match assembleLine t, assembleProgram ts with
    | .ok [], .ok ls => .ok ls
    | .ok (q :: qs), .ok ls => .ok ((q :: qs) :: ls)
    | .error e, _ => .error e
    | _, .error e => .error e

/-! ## The written form of an instruction, as tokens -/

/-- A number in decimal digits, the most significant first. -/
def decimal (n : Nat) : List Char := Nat.toDigits 10 n

/-- The written name of a handle. -/
def handleToken (h : Handle) : Token := .word ('h' :: decimal h.name)

/-- A byte list as tokens. -/
def byteListTokens : List Byte → List Token
  | [] => [.openList, .closeList]
  | b :: bs => .openList :: .num b.toNat :: bs.flatMap (fun x => [.comma, .num x.toNat]) ++ [.closeList]

/-- The operands of an instruction in the order of R65, as tokens. -/
def operandTokens : Instr → List Token
  | .encRead h ty reg chid => [handleToken h, .comma, .num ty.toNat, .comma, .num reg.toNat, .comma, .num chid.toNat]
  | .encWrite h ty reg chid value =>
    [handleToken h, .comma, .num ty.toNat, .comma, .num reg.toNat, .comma, .num chid.toNat, .comma, .num value.toNat]
  | .encUpdate h ty reg chid value mask =>
    [handleToken h, .comma, .num ty.toNat, .comma, .num reg.toNat, .comma, .num chid.toNat, .comma, .num value.toNat,
     .comma, .num mask.toNat]
  | .encBread h ty reg chid count =>
    [handleToken h, .comma, .num ty.toNat, .comma, .num reg.toNat, .comma, .num chid.toNat, .comma, .num count]
  | .encBwrite h ty reg chid count bytes =>
    [handleToken h, .comma, .num ty.toNat, .comma, .num reg.toNat, .comma, .num chid.toNat, .comma, .num count, .comma]
      ++ byteListTokens bytes
  | .decRead h => [handleToken h]
  | .decWrite h => [handleToken h]
  | .decUpdate h => [handleToken h]
  | .decBread h count => [handleToken h, .comma, .num count]
  | .decBwrite h => [handleToken h]
  | .init => []
  | .resolve h => [handleToken h]
  | .send h => [handleToken h]
  | .wait h => [handleToken h]

/-- An arrow and the names of results. -/
def resultsTokens : List (List Char) → List Token
  | [] => []
  | n :: ns => .arrow :: .word n :: ns.flatMap (fun x => [.comma, .word x])

/-- A name of a result: letters, digits, dots and underscores, the first no digit. -/
def IsName (cs : List Char) : Prop :=
  (∃ c, cs.head? = some c ∧ c.isDigit = false) ∧ ∀ c ∈ cs, c.isAlphanum = true ∨ c = '.' ∨ c = '_'

/-- The tokens after the operands of a line with `n` results: their names after an arrow, or nothing where they are left out
(R65; log 22). -/
def ResultsFit (n : Nat) (ts : List Token) : Prop :=
  ts = [] ∨ ∃ names, names.length = n ∧ (∀ x ∈ names, IsName x) ∧ ts = resultsTokens names

/-- The characters of a token; a space follows a comma, and one stands on each side of an arrow. -/
def tokenText : Token → List Char
  | .word cs => cs
  | .num n => decimal n
  | .comma => [',', ' ']
  | .openList => [Char.ofNat 0x7B]
  | .closeList => [Char.ofNat 0x7D]
  | .arrow => [' ', '-', '>', ' ']

/-- A line of text: the mnemonic, a space, the tokens after it, and what is left of the line. -/
def lineText (mnemonic : List Char) (ts : List Token) (rest : List Char) : List Char :=
  mnemonic ++ ' ' :: (ts.flatMap tokenText ++ rest)

/-- Nothing, or a comment (R65). -/
def IsComment (cs : List Char) : Prop := cs = [] ∨ ∃ text, cs = ';' :: text

end Sys2Proof.Machine
end

