-- ==== Sys2Proof/Machine/Pseudo.lean ====
section
/-! DEFINITION. The pseudo-operations PMIC.* (30_encoding.md R66): each is a line of four operations on one handle, which
stops at its first `err` (`afterErr`). -/

namespace Sys2Proof.Machine

/-- A pseudo-operation (R66). -/
inductive Pmic
  | read (h : Handle) (ty : BitVec 4) (reg : Byte) (chid : BitVec 4)
  | write (h : Handle) (ty : BitVec 4) (reg : Byte) (chid : BitVec 4) (value : Byte)
  | update (h : Handle) (ty : BitVec 4) (reg : Byte) (chid : BitVec 4) (value mask : Byte)
  | bread (h : Handle) (ty : BitVec 4) (reg : Byte) (chid : BitVec 4) (count : Nat)
  | bwrite (h : Handle) (ty : BitVec 4) (reg : Byte) (chid : BitVec 4) (count : Nat) (bytes : List Byte)
  deriving DecidableEq, Repr

/-- The handle of a pseudo-operation. -/
def Pmic.handle : Pmic → Handle
  | .read h _ _ _ => h
  | .write h _ _ _ _ => h
  | .update h _ _ _ _ _ => h
  | .bread h _ _ _ _ => h
  | .bwrite h _ _ _ _ _ => h

/-- The kind of its command. -/
def Pmic.kind : Pmic → OpKind
  | .read _ _ _ _ => .read
  | .write _ _ _ _ _ => .write
  | .update _ _ _ _ _ _ => .update
  | .bread _ _ _ _ _ => .bulkRead
  | .bwrite _ _ _ _ _ _ => .bulkWrite

/-- Its first operation, the encode. -/
def Pmic.encodeOp : Pmic → Instr
  | .read h ty reg chid => .encRead h ty reg chid
  | .write h ty reg chid value => .encWrite h ty reg chid value
  | .update h ty reg chid value mask => .encUpdate h ty reg chid value mask
  | .bread h ty reg chid count => .encBread h ty reg chid count
  | .bwrite h ty reg chid count bytes => .encBwrite h ty reg chid count bytes

/-- Its last operation, the decode. -/
def Pmic.decodeOp : Pmic → Instr
  | .read h _ _ _ => .decRead h
  | .write h _ _ _ _ => .decWrite h
  | .update h _ _ _ _ _ => .decUpdate h
  | .bread h _ _ _ count => .decBread h count
  | .bwrite h _ _ _ _ _ => .decBwrite h

/-- The expansion: ENC; SEND; WAIT; DEC (R66). -/
def Pmic.expand (p : Pmic) : List Instr := [p.encodeOp, .send p.handle, .wait p.handle, p.decodeOp]

/-- The expansion as one line of a caller's program. -/
def Pmic.line (p : Pmic) : List Request := p.expand.map encode

end Sys2Proof.Machine
end

