-- ==== Sys2Proof/Machine/Storage.lean ====
section
/-! DEFINITION. The bytes of a buffer in storage (20_memory.md R32, R33). No operation of the block addresses a byte (R34);
this is where a reader finds a byte of the 16 under either value of HOST_BYTE_ORDER. -/

namespace Sys2Proof.Machine

/-- The four bytes of a word, the one at the lowest address first (R32). -/
def wordBytes : ByteOrder → Word → List Byte
  | .little, w => [getField 0 8 w, getField 8 8 w, getField 16 8 w, getField 24 8 w]
  | .big, w => [getField 24 8 w, getField 16 8 w, getField 8 8 w, getField 0 8 w]

/-- The 16 bytes of a buffer (R14, R32). -/
def bufferBytes (o : ByteOrder) (W : Words) : List Byte :=
  wordBytes o W.w0 ++ wordBytes o W.w1 ++ wordBytes o W.w2 ++ wordBytes o W.w3

/-- The byte offset of bulk byte `i` from the start of the buffer (R33). -/
def bulkOffset : ByteOrder → Nat → Nat
  | .little, i => 8 + i
  | .big, i => 8 + 4 * (i / 4) + (3 - i % 4)

/-- The bytes of a buffer on this machine. -/
def storageBytes (W : Words) : List Byte := bufferBytes Config.hostByteOrder W

end Sys2Proof.Machine
end

