-- ==== Sys2Proof/Safety.lean ====
section
/-! DEFINITION. What counts as a safe run, and the named properties claims use: the invariant of the sequenced machine, the
table of phase moves (43_transfer.md R95), CorrectPeerEcho (R106) and EXCHANGE_FAIR (R103). -/

namespace Sys2Proof.Machine

/-! ## The pure codec, by operation (R67, R76) -/

/-- The words the pure encoder of an ENC.* gives for its operands and the clock sample `ts`. -/
def encodedWords (ts : Word) : Instr → Option Words
  | .encRead _ ty reg chid => some (encodeRead ty reg chid ts)
  | .encWrite _ ty reg chid value => some (encodeWrite ty reg chid value ts)
  | .encUpdate _ ty reg chid value mask => some (encodeUpdate ty reg chid value mask ts)
  | .encBread _ ty reg chid count => some (encodeBulkRead ty reg chid count)
  | .encBwrite _ ty reg chid count bytes => some (encodeBulkWrite ty reg chid count bytes)
  | .decRead _ => none
  | .decWrite _ => none
  | .decUpdate _ => none
  | .decBread _ _ => none
  | .decBwrite _ => none
  | .init => none
  | .resolve _ => none
  | .send _ => none
  | .wait _ => none

/-- The reply the pure decoder of a DEC.* gives for the response words `W`. -/
def decodedReply (W : Words) : Instr → Option Reply
  | .decRead _ => some (.rcValue (decodeRead W).1 (decodeRead W).2)
  | .decWrite _ => some (.rc (decodeWrite W))
  | .decUpdate _ => some (.rc (decodeUpdate W))
  | .decBread _ count =>
    some (.rcBytes (decodeBulkRead W count).1 (decodeBulkRead W count).2.1 (decodeBulkRead W count).2.2)
  | .decBwrite _ => some (.rc (decodeBulkWrite W))
  | .encRead _ _ _ _ => none
  | .encWrite _ _ _ _ _ => none
  | .encUpdate _ _ _ _ _ _ => none
  | .encBread _ _ _ _ _ => none
  | .encBwrite _ _ _ _ _ _ => none
  | .init => none
  | .resolve _ => none
  | .send _ => none
  | .wait _ => none

/-- The operand fields of word 0 of an ENC.*: `(type, reg, chid)`. -/
def wireHeader : Instr → Option (BitVec 4 × Byte × BitVec 4)
  | .encRead _ ty reg chid => some (ty, reg, chid)
  | .encWrite _ ty reg chid _ => some (ty, reg, chid)
  | .encUpdate _ ty reg chid _ _ => some (ty, reg, chid)
  | .encBread _ ty reg chid _ => some (ty, reg, chid)
  | .encBwrite _ ty reg chid _ _ => some (ty, reg, chid)
  | _ => none

/-! ## Requests -/

/-- `W` is a request of kind `k` with every bit the operation does not define zero (R59, R60), its func code in place (R58)
and a bulk count of at most 8 (R130). -/
structure IsRequest (k : OpKind) (W : Words) : Prop where
  header : W.w0.toNat < 2 ^ 16
  func : getFunc W.w1 = funcByte k
  rcZero : getRc W.w1 = 0
  maskZero : k ≠ .update → getMask W.w1 = 0
  valueZero : k = .read → getValue W.w1 = 0
  count : k = .bulkRead ∨ k = .bulkWrite → (getValue W.w1).toNat ≤ Config.bulkMax
  w2Zero : k ≠ .bulkWrite → W.w2 = 0
  w3Zero : k = .bulkRead → W.w3 = 0
  lanesZero : k = .bulkWrite → ∀ j, (getValue W.w1).toNat ≤ j → j < 8 → getByte W j = 0

/-! ## The invariant -/

/-- What a slot holds in each phase (R17, R18): nothing when FREE; an encoder's words when LOADED; the same words, delivered,
when SENT; four response words when DONE; unwritten words when FAILED. -/
def SlotOk (sl : Slot) : Prop :=
  match sl.phase with
  | .free => sl = Slot.free
  | .loaded => ∃ k W c, IsRequest k W ∧ sl = loadedSlot k W c
  | .sent => ∃ k W c, IsRequest k W ∧ sl = ⟨.sent, some k, .ofWords W, some W, some c⟩
  | .done => ∃ k W R c, IsRequest k W ∧ sl = ⟨.done, some k, .ofWords R, some W, some c⟩
  | .failed => ∃ k W c, IsRequest k W ∧ sl = ⟨.failed, some k, .unwritten, some W, some c⟩

/-- The transport before and after INIT (R20, R21, R22, R24): after it, `popcount(CHAN_MASK)` distinct channels and the
inbound interrupts masked. -/
def TransportOk (s : State) : Prop :=
  match s.life with
  | .uninitialized => s.nchanR = none ∧ s.chans = []
  | .ready => s.nchanR = some (popcount s.chanMask) ∧ s.chans.length = popcount s.chanMask ∧ s.chans.Nodup ∧
      s.imrAllMasked = true

/-- The invariant of the sequenced machine: the tables in canonical form, every slot as its phase says, the transport as its
lifecycle state says. -/
structure Inv (s : State) : Prop where
  slotsWf : Sparse.Wf Slot.free s.slots
  callersWf : Sparse.Wf Caller.idle s.callers
  peerWf : Memory.wf s.peer
  slotOk : ∀ h, SlotOk (s.slot h)
  transportOk : TransportOk s

/-! ## Frames -/

/-- Nothing differs between `s` and `t` but the slot of `touched`, if any, and the result ports. -/
structure UnchangedBut (touched : Option Handle) (s t : State) : Prop where
  slots : ∀ h, touched ≠ some h → t.slot h = s.slot h
  life : t.life = s.life
  nchanR : t.nchanR = s.nchanR
  chans : t.chans = s.chans
  dbr : t.dbr = s.dbr
  imrAllMasked : t.imrAllMasked = s.imrAllMasked
  chanMask : t.chanMask = s.chanMask
  inputs : t.inputs = s.inputs
  callers : t.callers = s.callers
  schedule : t.schedule = s.schedule
  peer : t.peer = s.peer

/-- `h` stands at position `j` of the channel set, and at no earlier one (R22, R91). -/
structure AtIndex (s : State) (h : Handle) (j : Nat) : Prop where
  count : ∃ n, s.nchanR = some n ∧ j < n
  found : s.chans[j]? = some h
  first : ∀ m, m < j → s.chans[m]? ≠ some h

/-- `h` is in none of the positions `0 .. NCHAN_R-1` of the channel set: a stale or foreign handle (R91). -/
def Foreign (s : State) (h : Handle) : Prop := ∀ n, s.nchanR = some n → ∀ m, m < n → s.chans[m]? ≠ some h

/-! ## Phase moves (R95) -/

/-- The moves of a slot's phase an operation on it may make, with the reply it then gives: the caller rows of R95. -/
def mayMove : Opcode → Reply → Phase → Phase → Bool
  | .enc _, .done, .free, .loaded => true
  | .send, .done, .loaded, .sent => true
  | .send, .err _, .loaded, .free => true
  | .wait, .err .xfer, .failed, .free => true
  | .dec _, .rc _, .done, .free => true
  | .dec _, .rcValue _ _, .done, .free => true
  | .dec _, .rcBytes _ _ _, .done, .free => true
  | _, _, _, _ => false

/-! ## The far end -/

/-- `CorrectPeerEcho(sent, R)` (R106). -/
structure CorrectPeerEcho (sent R : Words) : Prop where
  word0 : R.w0 = sent.w0
  mask : getMask R.w1 = getMask sent.w1
  func : getFunc R.w1 = getFunc sent.w1
  payload : getFunc sent.w1 ≠ funcByte .bulkRead → R.w2 = sent.w2 ∧ R.w3 = sent.w3

/-- The step is an operation of caller `k`. -/
def AgentStep.ByCaller (k : Nat) : AgentStep → Prop
  | .caller io => io.caller = k
  | _ => False

/-- The step answers the exchange of `h`: a RESPOND, the reference peer's included, or a FAIL. -/
def AgentStep.Answers (h : Handle) : AgentStep → Prop
  | .respond h' _ => h' = h
  | .peerRespond h' => h' = h
  | .fail h' => h' = h
  | _ => False

/-- The agent's next step is an answer to the exchange of `h`: a RESPOND, the reference peer's included, or a FAIL. -/
def AnswerScheduled (h : Handle) (s : State) : Prop :=
  (∃ r, s.schedule.head? = some (.respond h r)) ∨ s.schedule.head? = some (.fail h) ∨
    (s.schedule.head? = some (.peerRespond h) ∧ ∃ W k, (s.slot h).sent = some W ∧ requestKind? W = some k)

/-- A run of the machine that never stops. -/
def IsRun (run : Nat → State) : Prop := ∀ n, step (run n) = .next (run (n + 1))

/-- `EXCHANGE_FAIR`: every slot that stays in SENT eventually gets a RESPOND or a FAIL (R103). -/
def ExchangeFair (run : Nat → State) : Prop :=
  ∀ h n, (∀ m, n ≤ m → ((run m).slot h).phase = .sent) → ∃ m, n ≤ m ∧ AnswerScheduled h (run m)

/-- A run of `n` steps that meets no fault and no refusal: "a faulted state is never a successful end of a run" (R112). -/
def Succeeds (n : Nat) (s : State) : Prop := ∃ t, core.run n s = .next t

end Sys2Proof.Machine
end

