-- ==== Sys2Proof/Certificates/Slice0/Obligations.lean ====
section
/-! DEFINITION. The statements about the model. Rules R<n>, decisions D<n> and log entries are named where a statement rests
on them. -/

open Sys2Proof Sys2Proof.Machine

/-! ## The operation-select port -/

/-- The fourteen OPSEL values of 30_encoding.md R62, and the eighteen reserved ones of R63; and a few requests written out
from R62 and R64 decode to the operations they stand for. The port and its values are the spec's own choice (D1, D2). -/
def Obligations.OpselValuesNameOperations : Prop :=
  opcodeOf? 0x00 = some (.enc .read) ∧ opcodeOf? 0x01 = some (.enc .write) ∧ opcodeOf? 0x02 = some (.enc .update) ∧
  opcodeOf? 0x03 = some (.enc .bulkRead) ∧ opcodeOf? 0x04 = some (.enc .bulkWrite) ∧
  opcodeOf? 0x08 = some (.dec .read) ∧ opcodeOf? 0x09 = some (.dec .write) ∧ opcodeOf? 0x0A = some (.dec .update) ∧
  opcodeOf? 0x0B = some (.dec .bulkRead) ∧ opcodeOf? 0x0C = some (.dec .bulkWrite) ∧
  opcodeOf? 0x10 = some .init ∧ opcodeOf? 0x11 = some .resolve ∧ opcodeOf? 0x12 = some .send ∧
  opcodeOf? 0x13 = some .wait ∧
  (∀ v : BitVec 5, (0x05 ≤ v ∧ v ≤ 0x07) ∨ (0x0D ≤ v ∧ v ≤ 0x0F) ∨ (0x14 ≤ v ∧ v ≤ 0x1F) → opcodeOf? v = none) ∧
  decode ⟨0x02, ⟨7⟩, 2, 0x30, 1, 0xAA, 0x0F, 0, []⟩ = .ok (.encUpdate ⟨7⟩ 2 0x30 1 0xAA 0x0F) ∧
  decode ⟨0x04, ⟨7⟩, 3, 0xFE, 0, 0, 0, 2, [0x10, 0x20]⟩ = .ok (.encBwrite ⟨7⟩ 3 0xFE 0 2 [0x10, 0x20]) ∧
  decode ⟨0x0B, ⟨7⟩, 0, 0, 0, 0, 0, 4, []⟩ = .ok (.decBread ⟨7⟩ 4) ∧
  decode ⟨0x12, ⟨7⟩, 0, 0, 0, 0, 0, 0, []⟩ = .ok (.send ⟨7⟩)

/-- Decode and encode agree: the request the encoder drives for a well-formed instruction decodes to it, with every operand
(R62, R64; the ports an operation does not read are log 13). -/
def Obligations.DecodeOfEncodeIsIdentity : Prop :=
  ∀ i : Instr, i.wellFormed = true → decode (encode i) = .ok i

/-- What the decoder gives is well formed, and every operand is the number on its port (R57, R64). -/
def Obligations.DecodedOperandsAreThePorts : Prop :=
  ∀ (r : Request) (i : Instr), decode r = .ok i →
    i.wellFormed = true ∧ i.opcode.opsel = r.opsel ∧ (∀ h, i.handle? = some h → h = r.h) ∧
    (∀ ty reg chid, wireHeader i = some (ty, reg, chid) →
      ty.toNat = r.ty ∧ reg.toNat = r.reg ∧ chid.toNat = r.chid) ∧
    (∀ h ty reg chid value, i = .encWrite h ty reg chid value → value.toNat = r.value) ∧
    (∀ h ty reg chid value mask, i = .encUpdate h ty reg chid value mask →
      value.toNat = r.value ∧ mask.toNat = r.mask) ∧
    (∀ h ty reg chid count, i = .encBread h ty reg chid count → count = r.count) ∧
    (∀ h ty reg chid count bytes, i = .encBwrite h ty reg chid count bytes →
      count = r.count ∧ bytes.map BitVec.toNat = r.bytes) ∧
    (∀ h count, i = .decBread h count → count = r.count)

/-- The requests the block refuses (R57, R63, R113, R130): each by name where one reason alone is stated, and with some
refusal otherwise; and a caller's step on such a request is a refusal, with no next state. Refusing is the spec's own choice
(D2, D5, D7); a number above 31 on OPSEL is the model's (log 14), and so is that the whole machine stops (log 23). -/
def Obligations.RequestsOutsideTheFormsAreRefused : Prop :=
  (∀ r : Request,
    (32 ≤ r.opsel → decode r = .error (.tooWide .opsel)) ∧
    (r.opsel < 32 → opcodeOf? (BitVec.ofNat 5 r.opsel) = none → decode r = .error .reservedOpsel) ∧
    (r.opsel ≤ 0x04 → 16 ≤ r.ty ∨ 256 ≤ r.reg ∨ 16 ≤ r.chid → ∃ p, decode r = .error (.tooWide p)) ∧
    (r.opsel = 0x01 ∨ r.opsel = 0x02 → 256 ≤ r.value → ∃ p, decode r = .error (.tooWide p)) ∧
    (r.opsel = 0x02 → 256 ≤ r.mask → ∃ p, decode r = .error (.tooWide p)) ∧
    (r.opsel = 0x03 ∨ r.opsel = 0x04 ∨ r.opsel = 0x0B → 8 < r.count → ∃ e, decode r = .error e) ∧
    (r.opsel = 0x04 → (∃ b ∈ r.bytes, 256 ≤ b) → ∃ e, decode r = .error e) ∧
    (r.opsel = 0x04 → r.bytes.length ≠ r.count → ∃ e, decode r = .error e)) ∧
  (∀ (s : State) (io : Inputs) (rest : List AgentStep) (r : Request) (e : RequestError),
    s.schedule = .caller io :: rest → nextRequest? (s.callerOf io.caller).program = some r → decode r = .error e →
    step s = .refused (.badRequest e))

/-- R65, R66: a line in a form of R65 assembles to its request, and a line in a form of R66 to the four requests of its
pseudo-operation, its numbers in decimal, with the results of the form or none, with a comment or none; an ENC.BWRITE or
PMIC.BWRITE line whose byte list has not exactly `count` entries is refused. The syntax is the spec's own choice (D3). The spacing,
the names and leaving the results out are the model's, and so is that a number too wide for its port is the decoder's to refuse
(log 22). -/
def Obligations.WrittenLineAssembles : Prop :=
  (∀ (i : Instr) (r : List Token) (c : List Char), ResultsFit (resultCount i.opcode) r → IsComment c →
    (i.listFits = true →
      assembleLine (lineText (nameOf mnemonics i.opcode) (operandTokens i ++ r) c) = .ok [encode i]) ∧
    (i.listFits = false →
      assembleLine (lineText (nameOf mnemonics i.opcode) (operandTokens i ++ r) c) = .error .byteListLength)) ∧
  (∀ (p : Pmic) (r : List Token) (c : List Char), ResultsFit (resultCount (.dec p.kind)) r → IsComment c →
    (p.encodeOp.listFits = true →
      assembleLine (lineText (nameOf pseudoMnemonics p.kind) (operandTokens p.encodeOp ++ r) c) = .ok p.line) ∧
    (p.encodeOp.listFits = false →
      assembleLine (lineText (nameOf pseudoMnemonics p.kind) (operandTokens p.encodeOp ++ r) c) =
        .error .byteListLength))

/-! ## The wire format -/

/-- R46 and R47 (and likewise R45, R48 to R51): a field reads its own bits, and a put changes its own bits and no other. -/
def Obligations.FieldsReadAndPutTheirBits : Prop :=
  ∀ w : Word,
    ((getType w).toNat = w.toNat / 2 ^ 8 % 2 ^ 4 ∧ (getReg w).toNat = w.toNat % 2 ^ 8 ∧
     (getChid w).toNat = w.toNat / 2 ^ 12 % 2 ^ 4 ∧ (getFunc w).toNat = w.toNat % 2 ^ 8 ∧
     (getValue w).toNat = w.toNat / 2 ^ 8 % 2 ^ 8 ∧ (getMask w).toNat = w.toNat / 2 ^ 16 % 2 ^ 8 ∧
     (getRc w).toNat = w.toNat / 2 ^ 24) ∧
    (∀ (x : BitVec 4) (b : Nat), b < 32 →
      (putType w x).getLsbD b = (if 8 ≤ b ∧ b ≤ 11 then x.getLsbD (b - 8) else w.getLsbD b) ∧
      (putChid w x).getLsbD b = (if 12 ≤ b ∧ b ≤ 15 then x.getLsbD (b - 12) else w.getLsbD b)) ∧
    (∀ (x : Byte) (b : Nat), b < 32 →
      (putReg w x).getLsbD b = (if b ≤ 7 then x.getLsbD b else w.getLsbD b) ∧
      (putFunc w x).getLsbD b = (if b ≤ 7 then x.getLsbD b else w.getLsbD b) ∧
      (putValue w x).getLsbD b = (if 8 ≤ b ∧ b ≤ 15 then x.getLsbD (b - 8) else w.getLsbD b) ∧
      (putMask w x).getLsbD b = (if 16 ≤ b ∧ b ≤ 23 then x.getLsbD (b - 16) else w.getLsbD b) ∧
      (putRc w x).getLsbD b = (if 24 ≤ b then x.getLsbD (b - 24) else w.getLsbD b))

/-- R53: bulk byte `i` is lane `i % 4` of word `2 + i/4`, read and put. -/
def Obligations.BulkByteOccupiesItsLane : Prop :=
  ∀ (W : Words) (i : Nat), i < 8 →
    (getByte W i).toNat = (W.word (2 + i / 4)).toNat / 2 ^ (8 * (i % 4)) % 2 ^ 8 ∧
    ∀ (x : Byte) (j b : Nat), j < 4 → b < 32 →
      ((putByte W i x).word j).getLsbD b =
        if j = 2 + i / 4 ∧ 8 * (i % 4) ≤ b ∧ b < 8 * (i % 4) + 8 then x.getLsbD (b - 8 * (i % 4))
        else (W.word j).getLsbD b

/-- R54: the request word 0 is its three fields side by side, bits [31:16] zero. -/
def Obligations.PackWordZeroPlacesFields : Prop :=
  ∀ (ty : BitVec 4) (reg : Byte) (chid : BitVec 4),
    (packW0 ty reg chid).toNat = chid.toNat * 2 ^ 12 + ty.toNat * 2 ^ 8 + reg.toNat

/-- R55, R56: the request word 1 is its three fields side by side with bits [31:24] zero (zero by the spec's own choice, D4), and
packing one field never changes the bits of another, in word 0, in word 1 and across lanes. -/
def Obligations.FieldsAreIsolated : Prop :=
  (∀ func value mask : Byte,
    (packW1 func value mask).toNat = mask.toNat * 2 ^ 16 + value.toNat * 2 ^ 8 + func.toNat) ∧
  (∀ (ty : BitVec 4) (reg : Byte) (chid : BitVec 4),
    getType (packW0 ty reg chid) = ty ∧ getReg (packW0 ty reg chid) = reg ∧ getChid (packW0 ty reg chid) = chid ∧
    (packW0 ty reg chid).toNat < 2 ^ 16) ∧
  (∀ func value mask : Byte,
    getFunc (packW1 func value mask) = func ∧ getValue (packW1 func value mask) = value ∧
    getMask (packW1 func value mask) = mask ∧ getRc (packW1 func value mask) = 0) ∧
  (∀ (W : Words) (i j : Nat) (x : Byte), i < 8 → j < 8 →
    getByte (putByte W i x) j = if j = i then x else getByte W j)

/-- R58: the five func codes, no other, and each encoder writes the one code of its kind; the kinds READ, WRITE and UPDATE are
single (word 3 is the timestamp), BULK_READ and BULK_WRITE are bulk (no timestamp). -/
def Obligations.FuncCodesAreTheTable : Prop :=
  (∀ n k, OpKind.ofCode? n = some k ↔ n = k.code) ∧
  OpKind.read.code = 0 ∧ OpKind.write.code = 1 ∧ OpKind.update.code = 2 ∧ OpKind.bulkRead.code = 3 ∧
  OpKind.bulkWrite.code = 4 ∧
  ∀ (ts : Word) (i : Instr) (W : Words) (k : OpKind), i.wellFormed = true → i.opcode = .enc k →
    encodedWords ts i = some W → (getFunc W.w1).toNat = k.code ∧
      (k = .read ∨ k = .write ∨ k = .update → W.w3 = ts) ∧
      (k = .bulkRead ∨ k = .bulkWrite → ∀ ts', encodedWords ts' i = some W)

/-- R59 and R60: what every encoder leaves zero, and a bulk count of at most 8. Zero fill beyond READ and word 0 is the spec's
own choice (D4). -/
def Obligations.EncodersZeroUndefinedBits : Prop :=
  ∀ (ts : Word) (i : Instr) (W : Words) (k : OpKind), i.wellFormed = true → i.opcode = .enc k →
    encodedWords ts i = some W → IsRequest k W

/-- R75 and R86: bulk packing and unpacking are inverse, in the encoder's words and in any response with `rc = 0`. -/
def Obligations.BulkBytesRoundTrip : Prop :=
  ∀ (bytes : List Byte), bytes.length ≤ 8 →
    (∀ ty reg chid, getBytes (encodeBulkWrite ty reg chid bytes.length bytes) bytes.length = bytes) ∧
    (∀ W : Words, getRc W.w1 = 0 →
      decodeBulkRead (putBytes W 0 bytes) bytes.length = (0, bytes, true))

/-- R33: where bulk byte `i` stands among the 16 bytes in storage, under either byte order. -/
def Obligations.BulkByteOffsetInStorage : Prop :=
  ∀ (o : ByteOrder) (W : Words) (i : Nat), i < 8 →
    (bufferBytes o W).length = 16 ∧ (bufferBytes o W)[bulkOffset o i]? = some (getByte W i) ∧
    bulkOffset .little i = 8 + i ∧ bulkOffset .big i = 8 + 4 * (i / 4) + (3 - i % 4)

/-- R74, R85: the header of every encoder's result reads back as the operands, and so does the header of a correct peer's
response to it, for every kind. -/
def Obligations.HeaderReadsBackAfterExchange : Prop :=
  ∀ (ts : Word) (i : Instr) (sent : Words) (ty : BitVec 4) (reg : Byte) (chid : BitVec 4),
    encodedWords ts i = some sent → wireHeader i = some (ty, reg, chid) →
    (getType sent.w0 = ty ∧ getReg sent.w0 = reg ∧ getChid sent.w0 = chid) ∧
    ∀ R : Words, CorrectPeerEcho sent R → getType R.w0 = ty ∧ getReg R.w0 = reg ∧ getChid R.w0 = chid

/-! ## ENC.* -/

/-- R69: `encode_read` gives word 0 from the header, word 1 and word 2 zero and the timestamp in word 3; its OPSEL is 0x00, its
func code 0, and operands wider than their fields are refused. -/
def Obligations.PureReadEncoderWords : Prop :=
  (∀ (h : Handle) (ty : BitVec 4) (reg : Byte) (chid : BitVec 4) (ts : Word),
    (encodeRead ty reg chid ts).w0.toNat = chid.toNat * 2 ^ 12 + ty.toNat * 2 ^ 8 + reg.toNat ∧
    (encodeRead ty reg chid ts).w1 = 0 ∧ (encodeRead ty reg chid ts).w2 = 0 ∧ (encodeRead ty reg chid ts).w3 = ts ∧
    (encode (.encRead h ty reg chid)).opsel = 0x00 ∧ OpKind.read.code = 0) ∧
  (∀ r : Request, r.opsel = 0x00 →
    (r.ty < 16 ∧ r.reg < 256 ∧ r.chid < 16 →
      decode r = .ok (.encRead r.h (BitVec.ofNat 4 r.ty) (BitVec.ofNat 8 r.reg) (BitVec.ofNat 4 r.chid))) ∧
    (16 ≤ r.ty ∨ 256 ≤ r.reg ∨ 16 ≤ r.chid → ∃ p, decode r = .error (.tooWide p)))

/-- R68, R69, R104: ENC.READ on a FREE slot completes, with the words of `encode_read`, the clock reading truncated to 32 bits in
word 3, and the slot LOADED by the caller (the slot and the draw are the spec's own choices, D24, D37). -/
def Obligations.EncReadLoadsItsRequest : Prop :=
  ∀ (s : State) (h : Handle) (ty : BitVec 4) (reg : Byte) (chid : BitVec 4), (s.slot h).phase = .free →
    ∃ t, exec (.encRead h ty reg chid) s = .next t ∧
      t.slot h = ⟨.loaded, some .read,
        ⟨some (BitVec.ofNat 32 (chid.toNat * 2 ^ 12 + ty.toNat * 2 ^ 8 + reg.toNat)), some 0, some 0,
          some (BitVec.ofNat 32 s.inputs.clockMs)⟩, none, some s.inputs.caller⟩ ∧
      t.port = some .done ∧ UnchangedBut (some h) s t

/-- R68, R70: ENC.WRITE on a FREE slot completes. Zero fill and the slot are the spec's own choices (D4, D24). -/
def Obligations.EncWriteLoadsItsRequest : Prop :=
  ∀ (s : State) (h : Handle) (ty : BitVec 4) (reg : Byte) (chid : BitVec 4) (value : Byte),
    (s.slot h).phase = .free →
    ∃ t, exec (.encWrite h ty reg chid value) s = .next t ∧
      t.slot h = ⟨.loaded, some .write,
        ⟨some (BitVec.ofNat 32 (chid.toNat * 2 ^ 12 + ty.toNat * 2 ^ 8 + reg.toNat)),
          some (BitVec.ofNat 32 (value.toNat * 2 ^ 8 + 1)), some 0, some (BitVec.ofNat 32 s.inputs.clockMs)⟩,
        none, some s.inputs.caller⟩ ∧
      t.port = some .done ∧ UnchangedBut (some h) s t

/-- R68, R71: ENC.UPDATE on a FREE slot completes; value and mask go on the wire unchanged (D4, D24). -/
def Obligations.EncUpdateLoadsItsRequest : Prop :=
  ∀ (s : State) (h : Handle) (ty : BitVec 4) (reg : Byte) (chid : BitVec 4) (value mask : Byte),
    (s.slot h).phase = .free →
    ∃ t, exec (.encUpdate h ty reg chid value mask) s = .next t ∧
      t.slot h = ⟨.loaded, some .update,
        ⟨some (BitVec.ofNat 32 (chid.toNat * 2 ^ 12 + ty.toNat * 2 ^ 8 + reg.toNat)),
          some (BitVec.ofNat 32 (mask.toNat * 2 ^ 16 + value.toNat * 2 ^ 8 + 2)), some 0,
          some (BitVec.ofNat 32 s.inputs.clockMs)⟩, none, some s.inputs.caller⟩ ∧
      t.port = some .done ∧ UnchangedBut (some h) s t

/-- R68, R72: ENC.BREAD on a FREE slot completes for every count in 0..8, with no timestamp (D4, D6, D24). -/
def Obligations.EncBreadLoadsItsRequest : Prop :=
  ∀ (s : State) (h : Handle) (ty : BitVec 4) (reg : Byte) (chid : BitVec 4) (count : Nat),
    count ≤ 8 → (s.slot h).phase = .free →
    ∃ t, exec (.encBread h ty reg chid count) s = .next t ∧
      t.slot h = ⟨.loaded, some .bulkRead,
        ⟨some (BitVec.ofNat 32 (chid.toNat * 2 ^ 12 + ty.toNat * 2 ^ 8 + reg.toNat)),
          some (BitVec.ofNat 32 (count * 2 ^ 8 + 3)), some 0, some 0⟩, none, some s.inputs.caller⟩ ∧
      t.port = some .done ∧ UnchangedBut (some h) s t

/-- R68, R73: ENC.BWRITE on a FREE slot completes for every count in 0..8 and a list of that length: the bytes in their lanes,
every other lane zero, no timestamp (D4, D6, D24). -/
def Obligations.EncBwriteLoadsItsRequest : Prop :=
  ∀ (s : State) (h : Handle) (ty : BitVec 4) (reg : Byte) (chid : BitVec 4) (count : Nat) (bytes : List Byte),
    count ≤ 8 → bytes.length = count → (s.slot h).phase = .free →
    ∃ t W, exec (.encBwrite h ty reg chid count bytes) s = .next t ∧
      t.slot h = ⟨.loaded, some .bulkWrite, ⟨some W.w0, some W.w1, some W.w2, some W.w3⟩, none,
        some s.inputs.caller⟩ ∧
      W.w0.toNat = chid.toNat * 2 ^ 12 + ty.toNat * 2 ^ 8 + reg.toNat ∧ W.w1.toNat = count * 2 ^ 8 + 4 ∧
      (∀ j, j < 8 → getByte W j = bytes.getD j 0) ∧
      t.port = some .done ∧ UnchangedBut (some h) s t

/-- R96: a held slot is not taken. Its holder's own ENC.* is F_SEQ, another caller's holds and changes nothing. The lock is
the spec's own choice of two (D25); that a held attempt answers a next state with `hold` on the result ports is the model's reading
(log 10, DEDUCED). -/
def Obligations.HeldSlotIsNotEncoded : Prop :=
  ∀ (i : Instr) (k : OpKind) (h : Handle) (s : State), i.opcode = .enc k → i.handle? = some h →
    i.wellFormed = true → (s.slot h).phase ≠ .free →
    ((s.slot h).owner = some s.inputs.caller → exec i s = .fault .fSeq) ∧
    ((s.slot h).owner ≠ some s.inputs.caller →
      ∃ t, exec i s = .next t ∧ t.port = some .hold ∧ UnchangedBut none s t)

/-- R13, R68: an ENC.* answers alike in two states that agree on its slot, the caller and the clock sample, and a bulk ENC.*
whatever the clock: it does not depend on the transport, on any other slot or on anything held between operations. -/
def Obligations.EncodeIgnoresEverythingElse : Prop :=
  ∀ (i : Instr) (k : OpKind) (h : Handle) (s s' t : State), i.opcode = .enc k → i.handle? = some h →
    s'.slot h = s.slot h → s'.inputs.caller = s.inputs.caller →
    (k = .bulkRead ∨ k = .bulkWrite ∨ s'.inputs.clockMs % 2 ^ 32 = s.inputs.clockMs % 2 ^ 32) →
    exec i s = .next t → ∃ t', exec i s' = .next t' ∧ t'.slot h = t.slot h ∧ t'.port = t.port

/-! ## DEC.* -/

/-- R80, R81, R82, R84: what the pure decoders extract: `rc = W1[31:24]`, and for READ `value = W1[15:8]` whatever `rc` is; and
their OPSEL values. -/
def Obligations.PureDecodersExtractFields : Prop :=
  ∀ (W : Words) (h : Handle),
    (decodeRead W).1.toNat = W.w1.toNat / 2 ^ 24 ∧ (decodeRead W).2.toNat = W.w1.toNat / 2 ^ 8 % 2 ^ 8 ∧
    (decodeWrite W).toNat = W.w1.toNat / 2 ^ 24 ∧ (decodeUpdate W).toNat = W.w1.toNat / 2 ^ 24 ∧
    (decodeBulkWrite W).toNat = W.w1.toNat / 2 ^ 24 ∧
    decode (Request.bare 0x08) = .ok (.decRead ⟨0⟩) ∧ decode (Request.bare 0x09) = .ok (.decWrite ⟨0⟩) ∧
    decode (Request.bare 0x0A) = .ok (.decUpdate ⟨0⟩) ∧ decode (Request.bare 0x0C) = .ok (.decBwrite ⟨0⟩) ∧
    decodedReply W (.decRead h) = some (.rcValue (decodeRead W).1 (decodeRead W).2) ∧
    decodedReply W (.decWrite h) = some (.rc (decodeWrite W)) ∧
    decodedReply W (.decUpdate h) = some (.rc (decodeUpdate W)) ∧
    decodedReply W (.decBwrite h) = some (.rc (decodeBulkWrite W))

/-- R79, R80: DEC.READ of a DONE slot of the caller's completes with `rc = W1[31:24]` and `value = W1[15:8]`, whatever `rc` is;
the slot is freed (the spec's own choice, D27). -/
def Obligations.DecReadReturnsCodeAndValue : Prop :=
  ∀ (s : State) (h : Handle) (w0 w1 w2 w3 : Word), (s.slot h).phase = .done →
    (s.slot h).owner = some s.inputs.caller → (s.slot h).cb = ⟨some w0, some w1, some w2, some w3⟩ →
    ∃ t rc value, exec (.decRead h) s = .next t ∧ t.port = some (.rcValue rc value) ∧
      rc.toNat = w1.toNat / 2 ^ 24 ∧ value.toNat = w1.toNat / 2 ^ 8 % 2 ^ 8 ∧
      t.slot h = Slot.free ∧ UnchangedBut (some h) s t

/-- R79, R81, R82, R84: DEC.WRITE, DEC.UPDATE and DEC.BWRITE of a DONE slot of the caller's complete with `rc = W1[31:24]`; the
slot is freed (the spec's own choice, D27). -/
def Obligations.DecStatusReturnsCode : Prop :=
  ∀ (i : Instr) (s : State) (h : Handle) (w0 w1 w2 w3 : Word), i = .decWrite h ∨ i = .decUpdate h ∨ i = .decBwrite h →
    (s.slot h).phase = .done → (s.slot h).owner = some s.inputs.caller →
    (s.slot h).cb = ⟨some w0, some w1, some w2, some w3⟩ →
    ∃ t rc, exec i s = .next t ∧ t.port = some (.rc rc) ∧ rc.toNat = w1.toNat / 2 ^ 24 ∧
      t.slot h = Slot.free ∧ UnchangedBut (some h) s t

/-- R83: DEC.BREAD of a DONE slot of the caller's completes: no byte and `payload_valid` false when `rc ≠ 0`, else the lanes
`0 .. count-1` for the caller's own count (D6, D10); the slot is freed (R79, D27); a count above 8 is refused (D7). -/
def Obligations.DecBreadReturnsPayloadOnlyOnSuccess : Prop :=
  ∀ (s : State) (h : Handle) (count : Nat),
    (8 < count → exec (.decBread h count) s = .refused (.badRequest .countOver8)) ∧
    ∀ W : Words, count ≤ 8 → (s.slot h).phase = .done → (s.slot h).owner = some s.inputs.caller →
      (s.slot h).cb = ⟨some W.w0, some W.w1, some W.w2, some W.w3⟩ →
      ∃ t rc bytes valid, exec (.decBread h count) s = .next t ∧ t.port = some (.rcBytes rc bytes valid) ∧
        rc.toNat = W.w1.toNat / 2 ^ 24 ∧ (valid = true ↔ rc = 0) ∧ (rc ≠ 0 → bytes = []) ∧
        (rc = 0 → bytes.length = count ∧ ∀ j, j < count → bytes[j]? = some (getByte W j)) ∧
        t.slot h = Slot.free ∧ UnchangedBut (some h) s t

/-- R78: a decoder's result depends on nothing but the bits its rule names: the return code alone for WRITE, UPDATE and
BULK_WRITE and for a failed BULK_READ, the code and the value for READ, the code and the first `count` lanes for BULK_READ. No
check of the echo is the spec's own choice (D9). -/
def Obligations.DecodersIgnoreEverythingElse : Prop :=
  ∀ (W W' : Words), getRc W.w1 = getRc W'.w1 →
    (∀ h, decodedReply W (.decWrite h) = decodedReply W' (.decWrite h) ∧
      decodedReply W (.decUpdate h) = decodedReply W' (.decUpdate h) ∧
      decodedReply W (.decBwrite h) = decodedReply W' (.decBwrite h)) ∧
    (getValue W.w1 = getValue W'.w1 → ∀ h, decodedReply W (.decRead h) = decodedReply W' (.decRead h)) ∧
    (∀ h count, (getRc W.w1 ≠ 0 ∨ ∀ j, j < count → getByte W j = getByte W' j) →
      decodedReply W (.decBread h count) = decodedReply W' (.decBread h count))

/-! ## INIT, RESOLVE, SEND, WAIT -/

/-- R87, R89, R90: INIT before INIT completes: `popcount(CHAN_MASK)` pairwise distinct channels, the inbound interrupts masked,
Ready; DBR, the slots and everything else as before. Every list of that many distinct handles is the choice of some draw
(D41, D43; the form of the draw is log 5). -/
def Obligations.InitBringsUpTransport : Prop :=
  ∀ s : State, s.life = .uninitialized →
    ∃ t, exec .init s = .next t ∧ t.life = .ready ∧ t.nchanR = some (popcount s.chanMask) ∧
      t.chans.length = popcount s.chanMask ∧ t.chans.Nodup ∧ t.imrAllMasked = true ∧ t.port = some .done ∧
      t.dbr = s.dbr ∧ (∀ h, t.slot h = s.slot h) ∧ t.chanMask = s.chanMask ∧ t.inputs = s.inputs ∧
      t.callers = s.callers ∧ t.schedule = s.schedule ∧ t.peer = s.peer ∧
      (s.inputs.handles.Nodup → s.inputs.handles.length = popcount s.chanMask → t.chans = s.inputs.handles)

/-- R88: the channel count is the number of 1 bits of the 16-bit mask, an integer in 0..16, derived at INIT. -/
def Obligations.ChannelCountIsPopulationCount : Prop :=
  (∀ m : BitVec 16, popcount m = (Finset.univ.filter (fun b : Fin 16 => m.getLsbD b = true)).card ∧
    popcount m ≤ 16) ∧
  (∀ s t : State, s.life = .uninitialized → exec .init s = .next t → t.nchanR = some (popcount s.chanMask)) ∧
  popcount 0xFFFF#16 = 16 ∧ popcount 0x00FF#16 = 8 ∧ popcount 0x8001#16 = 2 ∧ popcount 0x0000#16 = 0

/-- R91: RESOLVE completes with the handle's position; a foreign handle gives E_INVAL and a RESOLVE before INIT E_NOT_READY
(D20). No state changes. -/
def Obligations.ResolveFindsPosition : Prop :=
  ∀ (s : State) (h : Handle),
    (∀ j, s.life = .ready → AtIndex s h j →
      ∃ t, exec (.resolve h) s = .next t ∧ t.port = some (.index j) ∧ UnchangedBut none s t) ∧
    (s.life = .ready → Foreign s h →
      ∃ t, exec (.resolve h) s = .next t ∧ t.port = some (.err .inval) ∧ UnchangedBut none s t) ∧
    (s.life = .uninitialized →
      ∃ t, exec (.resolve h) s = .next t ∧ t.port = some (.err .notReady) ∧ UnchangedBut none s t)

/-- R92, R93, R94, R39: SEND of a LOADED slot of the caller's completes when it is not rejected: bit `index` of DBR is set and no
other bit changes, the slot is SENT and keeps what was delivered (D13, D17, D26). -/
def Obligations.SendRingsTheIndexBit : Prop :=
  ∀ (s : State) (h : Handle) (j : Nat) (w0 w1 w2 w3 : Word), (s.slot h).phase = .loaded →
    (s.slot h).owner = some s.inputs.caller → (s.slot h).cb = ⟨some w0, some w1, some w2, some w3⟩ →
    s.life = .ready → AtIndex s h j → s.inputs.reject = false →
    ∃ t, exec (.send h) s = .next t ∧ t.port = some .done ∧
      (∀ b, b < 32 → t.dbr.getLsbD b = (s.dbr.getLsbD b || decide (b = j))) ∧
      t.slot h = { s.slot h with phase := .sent, sent := some ⟨w0, w1, w2, w3⟩ } ∧
      UnchangedBut (some h) s { t with dbr := s.dbr }

/-- R93, R94, R109: SEND of a LOADED slot of the caller's with a transport error frees the slot and returns the error. Before
INIT and for a foreign handle no register write occurs; after a rejection DBR is as it was or has the bit set, as the draw
says (D17, D20, D26). -/
def Obligations.SendErrorEndsTransfer : Prop :=
  ∀ (s : State) (h : Handle), (s.slot h).phase = .loaded → (s.slot h).owner = some s.inputs.caller →
    (s.life = .uninitialized → ∃ t, exec (.send h) s = .next t ∧ t.port = some (.err .notReady) ∧
      t.slot h = Slot.free ∧ UnchangedBut (some h) s t) ∧
    (s.life = .ready → Foreign s h → ∃ t, exec (.send h) s = .next t ∧ t.port = some (.err .inval) ∧
      t.slot h = Slot.free ∧ UnchangedBut (some h) s t) ∧
    (∀ j, s.life = .ready → AtIndex s h j → s.inputs.reject = true →
      ∃ t, exec (.send h) s = .next t ∧ t.port = some (.err .dbRejected) ∧ t.slot h = Slot.free ∧
        (∀ b, b < 32 →
          t.dbr.getLsbD b = (s.dbr.getLsbD b || (s.inputs.ringOnReject && decide (b = j)))) ∧
        UnchangedBut (some h) s { t with dbr := s.dbr })

/-- R37: SENDs on two slots commute: run in the other order they both go on, and leave the same DBR and the same slots. -/
def Obligations.SendsOnDistinctSlotsCommute : Prop :=
  ∀ (s a b : State) (h h' : Handle) (io io' : Inputs), h ≠ h' →
    exec (.send h) { s with inputs := io } = .next a → exec (.send h') { a with inputs := io' } = .next b →
    ∃ c d, exec (.send h') { s with inputs := io' } = .next c ∧ exec (.send h) { c with inputs := io } = .next d ∧
      d.dbr = b.dbr ∧ ∀ x, d.slot x = b.slot x

/-- R97: WAIT by the slot's owner: it completes when DONE, with nothing changed; it holds while SENT; when FAILED it frees the
slot and returns E_XFER (D28). That a held attempt answers a next state with `hold` on the result ports is the model's reading (log
10, DEDUCED). -/
def Obligations.WaitFollowsThePhase : Prop :=
  ∀ (s : State) (h : Handle), (s.slot h).owner = some s.inputs.caller →
    ((s.slot h).phase = .done →
      ∃ t, exec (.wait h) s = .next t ∧ t.port = some .done ∧ UnchangedBut none s t) ∧
    ((s.slot h).phase = .sent →
      ∃ t, exec (.wait h) s = .next t ∧ t.port = some .hold ∧ UnchangedBut none s t) ∧
    ((s.slot h).phase = .failed →
      ∃ t, exec (.wait h) s = .next t ∧ t.port = some (.err .xfer) ∧ t.slot h = Slot.free ∧
        UnchangedBut (some h) s t)

/-! ## Errors, faults and refusals -/

/-- R112, R114: exactly when an operation is F_SEQ and when it is F_REINIT. Refusals come first, every transport error after
(the faults and their order are the spec's own choice, D21, D23 to D27). -/
def Obligations.FaultsAreExactlyTheIllSequencedUses : Prop :=
  ∀ (i : Instr) (s : State),
    (exec i s = .fault .fReinit ↔ i = .init ∧ s.life = .ready) ∧
    (exec i s = .fault .fSeq ↔ i.wellFormed = true ∧ ∃ h, i.handle? = some h ∧
      ((∃ k, i.opcode = .enc k ∧ (s.slot h).phase ≠ .free ∧ (s.slot h).owner = some s.inputs.caller) ∨
       (∃ k, i.opcode = .dec k ∧ ¬((s.slot h).phase = .done ∧ (s.slot h).owner = some s.inputs.caller)) ∨
       (i.opcode = .send ∧ ¬((s.slot h).phase = .loaded ∧ (s.slot h).owner = some s.inputs.caller)) ∨
       (i.opcode = .wait ∧ ((s.slot h).owner ≠ some s.inputs.caller ∨ (s.slot h).phase = .free ∨
          (s.slot h).phase = .loaded))))

/-- R15, R79, R94: a DEC.* of a DONE slot of the caller's, and a SEND that would go on, with an unwritten word is F_UNWRITTEN,
never a value (D40; a DEC.* reads all four words, log 15). -/
def Obligations.UnwrittenWordIsNeverRead : Prop :=
  ∀ (i : Instr) (k : OpKind) (h : Handle) (s : State), i.handle? = some h →
    i.wellFormed = true → (s.slot h).owner = some s.inputs.caller →
    ((s.slot h).cb.c0 = none ∨ (s.slot h).cb.c1 = none ∨ (s.slot h).cb.c2 = none ∨ (s.slot h).cb.c3 = none) →
    (i.opcode = .dec k → (s.slot h).phase = .done → exec i s = .fault .fUnwritten) ∧
    (∀ j, i.opcode = .send → (s.slot h).phase = .loaded → s.life = .ready → AtIndex s h j →
      s.inputs.reject = false → exec i s = .fault .fUnwritten)

/-- R113, R114: an operation is refused exactly when its operands are outside the admitted forms, whatever the state. -/
def Obligations.RefusedExactlyWhenIllFormed : Prop :=
  ∀ (i : Instr) (s : State), (∃ r, exec i s = .refused r) ↔ i.wellFormed = false

/-- R108: a transport error is an outcome of RESOLVE, SEND or WAIT, a return code one of a DEC.*, and no operation yields
both. -/
def Obligations.TwoErrorLayersStayApart : Prop :=
  ∀ (i : Instr) (s t : State) (r : Reply), exec i s = .next t → t.port = some r →
    ((∃ e, r = .err e) → (∃ h, i = .resolve h) ∨ (∃ h, i = .send h) ∨ ∃ h, i = .wait h) ∧
    ((∃ a, r = .rc a ∨ (∃ b, r = .rcValue a b) ∨ ∃ bs v, r = .rcBytes a bs v) ↔ ∃ k, i.opcode = .dec k)

/-- R109: who raises each transport error, in which state, and the four codes (D20, D22). -/
def Obligations.TransportErrorsHaveTheirCauses : Prop :=
  (TransportError.code .notReady = 1 ∧ TransportError.code .inval = 2 ∧ TransportError.code .dbRejected = 3 ∧
    TransportError.code .xfer = 4) ∧
  ∀ (i : Instr) (s t : State), exec i s = .next t →
    (t.port = some (.err .notReady) → s.life = .uninitialized ∧ (i.opcode = .resolve ∨ i.opcode = .send) ∧
      t.dbr = s.dbr) ∧
    (t.port = some (.err .inval) → s.life = .ready ∧ (i.opcode = .resolve ∨ i.opcode = .send) ∧
      (∀ h, i.handle? = some h → Foreign s h) ∧ t.dbr = s.dbr) ∧
    (t.port = some (.err .dbRejected) → s.life = .ready ∧ i.opcode = .send ∧ s.inputs.reject = true ∧
      ∀ h, i.handle? = some h → ¬Foreign s h) ∧
    (t.port = some (.err .xfer) → i.opcode = .wait ∧ ∀ h, i.handle? = some h → (s.slot h).phase = .failed)

/-- R111: after a SEND or a WAIT that returns a transport error the slot is FREE with its words unwritten, and every DEC.* on it
is F_SEQ. -/
def Obligations.NoReturnCodeAfterTransportError : Prop :=
  ∀ (i d : Instr) (k : OpKind) (h : Handle) (e : TransportError) (s t : State), i = .send h ∨ i = .wait h →
    exec i s = .next t → t.port = some (.err e) → d.opcode = .dec k → d.handle? = some h → d.wellFormed = true →
    t.slot h = Slot.free ∧ exec d t = .fault .fSeq

/-! ## The whole machine -/

/-- The decoded instruction runs: where the head of the schedule is a caller whose next request decodes to `i`, a step is
`exec i` with that step's inputs, and then the reply is filed. The scheduling is the model's (log 3, 12). -/
def Obligations.StepRunsDecodedInstruction : Prop :=
  (∀ (s : State) (io : Inputs) (rest : List AgentStep) (r : Request) (i : Instr),
    s.schedule = .caller io :: rest → nextRequest? (s.callerOf io.caller).program = some r → decode r = .ok i →
    step s = retireOutcome (exec i { s with schedule := rest, inputs := io })) ∧
  (∀ (s : State) (nbits w : Nat) (i : Instr), decodeTableWord nbits w = some i →
    ∃ cs, step (s.withFetchWord nbits w) = retireOutcome (exec i { s with callers := cs }))

/-- R11, R65, R66, R96: what a step does with the reply. On `hold` the operation stays the caller's next one; on `err` the rest
of its line is dropped; otherwise the operation is used up; what is returned goes to that caller, and no other caller's record
changes (log 10, 12, 17). -/
def Obligations.ReplyIsFiledWithItsCaller : Prop :=
  ∀ (s u : State) (io : Inputs) (rest : List AgentStep) (q : Request) (qs : List Request) (lines : List (List Request))
    (i : Instr) (r : Reply), s.schedule = .caller io :: rest → (s.callerOf io.caller).program = (q :: qs) :: lines →
    decode q = .ok i → exec i { s with schedule := rest, inputs := io } = .next u → u.port = some r →
    ∃ t, step s = .next t ∧
      t.callerOf io.caller =
        (match r with
         | .hold => s.callerOf io.caller
         | .err e => ⟨lines, .err e :: (s.callerOf io.caller).returned⟩
         | r => ⟨if qs = [] then lines else qs :: lines, r :: (s.callerOf io.caller).returned⟩) ∧
      (∀ k, k ≠ io.caller → t.callerOf k = s.callerOf k) ∧ t = { u with callers := t.callers }

/-- R99, R100, R101: RESPOND on a SENT slot writes any four words over the buffer and makes it DONE, FAIL makes its words
unwritten and the slot FAILED (D29, D30); on any other slot the step does not happen (log 11). -/
def Obligations.ExchangeStepsAnswerASentSlot : Prop :=
  ∀ (s : State) (h : Handle) (rest : List AgentStep),
    (∀ r : Words, s.schedule = .respond h r :: rest →
      ∃ t, step s = .next t ∧
        ((s.slot h).phase = .sent → t.slot h =
          { s.slot h with phase := .done, cb := ⟨some r.w0, some r.w1, some r.w2, some r.w3⟩ }) ∧
        ((s.slot h).phase ≠ .sent → t.slot h = s.slot h) ∧
        UnchangedBut (some h) { s with schedule := rest } t ∧ t.port = s.port) ∧
    (s.schedule = .fail h :: rest →
      ∃ t, step s = .next t ∧
        ((s.slot h).phase = .sent → t.slot h =
          { s.slot h with phase := .failed, cb := ⟨none, none, none, none⟩ }) ∧
        ((s.slot h).phase ≠ .sent → t.slot h = s.slot h) ∧
        UnchangedBut (some h) { s with schedule := rest } t ∧ t.port = s.port)

/-- R102: DBCLEAR clears the bits of its mask, in every state, and nothing else (D16). -/
def Obligations.RemoteClearsDoorbellBits : Prop :=
  ∀ (s : State) (m : BitVec 32) (rest : List AgentStep), s.schedule = .dbclear m :: rest →
    ∃ t, step s = .next t ∧ (∀ b, b < 32 → t.dbr.getLsbD b = (s.dbr.getLsbD b && !m.getLsbD b)) ∧
      UnchangedBut none { s with schedule := rest } { t with dbr := s.dbr } ∧ t.port = s.port

/-- R20: the transport has two lifecycle states, starts Uninitialized, and only INIT moves it, to Ready and never back. -/
def Obligations.OnlyInitWritesLife : Prop :=
  (∀ l : Life, l = .uninitialized ∨ l = .ready) ∧ State.reset.life = .uninitialized ∧
  ∀ s t : State, step s = .next t → t.life ≠ s.life →
    s.life = .uninitialized ∧ t.life = .ready ∧ ∃ io rest r, s.schedule = .caller io :: rest ∧
      nextRequest? (s.callerOf io.caller).program = some r ∧ decode r = .ok .init

/-- R17, R20, R21, R22, R124: what reset leaves, the values the spec gives (the slots' are its decision D40). -/
def Obligations.ResetValuesOfTheSpec : Prop :=
  State.reset.life = .uninitialized ∧ State.reset.nchanR = none ∧ State.reset.chans = [] ∧
  ∀ h, State.reset.slot h = ⟨.free, none, ⟨none, none, none, none⟩, none, none⟩

/-- R21, R22, R24, R126: once Ready, no step changes the channel count, the channel set, the lifecycle state or the inbound mask
(R24). That no step writes the parameter CHAN_MASK is the model's choice (log 8, DESIGN CHOICE). -/
def Obligations.ChannelSetNeverChanges : Prop :=
  ∀ s t : State, step s = .next t → t.chanMask = s.chanMask ∧
    (s.life = .ready → t.life = .ready ∧ t.nchanR = s.nchanR ∧ t.chans = s.chans ∧ t.imrAllMasked = s.imrAllMasked)

/-- R23: the block never clears a doorbell bit, writes DBR in SEND only, and never a bit at or above NCHAN_R (D13 to D16). -/
def Obligations.BlockOnlySetsChannelBits : Prop :=
  ∀ (i : Instr) (s t : State), exec i s = .next t →
    (∀ b, s.dbr.getLsbD b = true → t.dbr.getLsbD b = true) ∧
    ((∀ h, i ≠ .send h) → t.dbr = s.dbr) ∧
    (∀ b, s.nchanR.getD 0 ≤ b → t.dbr.getLsbD b = s.dbr.getLsbD b)

/-- R19, R96: while a slot is in a transfer, no other caller's operation changes it. -/
def Obligations.HeldSlotIsExclusive : Prop :=
  ∀ (i : Instr) (h : Handle) (s t : State), exec i s = .next t → (s.slot h).phase ≠ .free →
    (s.slot h).owner ≠ some s.inputs.caller → t.slot h = s.slot h

/-- R95: in one step a slot's phase is as it was, or moved as a row of the table says, by the agent the row names: by a caller's
operation with the reply the row names, the caller being the slot's owner (for ENC.*, its new owner); by a RESPOND; or by a FAIL
(D24). -/
def Obligations.PhaseMovesOnlyByTheTable : Prop :=
  ∀ (s t : State) (h : Handle), step s = .next t → (t.slot h).phase ≠ (s.slot h).phase →
    (∃ io rest q i r, s.schedule = .caller io :: rest ∧ nextRequest? (s.callerOf io.caller).program = some q ∧
      decode q = .ok i ∧ i.handle? = some h ∧ t.port = some r ∧
      mayMove i.opcode r (s.slot h).phase (t.slot h).phase = true ∧
      ((∃ k, i.opcode = .enc k ∧ (t.slot h).owner = some io.caller) ∨
        ((∀ k, i.opcode ≠ .enc k) ∧ (s.slot h).owner = some io.caller))) ∨
    ((s.slot h).phase = .sent ∧ (t.slot h).phase = .done ∧
      ((∃ r, s.schedule.head? = some (.respond h r)) ∨ s.schedule.head? = some (.peerRespond h))) ∨
    ((s.slot h).phase = .sent ∧ (t.slot h).phase = .failed ∧ s.schedule.head? = some (.fail h))

/-- The invariant of the sequenced machine holds at reset. -/
def Obligations.InvariantHoldsAtReset : Prop := Inv State.reset

/-- Every step keeps the invariant: the tables' canonical form, each slot as its phase says (R17, R18), the transport as its
lifecycle state says (R20 to R22, R24). -/
def Obligations.EveryStepKeepsInvariant : Prop :=
  ∀ s t : State, Inv s → step s = .next t → Inv t

/-- F_UNWRITTEN cannot occur in the sequenced machine (95_test_vectors.md section 2.4, derived property): no step from a state
that meets the invariant faults so. -/
def Obligations.UnwrittenFaultCannotOccur : Prop :=
  ∀ s : State, Inv s → step s ≠ .fault .fUnwritten

/-- R103: in a run that never stops and is EXCHANGE_FAIR, every slot in SENT is DONE or FAILED later. Every run idles once its
finite schedule is used up (log 3, log 11), so the premise says that the answer stands in the schedule. -/
def Obligations.FairExchangeEndsEverySend : Prop :=
  ∀ (run : Nat → State), IsRun run → ExchangeFair run → ∀ (h : Handle) (n : Nat), ((run n).slot h).phase = .sent →
    ∃ m, n < m ∧ (((run m).slot h).phase = .done ∨ ((run m).slot h).phase = .failed)

/-! ## Whole transfers and the far end -/

/-- R66: a pseudo-operation whose SEND is not rejected and whose exchange gets the response `R` runs its four operations and
returns what the decoder makes of `R`, for every `R` (R100), and the slot is freed. On the schedule of its four operations and the
RESPOND with nothing between them it completes, and its doorbell bit is set. Where any steps of other agents stand between them (other
callers, DBCLEAR, exchanges of other slots) and the caller tries its WAIT any number of times before the RESPOND, the same is
returned by every run that meets no fault and no refusal. The schedule and the caller's program are the model's (log 3, log 12), and
so is that a held attempt is tried again (log 10). -/
def Obligations.PseudoOperationReturnsDecodedResponse : Prop :=
  ∀ (p : Pmic) (s : State) (io1 io2 io3 io4 : Inputs) (R : Words) (j : Nat) (lines : List (List Request))
    (after : List AgentStep),
    p.encodeOp.wellFormed = true → io2.caller = io1.caller → io3.caller = io1.caller → io4.caller = io1.caller →
    io2.reject = false → (s.slot p.handle).phase = .free → s.life = .ready → AtIndex s p.handle j →
    (s.callerOf io1.caller).program = p.line :: lines →
    (s.schedule = .caller io1 :: .caller io2 :: .respond p.handle R :: .caller io3 :: .caller io4 :: after →
      ∃ t r, Sys2Proof.core.run 5 s = .next t ∧ decodedReply R p.decodeOp = some r ∧
        t.callerOf io1.caller = ⟨lines, r :: .done :: .done :: .done :: (s.callerOf io1.caller).returned⟩ ∧
        t.slot p.handle = Slot.free ∧ (∀ b, b < 32 → t.dbr.getLsbD b = (s.dbr.getLsbD b || decide (b = j)))) ∧
    (∀ (e1 e2 e3 e4 : List AgentStep) (t : State),
      (∀ a ∈ e1 ++ e3 ++ e4, ¬a.ByCaller io1.caller) → (∀ a ∈ e2, ¬a.Answers p.handle) →
      s.schedule = .caller io1 :: e1 ++ .caller io2 :: e2 ++ .respond p.handle R :: e3 ++ .caller io3 :: e4 ++
        .caller io4 :: after →
      Sys2Proof.core.run (e1.length + e2.length + e3.length + e4.length + 5) s = .next t →
      ∃ r, decodedReply R p.decodeOp = some r ∧
        t.callerOf io1.caller = ⟨lines, r :: .done :: .done :: .done :: (s.callerOf io1.caller).returned⟩ ∧
        t.slot p.handle = Slot.free ∧ t.schedule = after)

/-- R66: a pseudo-operation stops at the first `err` of its line, its SEND's or its WAIT's (R109): no later operation of the line
runs, its caller gets that error, and the slot is FREE. SEND gives E_NOT_READY before INIT, E_INVAL for a foreign handle (D20),
E_DB_REJECTED on a rejection (D17); WAIT gives E_XFER after a FAIL (D30). The steps stand in the schedule with nothing between them
(log 3, log 12); dropping the line is log 17. -/
def Obligations.PseudoOperationStopsAtFirstError : Prop :=
  ∀ (p : Pmic) (s : State) (io1 io2 : Inputs) (lines : List (List Request)) (after : List AgentStep),
    p.encodeOp.wellFormed = true → io2.caller = io1.caller → (s.slot p.handle).phase = .free →
    (s.callerOf io1.caller).program = p.line :: lines →
    (∀ e : TransportError, s.schedule = .caller io1 :: .caller io2 :: after →
      (e = .notReady ∧ s.life = .uninitialized) ∨ (e = .inval ∧ s.life = .ready ∧ Foreign s p.handle) ∨
        (e = .dbRejected ∧ s.life = .ready ∧ (∃ j, AtIndex s p.handle j) ∧ io2.reject = true) →
      ∃ t, Sys2Proof.core.run 2 s = .next t ∧
        t.callerOf io1.caller = ⟨lines, .err e :: .done :: (s.callerOf io1.caller).returned⟩ ∧
        t.slot p.handle = Slot.free) ∧
    (∀ (io3 : Inputs) (j : Nat), io3.caller = io1.caller → s.life = .ready → AtIndex s p.handle j →
      io2.reject = false → s.schedule = .caller io1 :: .caller io2 :: .fail p.handle :: .caller io3 :: after →
      ∃ t, Sys2Proof.core.run 4 s = .next t ∧
        t.callerOf io1.caller = ⟨lines, .err .xfer :: .done :: .done :: (s.callerOf io1.caller).returned⟩ ∧
        t.slot p.handle = Slot.free)

/-- R105, R107: the reference peer, executing an UPDATE, sets the addressed register to `(register & ~mask) | (value & mask)` on 8
bits and leaves every other register. Which register is addressed, by `chid`, `type` and `reg`, and that the others are kept are the
reference peer's, the spec's own (D38); their numbering is the model's (log 16). -/
def Obligations.UpdateAppliesMaskAtRemote : Prop :=
  ∀ (P : List Host.Cell) (W : Words) (key : Nat),
    Sparse.lookup 0 (peerRegisters P .update W) key =
      if key = peerKey (getChid W.w0).toNat (getType W.w0).toNat (getReg W.w0).toNat then
        (Sparse.lookup 0 P key &&& ~~~(getMask W.w1)) ||| (getValue W.w1 &&& getMask W.w1)
      else Sparse.lookup 0 P key

/-- R106, R107: every answer of the reference peer is a correct echo with `rc = 0`, and its value field is the request's but for
a READ; so the answer to a WRITE, an UPDATE and a BULK_WRITE is the request with `rc = 0`, and to a BULK_READ its words 0 and 1 are.
The peer is the spec's own (D38). -/
def Obligations.ReferencePeerEchoesCorrectly : Prop :=
  ∀ (P : List Host.Cell) (W : Words) (k : OpKind), requestKind? W = some k →
    CorrectPeerEcho W (peerResponse P k W) ∧ getRc (peerResponse P k W).w1 = 0 ∧
    (k ≠ .read → getValue (peerResponse P k W).w1 = getValue W.w1) ∧
    (k = .write ∨ k = .update ∨ k = .bulkWrite → peerResponse P k W = ⟨W.w0, putRc W.w1 0, W.w2, W.w3⟩)

/-- R107: what the reference peer reads and writes: a READ returns the addressed register; a WRITE sets it; a BULK_READ returns
`n` contiguous registers, addresses mod 256, other lanes 0; a BULK_WRITE stores its bytes there; a READ or BULK_READ changes no
register. The peer is the spec's own (D38). -/
def Obligations.ReferencePeerReadsAndWrites : Prop :=
  ∀ (P : List Host.Cell) (W : Words) (c t r n : Nat), c = (getChid W.w0).toNat → t = (getType W.w0).toNat →
    r = (getReg W.w0).toNat → n = (getValue W.w1).toNat →
    getValue (peerResponse P .read W).w1 = peerRead P c t r ∧
    (∀ key, Sparse.lookup 0 (peerRegisters P .write W) key =
      if key = peerKey c t r then getValue W.w1 else Sparse.lookup 0 P key) ∧
    peerRegisters P .read W = P ∧ peerRegisters P .bulkRead W = P ∧
    (n ≤ 8 → ∀ j, j < 8 →
      getByte (peerResponse P .bulkRead W) j = if j < n then peerRead P c t ((r + j) % 256) else 0) ∧
    (n ≤ 8 → ∀ key, Sparse.lookup 0 (peerRegisters P .bulkWrite W) key =
      if (∃ j, j < n ∧ key = c * 4096 + t * 256 + (r + j) % 256)
      then getByte W ((key + 256 - (c * 4096 + t * 256 + r)) % 256) else Sparse.lookup 0 P key)

/-- The reference peer answers every exchange the sequenced machine can start (R61, R107). -/
def Obligations.ReferencePeerAnswersEverySend : Prop :=
  ∀ (s : State) (h : Handle) (rest : List AgentStep), Inv s → (s.slot h).phase = .sent →
    s.schedule = .peerRespond h :: rest →
    ∃ t W k, step s = .next t ∧ (s.slot h).sent = some W ∧ requestKind? W = some k ∧
      (t.slot h).phase = .done ∧ (t.slot h).cb = .ofWords (peerResponse s.peer k W) ∧
      t.peer = peerRegisters s.peer k W
end

