-- ==== Sys2Proof/Laws/Assembler.lean ====
section
/-! SUPPORT. The lexer and the operand reader undo the written form of an instruction: decimal numbers, handles, byte lists and
lines. -/

namespace Sys2Proof.Machine

/-! ## Numbers -/

theorem digitValue?_digitChar {d : Nat} (h : d < 10) : digitValue? 10 (Nat.digitChar d) = some d := by
  interval_cases d <;> decide

theorem digitsValue?_append (l : List Char) (a : Nat) (c : Char) :
    digitsValue? 10 a (l ++ [c]) =
      (digitsValue? 10 a l).bind fun v => (digitValue? 10 c).map fun d => v * 10 + d := by
  induction l generalizing a with
  | nil => simp only [List.nil_append, digitsValue?]; cases digitValue? 10 c <;> rfl
  | cons x l ih =>
    simp only [List.cons_append, digitsValue?]
    cases digitValue? 10 x with
    | none => rfl
    | some d => exact ih _

/-- Decimal digits read back as the number written. -/
theorem digitsValue?_decimal (n : Nat) : digitsValue? 10 0 (decimal n) = some n := by
  induction n using Nat.strong_induction_on with
  | _ n ih =>
    by_cases h : n < 10
    · rw [decimal, Nat.toDigits_of_lt_base h]
      simp [digitsValue?, digitValue?_digitChar h]
    · have hq := ih (n / 10) (by omega)
      rw [decimal] at hq ⊢
      rw [Nat.toDigits_of_base_le (by omega) (by omega), digitsValue?_append, hq,
        digitValue?_digitChar (Nat.mod_lt _ (by omega))]
      simp
      omega

theorem isDigit_digitChar {d : Nat} (h : d < 10) : (Nat.digitChar d).isDigit = true := by
  interval_cases d <;> decide

theorem isDigit_of_mem_decimal {n : Nat} {c : Char} (h : c ∈ decimal n) : c.isDigit = true := by
  induction n using Nat.strong_induction_on with
  | _ n ih =>
    by_cases hn : n < 10
    · rw [decimal, Nat.toDigits_of_lt_base hn] at h
      simp only [List.mem_singleton] at h
      exact h ▸ isDigit_digitChar hn
    · rw [decimal, Nat.toDigits_of_base_le (by omega) (by omega), List.mem_append] at h
      rcases h with h | h
      · exact ih (n / 10) (by omega) h
      · simp only [List.mem_singleton] at h
        exact h ▸ isDigit_digitChar (Nat.mod_lt _ (by omega))

theorem decimal_ne_nil (n : Nat) : decimal n ≠ [] := by
  by_cases h : n < 10
  · simp [decimal, Nat.toDigits_of_lt_base h]
  · simp [decimal, Nat.toDigits_of_base_le (by omega : 1 < 10) (by omega : 10 ≤ n)]

theorem number?_decimal (n : Nat) : number? (decimal n) = some n := by
  have hv := digitsValue?_decimal n
  have hd : ∀ c ∈ decimal n, c.isDigit = true := fun c h => isDigit_of_mem_decimal h
  have hn := decimal_ne_nil n
  revert hv hd hn
  generalize decimal n = l
  intro hv hd hn
  unfold number?
  split
  · exact absurd (hd 'x' (by simp)) (by decide)
  · exact absurd rfl hn
  · exact hv

/-- A number written in decimal is one token. -/
theorem wordToken_decimal (n : Nat) : wordToken (decimal n) = .ok (.num n) := by
  have hv := number?_decimal n
  have hd : ∀ c ∈ decimal n, c.isDigit = true := fun c h => isDigit_of_mem_decimal h
  have hn := decimal_ne_nil n
  revert hv hd hn
  generalize decimal n = l
  intro hv hd hn
  cases l with
  | nil => exact absurd rfl hn
  | cons c cs => simp [wordToken, hd c (by simp), hv]

/-- The written name of a handle reads back as the handle. -/
theorem handleNamed?_written (h : Handle) : handleNamed? ('h' :: decimal h.name) = some h := by
  have hv := digitsValue?_decimal h.name
  have hn := decimal_ne_nil h.name
  revert hv hn
  generalize decimal h.name = l
  intro hv hn
  cases l with
  | nil => exact absurd rfl hn
  | cons c cs => simp [handleNamed?, hv]

/-! ## Runs -/

/-- A character of a run: a letter, a digit, a dot or an underscore. -/
abbrev isRunChar (c : Char) : Prop := c.isAlphanum = true ∨ c = '.' ∨ c = '_'

theorem isRunChar_of_isDigit {c : Char} (h : c.isDigit = true) : isRunChar c := by
  simp [isRunChar, Char.isAlphanum, h]

theorem isRunChar_of_mem_decimal {n : Nat} {c : Char} (h : c ∈ decimal n) : isRunChar c :=
  isRunChar_of_isDigit (isDigit_of_mem_decimal h)

theorem lexFrom_runChar (run : List Char) {c : Char} (h : isRunChar c) (cs : List Char) :
    lexFrom run (c :: cs) = lexFrom (run ++ [c]) cs := by
  have hc : c ≠ '-' := by
    rintro rfl
    exact absurd h (by decide)
  rw [lexFrom.eq_def]
  split
  · next e => cases e
  · next e => cases e; exact absurd rfl hc
  · next e => cases e; exact if_pos h

/-- A run is collected character by character. -/
theorem lexFrom_run (w : List Char) : ∀ (run cs : List Char), (∀ c ∈ w, isRunChar c) →
    lexFrom run (w ++ cs) = lexFrom (run ++ w) cs := by
  induction w with
  | nil => intro run cs _; simp
  | cons c w ih =>
    intro run cs h
    rw [List.cons_append, lexFrom_runChar run (h c (by simp)), ih _ _ fun x hx => h x (by simp [hx])]
    simp

@[simp] theorem pushToken_ok (t : Token) (ts : List Token) : pushToken t (.ok ts) = .ok (t :: ts) := rfl

@[simp] theorem closeRun_nil (rest : Except AsmError (List Token)) : closeRun [] rest = rest := rfl

theorem closeRun_token {run : List Char} {t : Token} (hr : wordToken run = .ok t) (rest : Except AsmError (List Token)) :
    closeRun run rest = pushToken t rest := by
  unfold closeRun
  split
  · next h => rw [h] at hr; cases hr
  · rw [hr]
    cases rest <;> rfl

/-- A run ends where the line ends or a character outside runs stands, and its token comes first. -/
theorem lexFrom_close {run : List Char} {t : Token} (hr : wordToken run = .ok t) (cs : List Char)
    (hc : ∀ c, cs.head? = some c → ¬isRunChar c) : lexFrom run cs = pushToken t (lexFrom [] cs) := by
  cases cs with
  | nil => exact closeRun_token hr _
  | cons c cs =>
    have hn : ¬isRunChar c := hc c rfl
    rw [lexFrom.eq_def, lexFrom.eq_def []]
    split
    · next e => cases e
    · next e => cases e; exact closeRun_token hr _
    · next e =>
      cases e
      rw [if_neg hn, if_neg hn]
      simp only [closeRun_token hr, closeRun_nil]
      split
      · rfl
      · split
        · rfl
        · split
          · rfl
          · split
            · rfl
            · split
              · rfl
              · rfl

/-! ## Lines -/

/-- A token that is written as a run. -/
def isRun : Token → Bool
  | .word _ => true
  | .num _ => true
  | _ => false

/-- Tokens whose text reads back: every word is one, and no run stands directly after a run. -/
def Separated : List Token → Prop
  | [] => True
  | .word cs :: ts => wordToken cs = .ok (.word cs) ∧ (∀ c ∈ cs, isRunChar c) ∧
      (∀ t, ts.head? = some t → isRun t = false) ∧ Separated ts
  | .num _ :: ts => (∀ t, ts.head? = some t → isRun t = false) ∧ Separated ts
  | .comma :: ts => Separated ts
  | .openList :: ts => Separated ts
  | .closeList :: ts => Separated ts
  | .arrow :: ts => Separated ts

/-- Separated tokens may be followed by others, if no run comes to stand directly after a run. -/
theorem Separated.append {us : List Token} (hu : Separated us) (hh : ∀ t, us.head? = some t → isRun t = false) :
    ∀ {ts : List Token}, Separated ts → Separated (ts ++ us)
  | [], _ => hu
  | .word _ :: [], ⟨hw, hc, _, h⟩ => ⟨hw, hc, hh, Separated.append hu hh h⟩
  | .word _ :: _ :: _, ⟨hw, hc, hs, h⟩ => ⟨hw, hc, hs, Separated.append hu hh h⟩
  | .num _ :: [], ⟨_, h⟩ => ⟨hh, Separated.append hu hh h⟩
  | .num _ :: _ :: _, ⟨hs, h⟩ => ⟨hs, Separated.append hu hh h⟩
  | .comma :: ts, h => Separated.append hu hh (ts := ts) h
  | .openList :: ts, h => Separated.append hu hh (ts := ts) h
  | .closeList :: ts, h => Separated.append hu hh (ts := ts) h
  | .arrow :: ts, h => Separated.append hu hh (ts := ts) h

/-- A name of a result is one token. -/
theorem wordToken_of_isName {cs : List Char} (h : IsName cs) : wordToken cs = .ok (.word cs) := by
  obtain ⟨⟨c, hc, hd⟩, _⟩ := h
  cases cs with
  | nil => cases hc
  | cons d cs => cases hc; simp [wordToken, hd]

theorem separated_names {ns : List (List Char)} (h : ∀ x ∈ ns, IsName x) :
    Separated (ns.flatMap fun x => [Token.comma, .word x]) ∧
      ∀ t, (ns.flatMap fun x => [Token.comma, .word x]).head? = some t → isRun t = false := by
  induction ns with
  | nil => simp [Separated]
  | cons n ns ih =>
    obtain ⟨hs, hh⟩ := ih fun x hx => h x (by simp [hx])
    have hn := h n (by simp)
    exact ⟨⟨wordToken_of_isName hn, hn.2, hh, hs⟩, by simp [isRun]⟩

/-- The results of a line read back, and no run stands at their front. -/
theorem separated_of_resultsFit {n : Nat} {r : List Token} (h : ResultsFit n r) :
    Separated r ∧ ∀ t, r.head? = some t → isRun t = false := by
  obtain rfl | ⟨ns, _, h, rfl⟩ := h
  · simp [Separated]
  · cases ns with
    | nil => simp [Separated, resultsTokens]
    | cons n ns =>
      have hn := h n (by simp)
      obtain ⟨hs, hh⟩ := separated_names fun x (hx : x ∈ ns) => h x (List.mem_cons_of_mem n hx)
      exact ⟨⟨wordToken_of_isName hn, hn.2, hh, hs⟩, by simp [isRun, resultsTokens]⟩

theorem head?_tokenText {ts : List Token} (h : ∀ t, ts.head? = some t → isRun t = false) (c : Char)
    (hc : (ts.flatMap tokenText).head? = some c) : ¬isRunChar c := by
  cases ts with
  | nil => cases hc
  | cons t ts =>
    have ht := h t rfl
    cases t with
    | word cs => cases ht
    | num n => cases ht
    | comma => cases hc; decide
    | openList => cases hc; decide
    | closeList => cases hc; decide
    | arrow => cases hc; decide

theorem head?_append_comment {ts : List Token} (h : ∀ t, ts.head? = some t → isRun t = false) {rest : List Char}
    (hr : IsComment rest) (c : Char) (hc : (ts.flatMap tokenText ++ rest).head? = some c) : ¬isRunChar c := by
  rw [List.head?_append] at hc
  cases hx : (ts.flatMap tokenText).head? with
  | some x =>
    rw [hx] at hc
    cases hc
    exact head?_tokenText h c hx
  | none =>
    rw [hx] at hc
    rcases hr with rfl | ⟨text, rfl⟩
    · cases hc
    · cases hc
      decide

/-- The lexer undoes the written form of separated tokens, up to the end of the line or a comment. -/
theorem lexFrom_tokenText {rest : List Char} (hr : IsComment rest) :
    ∀ {ts : List Token}, Separated ts → lexFrom [] (ts.flatMap tokenText ++ rest) = .ok ts
  | [], _ => by rcases hr with rfl | ⟨text, rfl⟩ <;> rfl
  | .word cs :: ts, ⟨hw, hc, hs, h⟩ => by
    rw [List.flatMap_cons, tokenText, List.append_assoc, lexFrom_run cs [] _ hc, List.nil_append,
      lexFrom_close hw _ (head?_append_comment hs hr), lexFrom_tokenText hr h, pushToken_ok]
  | .num n :: ts, ⟨hs, h⟩ => by
    rw [List.flatMap_cons, tokenText, List.append_assoc,
      lexFrom_run _ [] _ fun c hc => isRunChar_of_mem_decimal hc, List.nil_append,
      lexFrom_close (wordToken_decimal n) _ (head?_append_comment hs hr), lexFrom_tokenText hr h, pushToken_ok]
  | .comma :: ts, h => congrArg (pushToken .comma) (lexFrom_tokenText hr (ts := ts) h)
  | .openList :: ts, h => congrArg (pushToken .openList) (lexFrom_tokenText hr (ts := ts) h)
  | .closeList :: ts, h => congrArg (pushToken .closeList) (lexFrom_tokenText hr (ts := ts) h)
  | .arrow :: ts, h => congrArg (pushToken .arrow) (lexFrom_tokenText hr (ts := ts) h)

/-- A line of text lexes to its mnemonic and its tokens. -/
theorem lexFrom_lineText {m : List Char} {ts : List Token} {rest : List Char} (hw : wordToken m = .ok (.word m))
    (hm : ∀ c ∈ m, isRunChar c) (hs : Separated ts) (hr : IsComment rest) :
    lexFrom [] (lineText m ts rest) = .ok (.word m :: ts) := by
  have h : lexFrom [] (' ' :: (ts.flatMap tokenText ++ rest)) = .ok ts := lexFrom_tokenText hr hs
  rw [lineText, lexFrom_run m [] _ hm, List.nil_append, lexFrom_close hw _ (by rintro c hc; cases hc; decide), h,
    pushToken_ok]

/-- A mnemonic is one token. -/
theorem wordToken_mnemonic (op : Opcode) :
    wordToken (nameOf mnemonics op) = .ok (.word (nameOf mnemonics op)) := by
  cases op with
  | enc k => cases k <;> rfl
  | dec k => cases k <;> rfl
  | init => rfl
  | resolve => rfl
  | send => rfl
  | wait => rfl

/-- A mnemonic is a run. -/
theorem isRunChar_mnemonic (op : Opcode) : ((nameOf mnemonics op).all fun c => decide (isRunChar c)) = true := by
  cases op with
  | enc k => cases k <;> rfl
  | dec k => cases k <;> rfl
  | init => rfl
  | resolve => rfl
  | send => rfl
  | wait => rfl

/-- A pseudo-operation's mnemonic is one token. -/
theorem wordToken_pseudoMnemonic (k : OpKind) :
    wordToken (nameOf pseudoMnemonics k) = .ok (.word (nameOf pseudoMnemonics k)) := by
  cases k <;> rfl

/-- A pseudo-operation's mnemonic is a run. -/
theorem isRunChar_pseudoMnemonic (k : OpKind) :
    ((nameOf pseudoMnemonics k).all fun c => decide (isRunChar c)) = true := by
  cases k <;> rfl

/-- The entries of a written byte list read back. -/
theorem listEntries_written (bs : List Byte) (ts : List Token) :
    listEntries (bs.flatMap (fun x => [Token.comma, .num x.toNat]) ++ .closeList :: ts) =
      .ok (bs.map BitVec.toNat, ts) := by
  induction bs with
  | nil => rfl
  | cons b bs ih => simp [listEntries, ih, Except.map]

/-- A written byte list reads back. -/
theorem operandAt_byteList (bs : List Byte) (ts : List Token) :
    operandAt (byteListTokens bs ++ ts) = .ok (.bytes (bs.map BitVec.toNat), ts) := by
  cases bs with
  | nil => rfl
  | cons b bs => simp [byteListTokens, operandAt, listEntries_written, Except.map]

theorem resultNames_written : ∀ (ns : List (List Char)) (n : List Char),
    resultNames (.word n :: ns.flatMap fun x => [Token.comma, .word x]) = .ok (ns.length + 1)
  | [], _ => rfl
  | m :: ns, n => by
    simp only [List.flatMap_cons, List.cons_append, List.nil_append, resultNames, resultNames_written ns m, Except.map,
      List.length_cons]

/-- Results of the right number, or none, are accepted. -/
theorem checkResults_of_resultsFit {op : Opcode} {r : List Token} (h : ResultsFit (resultCount op) r) :
    checkResults op r = .ok () := by
  obtain rfl | ⟨ns, hl, _, rfl⟩ := h
  · rfl
  · cases ns with
    | nil => rfl
    | cons n ns => simp [resultsTokens, checkResults, resultNames_written, ← hl]

/-- After the operands a line ends or has its arrow. -/
theorem nil_or_arrow_of_resultsFit {n : Nat} {r : List Token} (h : ResultsFit n r) : r = [] ∨ ∃ ts, r = .arrow :: ts := by
  obtain rfl | ⟨ns, _, _, rfl⟩ := h
  · exact .inl rfl
  · cases ns with
    | nil => exact .inl rfl
    | cons n ns => exact .inr ⟨_, rfl⟩

/-- A mnemonic names its operation. -/
theorem named?_mnemonic (op : Opcode) : named? mnemonics (nameOf mnemonics op) = some op := by
  cases op with
  | enc k => cases k <;> rfl
  | dec k => cases k <;> rfl
  | init => rfl
  | resolve => rfl
  | send => rfl
  | wait => rfl

/-- A pseudo-operation's mnemonic names its kind, and is no operation's. -/
theorem named?_pseudoMnemonic (k : OpKind) : named? pseudoMnemonics (nameOf pseudoMnemonics k) = some k ∧
    named? mnemonics (nameOf pseudoMnemonics k) = none := by
  cases k <;> exact ⟨rfl, rfl⟩

end Sys2Proof.Machine
end

