-- ==== Sys2Proof/Laws/Decode.lean ====
section
/-! SUPPORT. Small lemmas about the ports' width checks and the operation-select table. -/

namespace Sys2Proof

/-- The number a port's value stands for fits the port and reads back. -/
@[simp] theorem fit_toNat {w : Nat} (p : Port) (x : BitVec w) : fit w p x.toNat = .ok x := by
  simp [fit, x.isLt]

theorem fit_ok {w : Nat} {p : Port} {v : Nat} (h : v < 2 ^ w) : fit w p v = .ok (BitVec.ofNat w v) := by
  simp [fit, h]

theorem fit_error {w : Nat} {p : Port} {v : Nat} (h : 2 ^ w ≤ v) : fit w p v = .error (.tooWide p) := by
  simp [fit, Nat.not_lt.2 h]

theorem fitCount_ok {n : Nat} (h : n ≤ Config.bulkMax) : fitCount n = .ok n := by simp [fitCount, h]

theorem fitCount_error {n : Nat} (h : Config.bulkMax < n) : fitCount n = .error .countOver8 := by
  simp [fitCount, Nat.not_le.2 h]

@[simp] theorem fitBytes_toNat (bs : List Byte) : fitBytes (bs.map BitVec.toNat) = .ok bs := by
  induction bs with
  | nil => rfl
  | cons b bs ih => simp [fitBytes, ih]

/-- A byte list read has as many entries as were presented. -/
theorem fitBytes_length : ∀ {vs : List Nat} {bs : List Byte}, fitBytes vs = .ok bs → bs.length = vs.length
  | [], bs, h => by cases h; rfl
  | v :: vs, bs, h => by
    unfold fitBytes at h
    split at h
    · next b bs' _ hb => cases h; simp [fitBytes_length hb]
    · cases h
    · cases h

/-- The OPSEL value the table gives an operation reads back as the operation (R62). -/
theorem opcodeOf?_opsel (op : Opcode) : opcodeOf? (BitVec.ofNat 5 op.opsel) = some op := by
  cases op with
  | enc k => cases k <;> rfl
  | dec k => cases k <;> rfl
  | init => rfl
  | resolve => rfl
  | send => rfl
  | wait => rfl

theorem opsel_lt (op : Opcode) : op.opsel < 32 := by
  cases op with
  | enc k => cases k <;> decide
  | dec k => cases k <;> decide
  | init => decide
  | resolve => decide
  | send => decide
  | wait => decide

/-- The decoder of a request whose OPSEL names an operation reads the operands of that operation. -/
theorem decode_of_opsel {r : Request} {op : Opcode} (h : r.opsel = op.opsel) : decode r = decodeOperands r op := by
  unfold decode
  rw [h, fit_ok (opsel_lt op)]
  simp only [bind, Except.bind, opcodeOf?_opsel]

/-! ## What an accepted request says -/

theorem toNat_of_fit {w : Nat} {p : Port} {v : Nat} {x : BitVec w} (h : fit w p v = .ok x) : x.toNat = v := by
  unfold fit at h
  split at h
  · next hv => cases h; simpa using Nat.mod_eq_of_lt hv
  · cases h

theorem fitHeader_ok {r : Request} {ty : BitVec 4} {reg : Byte} {chid : BitVec 4}
    (h : fitHeader r = .ok (ty, reg, chid)) : ty.toNat = r.ty ∧ reg.toNat = r.reg ∧ chid.toNat = r.chid := by
  simp only [fitHeader, bind, Except.bind, pure, Except.pure] at h
  split at h
  · cases h
  · next h1 =>
    split at h
    · cases h
    · next h2 =>
      split at h
      · cases h
      · next h3 => cases h; exact ⟨toNat_of_fit h1, toNat_of_fit h2, toNat_of_fit h3⟩

theorem eq_of_fitCount {n m : Nat} (h : fitCount n = .ok m) : m = n ∧ n ≤ Config.bulkMax := by
  unfold fitCount at h
  split at h
  · next hn => cases h; exact ⟨rfl, hn⟩
  · cases h

theorem map_toNat_of_fitBytes : ∀ {vs : List Nat} {bs : List Byte}, fitBytes vs = .ok bs → bs.map BitVec.toNat = vs
  | [], bs, h => by cases h; rfl
  | v :: vs, bs, h => by
    unfold fitBytes at h
    split at h
    · next b bs' h1 h2 => cases h; simp [toNat_of_fit h1, map_toNat_of_fitBytes h2]
    · cases h
    · cases h

/-- The operation-select table read backwards (R62). -/
theorem toNat_of_opcodeOf? {v : BitVec 5} {op : Opcode} (h : opcodeOf? v = some op) : v.toNat = op.opsel := by
  have table : ∀ v : BitVec 5, ((opcodeOf? v).all fun op => v.toNat == op.opsel) = true := by decide
  have hv := table v
  rw [h] at hv
  simpa using hv

/-- An accepted request names an operation of the table, whose operands it carries. -/
theorem decode_ok {r : Request} {i : Instr} (h : decode r = .ok i) :
    ∃ op : Opcode, r.opsel = op.opsel ∧ decodeOperands r op = .ok i := by
  unfold decode at h
  by_cases hb : r.opsel < 2 ^ 5
  · rw [fit_ok hb] at h
    simp only [bind, Except.bind] at h
    split at h
    · next op ho =>
      refine ⟨op, ?_, h⟩
      rw [← toNat_of_opcodeOf? ho, BitVec.toNat_ofNat, Nat.mod_eq_of_lt hb]
    · cases h
  · rw [fit_error (by omega)] at h
    cases h

end Sys2Proof
end

