-- ==== Sys2Proof/Laws/Fields.lean ====
section
/-! SUPPORT. The bits of a field read and of a field put, from which every accessor's laws follow. -/

namespace Sys2Proof.Machine

/-- Bit `i` of a field. -/
theorem getLsbD_getField (lo n : Nat) (w : Word) (i : Nat) :
    (getField lo n w).getLsbD i = (decide (i < n) && w.getLsbD (lo + i)) := by
  simp [getField]

/-- The number a field holds. -/
theorem toNat_getField (lo n : Nat) (w : Word) : (getField lo n w).toNat = w.toNat / 2 ^ lo % 2 ^ n := by
  simp [getField, BitVec.extractLsb'_toNat, Nat.shiftRight_eq_div_pow]

/-- Bit `i` of a word after a field put: the field's bits are the operand's, every other bit is as it was. -/
theorem getLsbD_putField (lo n : Nat) (w : Word) (x : BitVec n) (i : Nat) (hi : i < 32) :
    (putField lo n w x).getLsbD i = if lo ≤ i ∧ i < lo + n then x.getLsbD (i - lo) else w.getLsbD i := by
  by_cases h1 : lo ≤ i
  · by_cases h2 : i < lo + n
    · have h3 : i - lo < n := by omega
      have h5 : ¬ i < lo := by omega
      simp [putField, hi, h1, h2, h3, h5]
    · have h3 : ¬ i - lo < n := by omega
      simp [putField, hi, h1, h2, h3, BitVec.getLsbD_of_ge x (i - lo) (by omega)]
  · have h3 : i < lo := by omega
    simp [putField, hi, h1, h3]

/-- Reading a field just put gives the operand. -/
theorem getField_putField_self (lo n : Nat) (w : Word) (x : BitVec n) (h : lo + n ≤ 32) :
    getField lo n (putField lo n w x) = x := by
  apply BitVec.eq_of_getLsbD_eq
  intro i hi
  rw [getLsbD_getField, getLsbD_putField _ _ _ _ _ (by omega)]
  simp [hi]

/-- Putting one field leaves a field that shares no bit with it as it was. -/
theorem getField_putField_ne (lo n lo' n' : Nat) (w : Word) (x : BitVec n) (h : lo' + n' ≤ lo ∨ lo + n ≤ lo')
    (h' : lo' + n' ≤ 32) : getField lo' n' (putField lo n w x) = getField lo' n' w := by
  apply BitVec.eq_of_getLsbD_eq
  intro i hi
  rw [getLsbD_getField, getLsbD_getField, getLsbD_putField _ _ _ _ _ (by omega), if_neg (by omega)]

/-- Bits of the request word 0 (R54). -/
theorem getLsbD_packW0 (ty : BitVec 4) (reg : Byte) (chid : BitVec 4) (i : Nat) :
    (packW0 ty reg chid).getLsbD i =
      if i < 8 then reg.getLsbD i else if i < 12 then ty.getLsbD (i - 8) else chid.getLsbD (i - 12) := by
  by_cases h1 : i < 8
  · have h2 : i < 12 := by omega
    have h3 : i < 32 := by omega
    simp [packW0, h1, h2, h3]
  · by_cases h2 : i < 12
    · have h3 : i < 32 := by omega
      simp [packW0, h1, h2, h3, BitVec.getLsbD_of_ge reg i (by omega)]
    · by_cases h3 : i < 32
      · simp [packW0, h1, h2, h3, BitVec.getLsbD_of_ge reg i (by omega), BitVec.getLsbD_of_ge ty (i - 8) (by omega)]
      · simp [packW0, h1, h2, h3, BitVec.getLsbD_of_ge chid (i - 12) (by omega)]

/-- Bits of the request word 1 (R55). -/
theorem getLsbD_packW1 (func value mask : Byte) (i : Nat) :
    (packW1 func value mask).getLsbD i =
      if i < 8 then func.getLsbD i else if i < 16 then value.getLsbD (i - 8) else mask.getLsbD (i - 16) := by
  by_cases h1 : i < 8
  · have h2 : i < 16 := by omega
    have h3 : i < 32 := by omega
    simp [packW1, h1, h2, h3]
  · by_cases h2 : i < 16
    · have h3 : i < 32 := by omega
      simp [packW1, h1, h2, h3, BitVec.getLsbD_of_ge func i (by omega)]
    · by_cases h3 : i < 32
      · simp [packW1, h1, h2, h3, BitVec.getLsbD_of_ge func i (by omega),
          BitVec.getLsbD_of_ge value (i - 8) (by omega)]
      · simp [packW1, h1, h2, h3, BitVec.getLsbD_of_ge mask (i - 16) (by omega)]

/-- A word read back where it was set. -/
theorem word_setWord_self (W : Words) (j : Nat) (v : Word) (hj : j < 4) : (W.setWord j v).word j = v := by
  rcases j with _ | _ | _ | _ | j
  · rfl
  · rfl
  · rfl
  · rfl
  · omega

/-- Setting one word leaves the other three. -/
theorem word_setWord_ne (W : Words) (v : Word) {j k : Nat} (hj : j < 4) (hk : k < 4) (h : k ≠ j) :
    (W.setWord j v).word k = W.word k := by
  rcases j with _ | _ | _ | _ | j <;> rcases k with _ | _ | _ | _ | k <;> first | rfl | omega

/-- A bulk byte read back where it was put (R53). -/
theorem getByte_putByte_self (W : Words) (i : Nat) (b : Byte) (hi : i < 8) : getByte (putByte W i b) i = b := by
  rw [getByte, putByte, word_setWord_self _ _ _ (by omega), getField_putField_self _ _ _ _ (by omega)]

/-- Putting one bulk byte leaves the other seven (R53, R56). -/
theorem getByte_putByte_ne (W : Words) (b : Byte) {i j : Nat} (hi : i < 8) (hj : j < 8) (h : j ≠ i) :
    getByte (putByte W i b) j = getByte W j := by
  rw [getByte, putByte, getByte]
  by_cases hw : j / 4 = i / 4
  · rw [hw, word_setWord_self _ _ _ (by omega), getField_putField_ne _ _ _ _ _ _ (by omega) (by omega)]
  · rw [word_setWord_ne _ _ (by omega) (by omega) (by omega)]

/-- What every bulk lane holds after a list of bytes has been put from lane `i` on. -/
theorem getByte_putBytes (bs : List Byte) : ∀ (W : Words) (i j : Nat), i + bs.length ≤ 8 → j < 8 →
    getByte (putBytes W i bs) j = if h : i ≤ j ∧ j < i + bs.length then bs[j - i] else getByte W j := by
  induction bs with
  | nil => intro W i j _ _; simp [putBytes]
  | cons b bs ih =>
    intro W i j hlen hj
    simp only [List.length_cons] at hlen
    rw [putBytes, ih _ _ _ (by omega) hj]
    by_cases h1 : i + 1 ≤ j ∧ j < i + 1 + bs.length
    · have h2 : i ≤ j ∧ j < i + (b :: bs).length := by simp; omega
      have h3 : j - i = j - (i + 1) + 1 := by omega
      simp only [h1, h2, and_self, dite_true, h3, List.getElem_cons_succ]
    · rw [dif_neg h1]
      by_cases h2 : j = i
      · subst h2
        rw [getByte_putByte_self _ _ _ (by omega), dif_pos (by simp)]
        simp
      · rw [getByte_putByte_ne _ _ (by omega) hj h2, dif_neg (by simp; omega)]

/-- Putting a byte changes neither word 0 nor word 1. -/
theorem putByte_w01 (W : Words) (i : Nat) (b : Byte) : (putByte W i b).w0 = W.w0 ∧ (putByte W i b).w1 = W.w1 := by
  have h : 2 + i / 4 = (i / 4) + 2 := by omega
  rw [putByte, h]
  rcases i / 4 with _ | n <;> exact ⟨rfl, rfl⟩

/-- Putting bytes changes neither word 0 nor word 1. -/
theorem putBytes_w01 (bs : List Byte) : ∀ (W : Words) (i : Nat),
    (putBytes W i bs).w0 = W.w0 ∧ (putBytes W i bs).w1 = W.w1 := by
  induction bs with
  | nil => intro W i; exact ⟨rfl, rfl⟩
  | cons b bs ih =>
    intro W i
    rw [putBytes, (ih _ _).1, (ih _ _).2]
    exact putByte_w01 W i b

/-- The choice INIT makes has the length asked for (R89). -/
theorem length_chooseHandles (n : Nat) : ∀ want used, (chooseHandles n want used).length = n := by
  induction n with
  | zero => intro _ _; rfl
  | succ n ih => intro want used; simp [chooseHandles, ih]

theorem name_le_of_mem {used : List Handle} {h : Handle} (hm : h ∈ used) :
    h.name ≤ used.foldr (fun h n => max h.name n) 0 := by
  induction used with
  | nil => simp at hm
  | cons a t ih =>
    rcases List.mem_cons.1 hm with rfl | hm
    · simp
    · have := ih hm
      simp
      omega

/-- A fresh handle is new. -/
theorem freshHandle_notMem (used : List Handle) : freshHandle used ∉ used := by
  intro hm
  have := name_le_of_mem hm
  simp [freshHandle] at this

/-- The choice INIT makes repeats no handle and none of those already used (R89). -/
theorem chooseHandles_nodup (n : Nat) : ∀ want used,
    (chooseHandles n want used).Nodup ∧ ∀ h ∈ chooseHandles n want used, h ∉ used := by
  induction n with
  | zero => intro _ _; simp [chooseHandles]
  | succ n ih =>
    intro want used
    simp only [chooseHandles]
    generalize hp : (if want.headD (freshHandle used) ∈ used then freshHandle used
      else want.headD (freshHandle used)) = p
    have hpn : p ∉ used := by
      rw [← hp]
      split
      · exact freshHandle_notMem used
      · assumption
    obtain ⟨h1, h2⟩ := ih want.tail (p :: used)
    refine ⟨List.nodup_cons.2 ⟨fun hm => h2 p hm (by simp), h1⟩, fun h hm => ?_⟩
    rcases List.mem_cons.1 hm with rfl | hm
    · exact hpn
    · exact fun hu => h2 h hm (by simp [hu])

/-- Every list of distinct handles is INIT's choice for some draw: for itself (R89). -/
theorem chooseHandles_self : ∀ (l used : List Handle), l.Nodup → (∀ h ∈ l, h ∉ used) →
    chooseHandles l.length l used = l := by
  intro l
  induction l with
  | nil => intro _ _ _; rfl
  | cons a t ih =>
    intro used hnd hdis
    have ha : a ∉ used := hdis a (by simp)
    rw [List.nodup_cons] at hnd
    simp only [List.length_cons, chooseHandles, List.headD_cons, ha, if_false, List.tail_cons]
    rw [ih (a :: used) hnd.2 fun h hm hu => ?_]
    rcases List.mem_cons.1 hu with rfl | hu
    · exact hnd.1 hm
    · exact hdis h (by simp [hm]) hu

end Sys2Proof.Machine
end

