-- ==== Sys2Proof/Laws/Sparse.lean ====
section
/-! SUPPORT. The laws of sparse tables: a read after a write, every other key left alone, and the canonical form kept. -/

namespace Sys2Proof.Machine.Sparse

variable {α : Type} [DecidableEq α]

omit [DecidableEq α] in
theorem lookup_erase_self (d : α) (t : List (Nat × α)) (k : Nat) : lookup d (erase t k) k = d := by
  induction t with
  | nil => rfl
  | cons e t ih =>
    obtain ⟨k', v⟩ := e
    by_cases h : k' = k
    · simpa [erase, h] using ih
    · simpa [erase, h, lookup] using ih

omit [DecidableEq α] in
theorem lookup_erase_ne (d : α) (t : List (Nat × α)) {k j : Nat} (hj : j ≠ k) :
    lookup d (erase t k) j = lookup d t j := by
  induction t with
  | nil => rfl
  | cons e t ih =>
    obtain ⟨k', v⟩ := e
    by_cases h : k' = k
    · have hk : k' ≠ j := fun e => hj (e ▸ h)
      simpa [erase, h, lookup, h ▸ hk] using ih
    · by_cases h2 : k' = j
      · simp [erase, lookup, h2, hj]
      · simpa [erase, h, lookup, h2] using ih

omit [DecidableEq α] in
theorem lookup_place_self (d : α) (t : List (Nat × α)) (k : Nat) (v : α) (h : ∀ e ∈ t, e.1 ≠ k) :
    lookup d (place k v t) k = v := by
  induction t with
  | nil => simp [place, lookup]
  | cons e t ih =>
    obtain ⟨k', v'⟩ := e
    have hk : k' ≠ k := h (k', v') (by simp)
    by_cases hlt : k < k'
    · simp [place, hlt, lookup]
    · simp only [place, hlt, if_false, lookup, hk]
      exact ih fun e he => h e (by simp [he])

omit [DecidableEq α] in
theorem lookup_place_ne (d : α) (t : List (Nat × α)) (v : α) {k j : Nat} (hj : j ≠ k) :
    lookup d (place k v t) j = lookup d t j := by
  induction t with
  | nil => simp [place, lookup, hj.symm]
  | cons e t ih =>
    obtain ⟨k', v'⟩ := e
    by_cases hlt : k < k'
    · simp [place, hlt, lookup, hj.symm]
    · simp [place, hlt, lookup, ih]

omit [DecidableEq α] in
theorem ne_of_mem_erase {t : List (Nat × α)} {k : Nat} {e : Nat × α} (h : e ∈ erase t k) : e.1 ≠ k := by
  simpa using (List.mem_filter.1 h).2

/-- A read after a write to the same key gives the value written. -/
@[simp] theorem lookup_set_self (d : α) (t : List (Nat × α)) (k : Nat) (v : α) : lookup d (set d t k v) k = v := by
  unfold set
  split
  · next h => rw [h, lookup_erase_self]
  · exact lookup_place_self d _ k v fun e he => ne_of_mem_erase he

/-- A write leaves every other key alone. -/
@[simp] theorem lookup_set_ne (d : α) (t : List (Nat × α)) (v : α) {k j : Nat} (hj : j ≠ k) :
    lookup d (set d t k v) j = lookup d t j := by
  unfold set
  split
  · exact lookup_erase_ne d t hj
  · rw [lookup_place_ne d _ v hj, lookup_erase_ne d t hj]

omit [DecidableEq α] in
theorem wf_nil (d : α) : Wf d ([] : List (Nat × α)) := ⟨List.Pairwise.nil, by simp⟩

omit [DecidableEq α] in
theorem wf_erase {d : α} {t : List (Nat × α)} (h : Wf d t) (k : Nat) : Wf d (erase t k) :=
  ⟨h.1.filter _, fun e he => h.2 e (List.mem_filter.1 he).1⟩

omit [DecidableEq α] in
theorem mem_place {k : Nat} {v : α} {t : List (Nat × α)} {e : Nat × α} :
    e ∈ place k v t ↔ e = (k, v) ∨ e ∈ t := by
  induction t with
  | nil => simp [place]
  | cons a t ih =>
    obtain ⟨k', v'⟩ := a
    by_cases hlt : k < k'
    · simp [place, hlt]
    · simp only [place, hlt, if_false, List.mem_cons, ih]
      tauto

omit [DecidableEq α] in
theorem wf_place {d : α} {t : List (Nat × α)} (h : Wf d t) {k : Nat} {v : α} (hk : ∀ e ∈ t, e.1 ≠ k) (hv : v ≠ d) :
    Wf d (place k v t) := by
  refine ⟨?_, fun e he => (mem_place.1 he).elim (fun h => h ▸ hv) (h.2 e)⟩
  have hp := h.1
  clear h
  induction t with
  | nil => simp [place]
  | cons a t ih =>
    obtain ⟨k', v'⟩ := a
    have hne : k' ≠ k := hk (k', v') (by simp)
    rw [List.pairwise_cons] at hp
    by_cases hlt : k < k'
    · simp only [place, hlt, if_true, List.pairwise_cons]
      refine ⟨fun b hb => ?_, hp.1, hp.2⟩
      rcases List.mem_cons.1 hb with rfl | hb
      · exact hlt
      · exact Nat.lt_trans hlt (hp.1 b hb)
    · simp only [place, hlt, if_false, List.pairwise_cons]
      refine ⟨fun b hb => ?_, ih (fun e he => hk e (by simp [he])) hp.2⟩
      rcases mem_place.1 hb with rfl | hb
      · exact Nat.lt_of_le_of_ne (Nat.le_of_not_lt hlt) hne
      · exact hp.1 b hb

/-- Every write keeps the canonical form. -/
theorem wf_set {d : α} {t : List (Nat × α)} (h : Wf d t) (k : Nat) (v : α) : Wf d (set d t k v) := by
  unfold set
  split
  · exact wf_erase h k
  · next hv => exact wf_place (wf_erase h k) (fun e he => ne_of_mem_erase he) hv

end Sys2Proof.Machine.Sparse
end

