-- ==== Sys2Proof/Laws/State.lean ====
section
/-! SUPPORT. What each field of the state is after each update of the state. -/

namespace Sys2Proof.Machine

@[simp] theorem State.setSlot_slots (s : State) (h : Handle) (sl : Slot) : (s.setSlot h sl).slots = Sparse.set Slot.free s.slots h.name sl := rfl
@[simp] theorem State.setSlot_life (s : State) (h : Handle) (sl : Slot) : (s.setSlot h sl).life = s.life := rfl
@[simp] theorem State.setSlot_nchanR (s : State) (h : Handle) (sl : Slot) : (s.setSlot h sl).nchanR = s.nchanR := rfl
@[simp] theorem State.setSlot_chans (s : State) (h : Handle) (sl : Slot) : (s.setSlot h sl).chans = s.chans := rfl
@[simp] theorem State.setSlot_dbr (s : State) (h : Handle) (sl : Slot) : (s.setSlot h sl).dbr = s.dbr := rfl
@[simp] theorem State.setSlot_imrAllMasked (s : State) (h : Handle) (sl : Slot) : (s.setSlot h sl).imrAllMasked = s.imrAllMasked := rfl
@[simp] theorem State.setSlot_chanMask (s : State) (h : Handle) (sl : Slot) : (s.setSlot h sl).chanMask = s.chanMask := rfl
@[simp] theorem State.setSlot_inputs (s : State) (h : Handle) (sl : Slot) : (s.setSlot h sl).inputs = s.inputs := rfl
@[simp] theorem State.setSlot_port (s : State) (h : Handle) (sl : Slot) : (s.setSlot h sl).port = s.port := rfl
@[simp] theorem State.setSlot_callers (s : State) (h : Handle) (sl : Slot) : (s.setSlot h sl).callers = s.callers := rfl
@[simp] theorem State.setSlot_schedule (s : State) (h : Handle) (sl : Slot) : (s.setSlot h sl).schedule = s.schedule := rfl
@[simp] theorem State.setSlot_peer (s : State) (h : Handle) (sl : Slot) : (s.setSlot h sl).peer = s.peer := rfl

@[simp] theorem State.freeSlot_slots (s : State) (h : Handle) : (s.freeSlot h).slots = Sparse.set Slot.free s.slots h.name Slot.free := rfl
@[simp] theorem State.freeSlot_life (s : State) (h : Handle) : (s.freeSlot h).life = s.life := rfl
@[simp] theorem State.freeSlot_nchanR (s : State) (h : Handle) : (s.freeSlot h).nchanR = s.nchanR := rfl
@[simp] theorem State.freeSlot_chans (s : State) (h : Handle) : (s.freeSlot h).chans = s.chans := rfl
@[simp] theorem State.freeSlot_dbr (s : State) (h : Handle) : (s.freeSlot h).dbr = s.dbr := rfl
@[simp] theorem State.freeSlot_imrAllMasked (s : State) (h : Handle) : (s.freeSlot h).imrAllMasked = s.imrAllMasked := rfl
@[simp] theorem State.freeSlot_chanMask (s : State) (h : Handle) : (s.freeSlot h).chanMask = s.chanMask := rfl
@[simp] theorem State.freeSlot_inputs (s : State) (h : Handle) : (s.freeSlot h).inputs = s.inputs := rfl
@[simp] theorem State.freeSlot_port (s : State) (h : Handle) : (s.freeSlot h).port = s.port := rfl
@[simp] theorem State.freeSlot_callers (s : State) (h : Handle) : (s.freeSlot h).callers = s.callers := rfl
@[simp] theorem State.freeSlot_schedule (s : State) (h : Handle) : (s.freeSlot h).schedule = s.schedule := rfl
@[simp] theorem State.freeSlot_peer (s : State) (h : Handle) : (s.freeSlot h).peer = s.peer := rfl

@[simp] theorem State.reply_slots (s : State) (r : Reply) : (s.reply r).slots = s.slots := rfl
@[simp] theorem State.reply_life (s : State) (r : Reply) : (s.reply r).life = s.life := rfl
@[simp] theorem State.reply_nchanR (s : State) (r : Reply) : (s.reply r).nchanR = s.nchanR := rfl
@[simp] theorem State.reply_chans (s : State) (r : Reply) : (s.reply r).chans = s.chans := rfl
@[simp] theorem State.reply_dbr (s : State) (r : Reply) : (s.reply r).dbr = s.dbr := rfl
@[simp] theorem State.reply_imrAllMasked (s : State) (r : Reply) : (s.reply r).imrAllMasked = s.imrAllMasked := rfl
@[simp] theorem State.reply_chanMask (s : State) (r : Reply) : (s.reply r).chanMask = s.chanMask := rfl
@[simp] theorem State.reply_inputs (s : State) (r : Reply) : (s.reply r).inputs = s.inputs := rfl
@[simp] theorem State.reply_port (s : State) (r : Reply) : (s.reply r).port = some r := rfl
@[simp] theorem State.reply_callers (s : State) (r : Reply) : (s.reply r).callers = s.callers := rfl
@[simp] theorem State.reply_schedule (s : State) (r : Reply) : (s.reply r).schedule = s.schedule := rfl
@[simp] theorem State.reply_peer (s : State) (r : Reply) : (s.reply r).peer = s.peer := rfl

@[simp] theorem State.raise_slots (s : State) (e : TransportError) : (s.raise e).slots = s.slots := rfl
@[simp] theorem State.raise_life (s : State) (e : TransportError) : (s.raise e).life = s.life := rfl
@[simp] theorem State.raise_nchanR (s : State) (e : TransportError) : (s.raise e).nchanR = s.nchanR := rfl
@[simp] theorem State.raise_chans (s : State) (e : TransportError) : (s.raise e).chans = s.chans := rfl
@[simp] theorem State.raise_dbr (s : State) (e : TransportError) : (s.raise e).dbr = s.dbr := rfl
@[simp] theorem State.raise_imrAllMasked (s : State) (e : TransportError) : (s.raise e).imrAllMasked = s.imrAllMasked := rfl
@[simp] theorem State.raise_chanMask (s : State) (e : TransportError) : (s.raise e).chanMask = s.chanMask := rfl
@[simp] theorem State.raise_inputs (s : State) (e : TransportError) : (s.raise e).inputs = s.inputs := rfl
@[simp] theorem State.raise_port (s : State) (e : TransportError) : (s.raise e).port = some (.err e) := rfl
@[simp] theorem State.raise_callers (s : State) (e : TransportError) : (s.raise e).callers = s.callers := rfl
@[simp] theorem State.raise_schedule (s : State) (e : TransportError) : (s.raise e).schedule = s.schedule := rfl
@[simp] theorem State.raise_peer (s : State) (e : TransportError) : (s.raise e).peer = s.peer := rfl

@[simp] theorem State.endTransfer_slots (s : State) (h : Handle) (e : TransportError) : (s.endTransfer h e).slots = Sparse.set Slot.free s.slots h.name Slot.free := rfl
@[simp] theorem State.endTransfer_life (s : State) (h : Handle) (e : TransportError) : (s.endTransfer h e).life = s.life := rfl
@[simp] theorem State.endTransfer_nchanR (s : State) (h : Handle) (e : TransportError) : (s.endTransfer h e).nchanR = s.nchanR := rfl
@[simp] theorem State.endTransfer_chans (s : State) (h : Handle) (e : TransportError) : (s.endTransfer h e).chans = s.chans := rfl
@[simp] theorem State.endTransfer_dbr (s : State) (h : Handle) (e : TransportError) : (s.endTransfer h e).dbr = s.dbr := rfl
@[simp] theorem State.endTransfer_imrAllMasked (s : State) (h : Handle) (e : TransportError) : (s.endTransfer h e).imrAllMasked = s.imrAllMasked := rfl
@[simp] theorem State.endTransfer_chanMask (s : State) (h : Handle) (e : TransportError) : (s.endTransfer h e).chanMask = s.chanMask := rfl
@[simp] theorem State.endTransfer_inputs (s : State) (h : Handle) (e : TransportError) : (s.endTransfer h e).inputs = s.inputs := rfl
@[simp] theorem State.endTransfer_port (s : State) (h : Handle) (e : TransportError) : (s.endTransfer h e).port = some (.err e) := rfl
@[simp] theorem State.endTransfer_callers (s : State) (h : Handle) (e : TransportError) : (s.endTransfer h e).callers = s.callers := rfl
@[simp] theorem State.endTransfer_schedule (s : State) (h : Handle) (e : TransportError) : (s.endTransfer h e).schedule = s.schedule := rfl
@[simp] theorem State.endTransfer_peer (s : State) (h : Handle) (e : TransportError) : (s.endTransfer h e).peer = s.peer := rfl

@[simp] theorem State.writeDbr_slots (s : State) (v : BitVec Config.dbrBits) : (s.writeDbr v).slots = s.slots := rfl
@[simp] theorem State.writeDbr_life (s : State) (v : BitVec Config.dbrBits) : (s.writeDbr v).life = s.life := rfl
@[simp] theorem State.writeDbr_nchanR (s : State) (v : BitVec Config.dbrBits) : (s.writeDbr v).nchanR = s.nchanR := rfl
@[simp] theorem State.writeDbr_chans (s : State) (v : BitVec Config.dbrBits) : (s.writeDbr v).chans = s.chans := rfl
@[simp] theorem State.writeDbr_dbr (s : State) (v : BitVec Config.dbrBits) : (s.writeDbr v).dbr = s.dbr ||| v := rfl
@[simp] theorem State.writeDbr_imrAllMasked (s : State) (v : BitVec Config.dbrBits) : (s.writeDbr v).imrAllMasked = s.imrAllMasked := rfl
@[simp] theorem State.writeDbr_chanMask (s : State) (v : BitVec Config.dbrBits) : (s.writeDbr v).chanMask = s.chanMask := rfl
@[simp] theorem State.writeDbr_inputs (s : State) (v : BitVec Config.dbrBits) : (s.writeDbr v).inputs = s.inputs := rfl
@[simp] theorem State.writeDbr_port (s : State) (v : BitVec Config.dbrBits) : (s.writeDbr v).port = s.port := rfl
@[simp] theorem State.writeDbr_callers (s : State) (v : BitVec Config.dbrBits) : (s.writeDbr v).callers = s.callers := rfl
@[simp] theorem State.writeDbr_schedule (s : State) (v : BitVec Config.dbrBits) : (s.writeDbr v).schedule = s.schedule := rfl
@[simp] theorem State.writeDbr_peer (s : State) (v : BitVec Config.dbrBits) : (s.writeDbr v).peer = s.peer := rfl

@[simp] theorem State.setCaller_slots (s : State) (k : CallerId) (c : Caller) : (s.setCaller k c).slots = s.slots := rfl
@[simp] theorem State.setCaller_life (s : State) (k : CallerId) (c : Caller) : (s.setCaller k c).life = s.life := rfl
@[simp] theorem State.setCaller_nchanR (s : State) (k : CallerId) (c : Caller) : (s.setCaller k c).nchanR = s.nchanR := rfl
@[simp] theorem State.setCaller_chans (s : State) (k : CallerId) (c : Caller) : (s.setCaller k c).chans = s.chans := rfl
@[simp] theorem State.setCaller_dbr (s : State) (k : CallerId) (c : Caller) : (s.setCaller k c).dbr = s.dbr := rfl
@[simp] theorem State.setCaller_imrAllMasked (s : State) (k : CallerId) (c : Caller) : (s.setCaller k c).imrAllMasked = s.imrAllMasked := rfl
@[simp] theorem State.setCaller_chanMask (s : State) (k : CallerId) (c : Caller) : (s.setCaller k c).chanMask = s.chanMask := rfl
@[simp] theorem State.setCaller_inputs (s : State) (k : CallerId) (c : Caller) : (s.setCaller k c).inputs = s.inputs := rfl
@[simp] theorem State.setCaller_port (s : State) (k : CallerId) (c : Caller) : (s.setCaller k c).port = s.port := rfl
@[simp] theorem State.setCaller_callers (s : State) (k : CallerId) (c : Caller) : (s.setCaller k c).callers = Sparse.set Caller.idle s.callers k c := rfl
@[simp] theorem State.setCaller_schedule (s : State) (k : CallerId) (c : Caller) : (s.setCaller k c).schedule = s.schedule := rfl
@[simp] theorem State.setCaller_peer (s : State) (k : CallerId) (c : Caller) : (s.setCaller k c).peer = s.peer := rfl

@[simp] theorem State.bringUp_slots (s : State) : (s.bringUp).slots = s.slots := rfl
@[simp] theorem State.bringUp_life (s : State) : (s.bringUp).life = .ready := rfl
@[simp] theorem State.bringUp_nchanR (s : State) : (s.bringUp).nchanR = some (popcount s.chanMask) := rfl
@[simp] theorem State.bringUp_chans (s : State) : (s.bringUp).chans = chooseHandles (popcount s.chanMask) s.inputs.handles [] := rfl
@[simp] theorem State.bringUp_dbr (s : State) : (s.bringUp).dbr = s.dbr := rfl
@[simp] theorem State.bringUp_imrAllMasked (s : State) : (s.bringUp).imrAllMasked = true := rfl
@[simp] theorem State.bringUp_chanMask (s : State) : (s.bringUp).chanMask = s.chanMask := rfl
@[simp] theorem State.bringUp_inputs (s : State) : (s.bringUp).inputs = s.inputs := rfl
@[simp] theorem State.bringUp_port (s : State) : (s.bringUp).port = s.port := rfl
@[simp] theorem State.bringUp_callers (s : State) : (s.bringUp).callers = s.callers := rfl
@[simp] theorem State.bringUp_schedule (s : State) : (s.bringUp).schedule = s.schedule := rfl
@[simp] theorem State.bringUp_peer (s : State) : (s.bringUp).peer = s.peer := rfl

@[simp] theorem dbclear_slots (m : BitVec Config.dbrBits) (s : State) : (dbclear m s).slots = s.slots := rfl
@[simp] theorem dbclear_life (m : BitVec Config.dbrBits) (s : State) : (dbclear m s).life = s.life := rfl
@[simp] theorem dbclear_nchanR (m : BitVec Config.dbrBits) (s : State) : (dbclear m s).nchanR = s.nchanR := rfl
@[simp] theorem dbclear_chans (m : BitVec Config.dbrBits) (s : State) : (dbclear m s).chans = s.chans := rfl
@[simp] theorem dbclear_dbr (m : BitVec Config.dbrBits) (s : State) : (dbclear m s).dbr = s.dbr &&& ~~~m := rfl
@[simp] theorem dbclear_imrAllMasked (m : BitVec Config.dbrBits) (s : State) : (dbclear m s).imrAllMasked = s.imrAllMasked := rfl
@[simp] theorem dbclear_chanMask (m : BitVec Config.dbrBits) (s : State) : (dbclear m s).chanMask = s.chanMask := rfl
@[simp] theorem dbclear_inputs (m : BitVec Config.dbrBits) (s : State) : (dbclear m s).inputs = s.inputs := rfl
@[simp] theorem dbclear_port (m : BitVec Config.dbrBits) (s : State) : (dbclear m s).port = s.port := rfl
@[simp] theorem dbclear_callers (m : BitVec Config.dbrBits) (s : State) : (dbclear m s).callers = s.callers := rfl
@[simp] theorem dbclear_schedule (m : BitVec Config.dbrBits) (s : State) : (dbclear m s).schedule = s.schedule := rfl
@[simp] theorem dbclear_peer (m : BitVec Config.dbrBits) (s : State) : (dbclear m s).peer = s.peer := rfl

end Sys2Proof.Machine
end

