-- ==== Sys2Proof/Laws/Slots.lean ====
section
/-! SUPPORT. What a slot and a caller's record hold after each update of the state. -/

namespace Sys2Proof.Machine

@[simp] theorem slot_setSlot_self (s : State) (h : Handle) (sl : Slot) : (s.setSlot h sl).slot h = sl := by
  simp [State.slot]

theorem slot_setSlot_ne (s : State) (sl : Slot) {h h' : Handle} (hne : h' ≠ h) :
    (s.setSlot h sl).slot h' = s.slot h' := by
  have : h'.name ≠ h.name := fun e => hne (by cases h; cases h'; cases e; rfl)
  simp [State.slot, this]

/-- A slot after one slot has been replaced. -/
theorem slot_setSlot (s : State) (sl : Slot) (h h' : Handle) :
    (s.setSlot h sl).slot h' = if h' = h then sl else s.slot h' := by
  split
  · next e => rw [e, slot_setSlot_self]
  · next e => exact slot_setSlot_ne s sl e

@[simp] theorem slot_reply (s : State) (r : Reply) (h : Handle) : (s.reply r).slot h = s.slot h := rfl

@[simp] theorem slot_raise (s : State) (e : TransportError) (h : Handle) : (s.raise e).slot h = s.slot h := rfl

@[simp] theorem slot_writeDbr (s : State) (v : BitVec Config.dbrBits) (h : Handle) :
    (s.writeDbr v).slot h = s.slot h := rfl

@[simp] theorem slot_setCaller (s : State) (k : CallerId) (c : Caller) (h : Handle) :
    (s.setCaller k c).slot h = s.slot h := rfl

@[simp] theorem slot_dbclear (m : BitVec Config.dbrBits) (s : State) (h : Handle) :
    (dbclear m s).slot h = s.slot h := rfl

@[simp] theorem slot_freeSlot_self (s : State) (h : Handle) : (s.freeSlot h).slot h = Slot.free :=
  slot_setSlot_self s h Slot.free

@[simp] theorem slot_endTransfer_self (s : State) (h : Handle) (e : TransportError) :
    (s.endTransfer h e).slot h = Slot.free := slot_setSlot_self s h Slot.free

theorem slot_freeSlot (s : State) (h h' : Handle) :
    (s.freeSlot h).slot h' = if h' = h then Slot.free else s.slot h' := slot_setSlot s Slot.free h h'

theorem slot_endTransfer (s : State) (h h' : Handle) (e : TransportError) :
    (s.endTransfer h e).slot h' = if h' = h then Slot.free else s.slot h' := slot_setSlot s Slot.free h h'

@[simp] theorem slot_withInputs (s : State) (io : Inputs) (h : Handle) :
    State.slot { s with inputs := io } h = s.slot h := rfl

@[simp] theorem slot_withCallers (s : State) (cs : List (Nat × Caller)) (h : Handle) :
    State.slot { s with callers := cs } h = s.slot h := rfl

@[simp] theorem slot_withPeer (s : State) (P : List Host.Cell) (h : Handle) :
    State.slot { s with peer := P } h = s.slot h := rfl

/-- A slot depends on the slot table alone. -/
theorem slot_congr {s t : State} (e : s.slots = t.slots) (h : Handle) : s.slot h = t.slot h := by
  rw [State.slot, State.slot, e]

@[simp] theorem callerOf_setCaller_self (s : State) (k : CallerId) (c : Caller) : (s.setCaller k c).callerOf k = c := by
  simp [State.callerOf]

theorem callerOf_setCaller_ne (s : State) (c : Caller) {k k' : CallerId} (hne : k' ≠ k) :
    (s.setCaller k c).callerOf k' = s.callerOf k' := by
  simp [State.callerOf, hne]

@[simp] theorem slot_retire (s : State) (h : Handle) : s.retire.slot h = s.slot h := by
  unfold State.retire
  split <;> rfl

@[simp] theorem read_ofWords (W : Words) : (Buffer.ofWords W).read = some W := rfl

@[simp] theorem read_unwritten : Buffer.unwritten.read = none := rfl

/-- A buffer that can be read holds the words read. -/
theorem eq_ofWords_of_read {b : Buffer} {W : Words} (h : b.read = some W) : b = .ofWords W := by
  obtain ⟨c0, c1, c2, c3⟩ := b
  cases c0 <;> cases c1 <;> cases c2 <;> cases c3 <;> simp [Buffer.read] at h
  subst h
  rfl

end Sys2Proof.Machine
end

