-- ==== Sys2Proof/Laws/Exec.lean ====
section
/-! SUPPORT. What each shared operation, and so each instruction, can do: said once. `effect_of_exec` is the inversion lemma
of `exec`; the lemmas before it say the same of the shared operations. -/

namespace Sys2Proof.Machine

/-! ## The lock -/

theorem acquire_granted {s : State} {h : Handle} (hf : (s.slot h).phase = .free) : acquire s h = .granted := by
  simp [acquire, hf]

theorem acquire_selfHeld {s : State} {h : Handle} (hf : (s.slot h).phase ≠ .free)
    (ho : (s.slot h).owner = some s.inputs.caller) : acquire s h = .selfHeld := by
  simp [acquire, hf, ho]

theorem acquire_held {s : State} {h : Handle} (hf : (s.slot h).phase ≠ .free)
    (ho : (s.slot h).owner ≠ some s.inputs.caller) : acquire s h = .held := by
  simp [acquire, hf, ho]

/-- The three cases of the lock (R96). -/
theorem acquire_cases (s : State) (h : Handle) :
    (acquire s h = .granted ∧ (s.slot h).phase = .free) ∨
    (acquire s h = .selfHeld ∧ (s.slot h).phase ≠ .free ∧ (s.slot h).owner = some s.inputs.caller) ∨
    (acquire s h = .held ∧ (s.slot h).phase ≠ .free ∧ (s.slot h).owner ≠ some s.inputs.caller) := by
  by_cases hf : (s.slot h).phase = .free
  · exact .inl ⟨acquire_granted hf, hf⟩
  · by_cases ho : (s.slot h).owner = some s.inputs.caller
    · exact .inr (.inl ⟨acquire_selfHeld hf ho, hf, ho⟩)
    · exact .inr (.inr ⟨acquire_held hf ho, hf, ho⟩)

/-! ## The shared steps -/

theorem encodeStep_free {k : OpKind} {h : Handle} {W : Words} {s : State} (hf : (s.slot h).phase = .free) :
    encodeStep k h W s = .next ((s.setSlot h (loadedSlot k W s.inputs.caller)).reply .done) := by
  rw [encodeStep, acquire_granted hf]

/-- What an ENC.* can answer with a next state. -/
theorem encodeStep_next {k : OpKind} {h : Handle} {W : Words} {s t : State} (e : encodeStep k h W s = .next t) :
    ((s.slot h).phase = .free ∧ t = (s.setSlot h (loadedSlot k W s.inputs.caller)).reply .done) ∨
    ((s.slot h).phase ≠ .free ∧ (s.slot h).owner ≠ some s.inputs.caller ∧ t = s.reply .hold) := by
  unfold encodeStep at e
  rcases acquire_cases s h with ⟨ha, hf⟩ | ⟨ha, hf, ho⟩ | ⟨ha, hf, ho⟩ <;> rw [ha] at e
  · exact .inl ⟨hf, by cases e; rfl⟩
  · cases e
  · exact .inr ⟨hf, ho, by cases e; rfl⟩

theorem decodeStep_done {h : Handle} {f : Words → Reply} {s : State} {W : Words} (hp : (s.slot h).phase = .done)
    (ho : (s.slot h).owner = some s.inputs.caller) (hr : (s.slot h).cb.read = some W) :
    decodeStep h f s = .next ((s.freeSlot h).reply (f W)) := by
  simp [decodeStep, hp, ho, hr]

/-- What a DEC.* can answer with a next state. -/
theorem decodeStep_next {h : Handle} {f : Words → Reply} {s t : State} (e : decodeStep h f s = .next t) :
    ∃ W, (s.slot h).phase = .done ∧ (s.slot h).owner = some s.inputs.caller ∧ (s.slot h).cb.read = some W ∧
      t = (s.freeSlot h).reply (f W) := by
  unfold decodeStep at e
  split at e
  · next hc =>
    split at e
    · next W hr => exact ⟨W, hc.1, hc.2, hr, by cases e; rfl⟩
    · cases e
  · cases e

/-- The three answers of `resolve` (R91). -/
theorem resolve_cases (s : State) (h : Handle) :
    (s.life = .uninitialized ∧ resolve s h = .error .notReady) ∨
    (s.life = .ready ∧ s.indexOf? h = none ∧ resolve s h = .error .inval) ∨
    ∃ j, s.life = .ready ∧ s.indexOf? h = some j ∧ resolve s h = .ok j := by
  unfold resolve
  cases hl : s.life with
  | uninitialized => exact .inl ⟨rfl, rfl⟩
  | ready =>
    cases hx : s.indexOf? h with
    | none => exact .inr (.inl ⟨rfl, rfl, rfl⟩)
    | some j => exact .inr (.inr ⟨j, rfl, rfl, rfl⟩)

/-- An index found lies below the number of channels, and its channel is the handle. -/
theorem indexOf?_some {s : State} {h : Handle} {j : Nat} (e : s.indexOf? h = some j) :
    j < s.nchanR.getD 0 ∧ s.chans[j]? = some h := by
  rw [State.indexOf?, State.channels, List.findIdx?_eq_some_iff_getElem] at e
  obtain ⟨hj, hp, _⟩ := e
  rw [List.length_take] at hj
  rw [List.getElem_take] at hp
  refine ⟨by omega, ?_⟩
  rw [List.getElem?_eq_getElem (by omega)]
  exact congrArg some (by simpa using hp)

/-- A handle at position `j` of the channel set is found there (R91). -/
theorem indexOf?_of_atIndex {s : State} {h : Handle} {j : Nat} (a : AtIndex s h j) : s.indexOf? h = some j := by
  obtain ⟨⟨n, hn, hj⟩, hf, first⟩ := a
  have hlen : j < s.chans.length := (List.getElem?_eq_some_iff.1 hf).1
  rw [State.indexOf?, List.findIdx?_eq_some_iff_getElem]
  refine ⟨by simp [State.channels, hn]; omega, ?_, fun m hm => ?_⟩
  · rw [List.getElem?_eq_getElem hlen] at hf
    simpa [State.channels] using Option.some.inj hf
  · have hne := first m hm
    rw [List.getElem?_eq_getElem (by omega)] at hne
    simpa [State.channels] using fun e => hne (congrArg some e)

/-- A foreign handle is not found (R91). -/
theorem indexOf?_of_foreign {s : State} {h : Handle} (hf : Foreign s h) : s.indexOf? h = none := by
  cases hx : s.indexOf? h with
  | none => rfl
  | some j =>
    obtain ⟨h1, h2⟩ := indexOf?_some hx
    cases hn : s.nchanR with
    | none => simp [hn] at h1
    | some n => exact absurd h2 (hf n hn j (by simpa [hn] using h1))

/-- A handle that is not found is foreign. -/
theorem foreign_of_indexOf? {s : State} {h : Handle} (hx : s.indexOf? h = none) : Foreign s h := by
  intro n hn m hm hc
  rw [State.indexOf?, List.findIdx?_eq_none_iff] at hx
  obtain ⟨hlen, he⟩ := List.getElem?_eq_some_iff.1 hc
  have hmem : h ∈ s.channels := by
    simp only [State.channels, hn, Option.getD_some, List.mem_take_iff_getElem]
    exact ⟨m, by omega, he⟩
  simpa using hx h hmem

theorem resolve_of_atIndex {s : State} {h : Handle} {j : Nat} (hl : s.life = .ready) (a : AtIndex s h j) :
    resolve s h = .ok j := by
  simp [resolve, hl, indexOf?_of_atIndex a]

theorem resolve_of_foreign {s : State} {h : Handle} (hl : s.life = .ready) (hf : Foreign s h) :
    resolve s h = .error .inval := by
  simp [resolve, hl, indexOf?_of_foreign hf]

theorem resolve_uninitialized {s : State} {h : Handle} (hl : s.life = .uninitialized) :
    resolve s h = .error .notReady := by
  simp [resolve, hl]

/-- The doorbell word of an index sets that bit, if the register has it, and no other (R92, R93). -/
theorem getLsbD_or_doorbellWord (d : BitVec Config.dbrBits) (j b : Nat) :
    (d ||| doorbellWord j).getLsbD b = (d.getLsbD b || (decide (b < 32) && decide (b = j))) := by
  by_cases hb : b < 32
  · simp only [doorbellWord, BitVec.getLsbD_or, BitVec.getLsbD_shiftLeft, hb, decide_true, Bool.true_and]
    by_cases hj : b < j
    · simp [hj, show b ≠ j by omega]
    · by_cases he : b = j
      · simp [he]
      · simp [hj, he, show b - j ≠ 0 by omega]
  · simp [doorbellWord, hb]

/-- What `send(h)` can leave in `DBR`, and the slots it leaves alone (R93). -/
theorem sendPrimitive_cases (s : State) (h : Handle) :
    (∃ e, resolve s h = .error e ∧ sendPrimitive s h = (some e, s)) ∨
    (∃ j, resolve s h = .ok j ∧ s.inputs.reject = false ∧ sendPrimitive s h = (none, s.writeDbr (doorbellWord j))) ∨
    (∃ j, resolve s h = .ok j ∧ s.inputs.reject = true ∧ s.inputs.ringOnReject = false ∧
      sendPrimitive s h = (some .dbRejected, s)) ∨
    (∃ j, resolve s h = .ok j ∧ s.inputs.reject = true ∧ s.inputs.ringOnReject = true ∧
      sendPrimitive s h = (some .dbRejected, s.writeDbr (doorbellWord j))) := by
  unfold sendPrimitive
  cases hr : resolve s h with
  | error e => exact .inl ⟨e, rfl, rfl⟩
  | ok j =>
    cases hj : s.inputs.reject with
    | false => exact .inr (.inl ⟨j, rfl, rfl, by simp⟩)
    | true =>
      cases hk : s.inputs.ringOnReject with
      | false => exact .inr (.inr (.inl ⟨j, rfl, rfl, rfl, by simp⟩))
      | true => exact .inr (.inr (.inr ⟨j, rfl, rfl, rfl, by simp⟩))

/-- A SEND of a LOADED slot of the caller's whose `resolve` fails ends the transfer. -/
theorem execSend_unresolved {s : State} {h : Handle} {e : TransportError} (hp : (s.slot h).phase = .loaded)
    (ho : (s.slot h).owner = some s.inputs.caller) (hr : resolve s h = .error e) :
    execSend h s = .next (s.endTransfer h e) := by
  simp [execSend, hp, ho, sendPrimitive, hr]

/-- A rejected SEND ends the transfer, with the bit set or not as the draw says. -/
theorem execSend_rejected {s : State} {h : Handle} {j : Nat} (hp : (s.slot h).phase = .loaded)
    (ho : (s.slot h).owner = some s.inputs.caller) (hr : resolve s h = .ok j) (hj : s.inputs.reject = true) :
    execSend h s = .next
      ((if s.inputs.ringOnReject = true then s.writeDbr (doorbellWord j) else s).endTransfer h .dbRejected) := by
  simp [execSend, hp, ho, sendPrimitive, hr, hj]

/-- A SEND that is not rejected sets the bit and delivers the buffer. -/
theorem execSend_rings {s : State} {h : Handle} {j : Nat} {W : Words} (hp : (s.slot h).phase = .loaded)
    (ho : (s.slot h).owner = some s.inputs.caller) (hr : resolve s h = .ok j) (hj : s.inputs.reject = false)
    (hb : (s.slot h).cb.read = some W) :
    execSend h s = .next (((s.writeDbr (doorbellWord j)).setSlot h (sentSlot (s.slot h) W)).reply .done) := by
  simp [execSend, hp, ho, sendPrimitive, hr, hj, hb]

/-! ## Every instruction -/

/-- Everything `exec` can do when it answers a next state. -/
inductive Effect (i : Instr) (s : State) : State → Prop
  /-- ENC.* on a FREE slot. -/
  | encode {k : OpKind} {h : Handle} {W : Words} (hop : i.opcode = .enc k) (hh : i.handle? = some h)
      (hw : i.wellFormed = true) (hW : encodedWords s.clkMs i = some W) (hf : (s.slot h).phase = .free) :
      Effect i s ((s.setSlot h (loadedSlot k W s.inputs.caller)).reply .done)
  /-- ENC.* on a slot another caller holds. -/
  | encodeHold {k : OpKind} {h : Handle} (hop : i.opcode = .enc k) (hh : i.handle? = some h)
      (hw : i.wellFormed = true) (hf : (s.slot h).phase ≠ .free) (ho : (s.slot h).owner ≠ some s.inputs.caller) :
      Effect i s (s.reply .hold)
  /-- DEC.* on a DONE slot of the caller's. -/
  | decode {k : OpKind} {h : Handle} {W : Words} {r : Reply} (hop : i.opcode = .dec k) (hh : i.handle? = some h)
      (hw : i.wellFormed = true) (hp : (s.slot h).phase = .done) (ho : (s.slot h).owner = some s.inputs.caller)
      (hr : (s.slot h).cb.read = some W) (hd : decodedReply W i = some r) : Effect i s ((s.freeSlot h).reply r)
  /-- INIT before INIT. -/
  | init (hi : i = .init) (hl : s.life = .uninitialized) : Effect i s (s.bringUp.reply .done)
  /-- RESOLVE of a handle in the set. -/
  | resolveOk {h : Handle} {j : Nat} (hi : i = .resolve h) (hr : resolve s h = .ok j) :
      Effect i s (s.reply (.index j))
  /-- RESOLVE with a transport error. -/
  | resolveErr {h : Handle} {e : TransportError} (hi : i = .resolve h) (hr : resolve s h = .error e) :
      Effect i s (s.raise e)
  /-- SEND that rings. -/
  | sendOk {h : Handle} {j : Nat} {W : Words} (hi : i = .send h) (hp : (s.slot h).phase = .loaded)
      (ho : (s.slot h).owner = some s.inputs.caller) (hr : resolve s h = .ok j) (hb : (s.slot h).cb.read = some W) :
      Effect i s (((s.writeDbr (doorbellWord j)).setSlot h (sentSlot (s.slot h) W)).reply .done)
  /-- SEND with a transport error that leaves `DBR` as it was. -/
  | sendErr {h : Handle} {e : TransportError} (hi : i = .send h) (hp : (s.slot h).phase = .loaded)
      (ho : (s.slot h).owner = some s.inputs.caller) : Effect i s (s.endTransfer h e)
  /-- SEND rejected, with the bit set all the same. -/
  | sendRejectedRung {h : Handle} {j : Nat} (hi : i = .send h) (hp : (s.slot h).phase = .loaded)
      (ho : (s.slot h).owner = some s.inputs.caller) (hr : resolve s h = .ok j) :
      Effect i s ((s.writeDbr (doorbellWord j)).endTransfer h .dbRejected)
  /-- WAIT while the exchange is in flight. -/
  | waitHold {h : Handle} (hi : i = .wait h) (hp : (s.slot h).phase = .sent)
      (ho : (s.slot h).owner = some s.inputs.caller) : Effect i s (s.reply .hold)
  /-- WAIT after the response. -/
  | waitDone {h : Handle} (hi : i = .wait h) (hp : (s.slot h).phase = .done)
      (ho : (s.slot h).owner = some s.inputs.caller) : Effect i s (s.reply .done)
  /-- WAIT after the exchange failed. -/
  | waitFailed {h : Handle} (hi : i = .wait h) (hp : (s.slot h).phase = .failed)
      (ho : (s.slot h).owner = some s.inputs.caller) : Effect i s (s.endTransfer h .xfer)

theorem effect_of_encodeStep {i : Instr} {s t : State} {k : OpKind} {h : Handle} {W : Words}
    (e : encodeStep k h W s = .next t) (hop : i.opcode = .enc k) (hh : i.handle? = some h) (hw : i.wellFormed = true)
    (hW : encodedWords s.clkMs i = some W) : Effect i s t := by
  rcases encodeStep_next e with ⟨hf, rfl⟩ | ⟨hf, ho, rfl⟩
  · exact .encode hop hh hw hW hf
  · exact .encodeHold hop hh hw hf ho

theorem effect_of_decodeStep {i : Instr} {s t : State} {k : OpKind} {h : Handle} {f : Words → Reply}
    (e : decodeStep h f s = .next t) (hop : i.opcode = .dec k) (hh : i.handle? = some h) (hw : i.wellFormed = true)
    (hd : ∀ W, decodedReply W i = some (f W)) : Effect i s t := by
  obtain ⟨W, hp, ho, hr, rfl⟩ := decodeStep_next e
  exact .decode hop hh hw hp ho hr (hd W)

theorem effect_of_execSend {h : Handle} {s t : State} (e : execSend h s = .next t) : Effect (.send h) s t := by
  unfold execSend at e
  split at e
  · next hc =>
    obtain ⟨hp, ho⟩ := hc
    rcases sendPrimitive_cases s h with ⟨er, _, hs⟩ | ⟨j, hr, _, hs⟩ | ⟨j, _, _, _, hs⟩ | ⟨j, hr, _, _, hs⟩ <;>
      rw [hs] at e <;> simp only at e
    · cases e; exact .sendErr rfl hp ho
    · split at e
      · next W hb => cases e; exact .sendOk rfl hp ho hr hb
      · cases e
    · cases e; exact .sendErr rfl hp ho
    · cases e; exact .sendRejectedRung rfl hp ho hr
  · cases e

theorem effect_of_execWait {h : Handle} {s t : State} (e : execWait h s = .next t) : Effect (.wait h) s t := by
  unfold execWait at e
  split at e
  · next ho =>
    split at e <;> cases e
    · next hp => exact .waitHold rfl hp ho
    · next hp => exact .waitDone rfl hp ho
    · next hp => exact .waitFailed rfl hp ho
  · cases e

/-- The inversion lemma of `exec`. -/
theorem effect_of_exec {i : Instr} {s t : State} (e : exec i s = .next t) : Effect i s t := by
  cases i with
  | encRead h ty reg chid => exact effect_of_encodeStep e rfl rfl rfl rfl
  | encWrite h ty reg chid value => exact effect_of_encodeStep e rfl rfl rfl rfl
  | encUpdate h ty reg chid value mask => exact effect_of_encodeStep e rfl rfl rfl rfl
  | encBread h ty reg chid count =>
    simp only [exec, execEncBread] at e
    split at e
    · next hc => exact effect_of_encodeStep e rfl rfl (by simpa [Instr.wellFormed] using hc) rfl
    · cases e
  | encBwrite h ty reg chid count bytes =>
    simp only [exec, execEncBwrite] at e
    split at e
    · next hc =>
      split at e
      · next hl => exact effect_of_encodeStep e rfl rfl (by simp [Instr.wellFormed, hc, hl]) rfl
      · cases e
    · cases e
  | decRead h => exact effect_of_decodeStep e rfl rfl rfl fun _ => rfl
  | decWrite h => exact effect_of_decodeStep e rfl rfl rfl fun _ => rfl
  | decUpdate h => exact effect_of_decodeStep e rfl rfl rfl fun _ => rfl
  | decBread h count =>
    simp only [exec, execDecBread] at e
    split at e
    · next hc => exact effect_of_decodeStep e rfl rfl (by simpa [Instr.wellFormed] using hc) fun _ => rfl
    · cases e
  | decBwrite h => exact effect_of_decodeStep e rfl rfl rfl fun _ => rfl
  | init =>
    simp only [exec, execInit] at e
    split at e
    · cases e
    · next hl => cases e; exact .init rfl hl
  | resolve h =>
    simp only [exec, execResolve] at e
    split at e
    · next hr => cases e; exact .resolveOk rfl hr
    · next hr => cases e; exact .resolveErr rfl hr
  | send h => exact effect_of_execSend e
  | wait h => exact effect_of_execWait e

/-- An instruction touches no slot but that of the handle it names. -/
theorem slot_of_effect {i : Instr} {s t : State} (e : Effect i s t) {h : Handle} (hne : i.handle? ≠ some h) :
    t.slot h = s.slot h := by
  have touched : ∀ {h'}, i.handle? = some h' → h ≠ h' := fun hh e => hne (e ▸ hh)
  cases e with
  | encode _ hh => simp [slot_setSlot, touched hh]
  | encodeHold => rfl
  | decode _ hh => simp [slot_freeSlot, touched hh]
  | init => rfl
  | resolveOk => rfl
  | resolveErr => rfl
  | sendOk hi => subst hi; simp [slot_setSlot, touched rfl]
  | sendErr hi => subst hi; simp [slot_endTransfer, touched rfl]
  | sendRejectedRung hi => subst hi; simp [slot_endTransfer, touched rfl]
  | waitHold => rfl
  | waitDone => rfl
  | waitFailed hi => subst hi; simp [slot_endTransfer, touched rfl]

end Sys2Proof.Machine
end

