-- ==== Sys2Proof/Laws/PerInstr.lean ====
section
/-! SUPPORT. The family `OpselNames`: the OPSEL value the encoder drives for an instruction is on the 5-bit port and is read
back as that instruction's operation (30_encoding.md R62). One lemma for each constructor. -/

namespace Sys2Proof.Laws.OpselNames

/-- The OPSEL the encoder drives names the instruction's operation. -/
def Statement (i : Instr) : Prop :=
  (encode i).opsel < 32 ∧ opcodeOf? (BitVec.ofNat 5 (encode i).opsel) = some i.opcode

/-- The statement follows from the table wherever the encoder drives the table's value. -/
theorem of_opsel {i : Instr} (h : (encode i).opsel = i.opcode.opsel) : Statement i := by
  unfold Statement
  rw [h]
  exact ⟨opsel_lt _, opcodeOf?_opsel _⟩

theorem encRead (h : Handle) (ty : BitVec 4) (reg : Byte) (chid : BitVec 4) : Statement (.encRead h ty reg chid) :=
  of_opsel rfl
theorem encWrite (h : Handle) (ty : BitVec 4) (reg : Byte) (chid : BitVec 4) (value : Byte) :
    Statement (.encWrite h ty reg chid value) := of_opsel rfl
theorem encUpdate (h : Handle) (ty : BitVec 4) (reg : Byte) (chid : BitVec 4) (value mask : Byte) :
    Statement (.encUpdate h ty reg chid value mask) := of_opsel rfl
theorem encBread (h : Handle) (ty : BitVec 4) (reg : Byte) (chid : BitVec 4) (count : Nat) :
    Statement (.encBread h ty reg chid count) := of_opsel rfl
theorem encBwrite (h : Handle) (ty : BitVec 4) (reg : Byte) (chid : BitVec 4) (count : Nat) (bytes : List Byte) :
    Statement (.encBwrite h ty reg chid count bytes) := of_opsel rfl
theorem decRead (h : Handle) : Statement (.decRead h) := of_opsel rfl
theorem decWrite (h : Handle) : Statement (.decWrite h) := of_opsel rfl
theorem decUpdate (h : Handle) : Statement (.decUpdate h) := of_opsel rfl
theorem decBread (h : Handle) (count : Nat) : Statement (.decBread h count) := of_opsel rfl
theorem decBwrite (h : Handle) : Statement (.decBwrite h) := of_opsel rfl
theorem init : Statement .init := of_opsel rfl
theorem resolve (h : Handle) : Statement (.resolve h) := of_opsel rfl
theorem send (h : Handle) : Statement (.send h) := of_opsel rfl
theorem wait (h : Handle) : Statement (.wait h) := of_opsel rfl

end Sys2Proof.Laws.OpselNames
end

