-- ==== Sys2Proof/Laws/Step.lean ====
section
/-! SUPPORT. What one step of the machine can do, said once: the inversion lemma of `step`, and its value for each entry of the
schedule. -/

namespace Sys2Proof.Machine

/-- The state in which a caller's operation runs: the schedule moved on, the inputs driven. -/
def State.issue (s : State) (io : Inputs) (rest : List AgentStep) : State := { s with schedule := rest, inputs := io }

@[simp] theorem slot_issue (s : State) (io : Inputs) (rest : List AgentStep) (h : Handle) :
    (s.issue io rest).slot h = s.slot h := rfl

@[simp] theorem slot_withSchedule (s : State) (rest : List AgentStep) (h : Handle) :
    State.slot { s with schedule := rest } h = s.slot h := rfl

/-- Everything a step can do when it answers a next state. -/
inductive StepEffect (s : State) : State → Prop
  /-- Nothing is scheduled. -/
  | idle (hs : s.schedule = []) : StepEffect s s
  /-- The caller has no operation left. -/
  | noOperation {io : Inputs} {rest : List AgentStep} (hs : s.schedule = .caller io :: rest)
      (hn : nextRequest? (s.callerOf io.caller).program = none) : StepEffect s { s with schedule := rest }
  /-- The caller's operation runs and its reply is filed. -/
  | operation {io : Inputs} {rest : List AgentStep} {r : Request} {i : Instr} {t : State}
      (hs : s.schedule = .caller io :: rest) (hn : nextRequest? (s.callerOf io.caller).program = some r)
      (hd : Sys2Proof.decode r = .ok i) (he : exec i (s.issue io rest) = .next t) : StepEffect s t.retire
  /-- RESPOND. -/
  | respond {h : Handle} {r : Words} {rest : List AgentStep} (hs : s.schedule = .respond h r :: rest) :
      StepEffect s (Machine.respond h r { s with schedule := rest })
  /-- RESPOND by the reference peer. -/
  | peerRespond {h : Handle} {rest : List AgentStep} (hs : s.schedule = .peerRespond h :: rest) :
      StepEffect s (Machine.peerRespond h { s with schedule := rest })
  /-- FAIL. -/
  | fail {h : Handle} {rest : List AgentStep} (hs : s.schedule = .fail h :: rest) :
      StepEffect s (Machine.fail h { s with schedule := rest })
  /-- DBCLEAR. -/
  | dbclear {m : BitVec Config.dbrBits} {rest : List AgentStep} (hs : s.schedule = .dbclear m :: rest) :
      StepEffect s (Machine.dbclear m { s with schedule := rest })

theorem retireOutcome_next {o : Host.Outcome State Fault Refusal} {t : State} (e : retireOutcome o = .next t) :
    ∃ u, o = .next u ∧ t = u.retire := by
  cases o with
  | next u => exact ⟨u, rfl, by cases e; rfl⟩
  | fault f => cases e
  | refused r => cases e

/-- The inversion lemma of `step`. -/
theorem effect_of_step {s t : State} (e : step s = .next t) : StepEffect s t := by
  unfold step scheduledStep at e
  split at e
  · next hs => cases e; exact .idle hs
  · next a rest hs =>
    cases a with
    | caller io =>
      simp only [agentStep, callerStep] at e
      split at e
      · next hn => cases e; exact .noOperation hs hn
      · next r hn =>
        split at e
        · next i hd =>
          obtain ⟨u, he, rfl⟩ := retireOutcome_next e
          exact .operation hs hn hd he
        · cases e
    | respond h r => cases e; exact .respond hs
    | peerRespond h => cases e; exact .peerRespond hs
    | fail h => cases e; exact .fail hs
    | dbclear m => cases e; exact .dbclear hs

/-- A run starts with its first step. -/
theorem run_succ {s t : State} (e : step s = .next t) (n : Nat) : core.run (n + 1) s = core.run n t := by
  have e' : core.step s = .next t := e
  have h := Host.Core.run.eq_2 core s n
  rw [e'] at h
  exact h

/-- A run that goes on for `m + n` steps goes on for `m`, and from there for `n`. -/
theorem run_add {M : Host.Core} {m n : Nat} : ∀ {s t : M.State}, M.run (m + n) s = .next t →
    ∃ u, M.run m s = .next u ∧ M.run n u = .next t := by
  induction m with
  | zero => intro s t h; exact ⟨s, rfl, by simpa using h⟩
  | succ m ih =>
    intro s t h
    rw [show m + 1 + n = (m + n) + 1 by omega, Host.Core.run] at h
    split at h
    · next u hs =>
      obtain ⟨v, h1, h2⟩ := ih h
      exact ⟨v, by rw [Host.Core.run, hs]; exact h1, h2⟩
    · cases h
    · cases h

/-- Filing a reply changes the callers' records only. -/
theorem retire_eq (s : State) : ∃ cs, s.retire = { s with callers := cs } := by
  unfold State.retire
  split
  · exact ⟨_, rfl⟩
  · exact ⟨s.callers, rfl⟩

@[simp] theorem retire_slots (s : State) : s.retire.slots = s.slots := by unfold State.retire; split <;> rfl
@[simp] theorem retire_life (s : State) : s.retire.life = s.life := by unfold State.retire; split <;> rfl
@[simp] theorem retire_nchanR (s : State) : s.retire.nchanR = s.nchanR := by unfold State.retire; split <;> rfl
@[simp] theorem retire_chans (s : State) : s.retire.chans = s.chans := by unfold State.retire; split <;> rfl
@[simp] theorem retire_dbr (s : State) : s.retire.dbr = s.dbr := by unfold State.retire; split <;> rfl
@[simp] theorem retire_imrAllMasked (s : State) : s.retire.imrAllMasked = s.imrAllMasked := by
  unfold State.retire; split <;> rfl
@[simp] theorem retire_chanMask (s : State) : s.retire.chanMask = s.chanMask := by unfold State.retire; split <;> rfl
@[simp] theorem retire_inputs (s : State) : s.retire.inputs = s.inputs := by unfold State.retire; split <;> rfl
@[simp] theorem retire_port (s : State) : s.retire.port = s.port := by unfold State.retire; split <;> rfl
@[simp] theorem retire_schedule (s : State) : s.retire.schedule = s.schedule := by unfold State.retire; split <;> rfl
@[simp] theorem retire_peer (s : State) : s.retire.peer = s.peer := by unfold State.retire; split <;> rfl

/-- RESPOND and FAIL replace one slot or change nothing. -/
theorem respond_cases (h : Handle) (r : Words) (s : State) :
    ((s.slot h).phase = .sent ∧ respond h r s = s.setSlot h (doneSlot (s.slot h) r)) ∨
    ((s.slot h).phase ≠ .sent ∧ respond h r s = s) := by
  by_cases hp : (s.slot h).phase = .sent
  · exact .inl ⟨hp, by simp [respond, hp]⟩
  · exact .inr ⟨hp, by simp [respond, hp]⟩

theorem fail_cases (h : Handle) (s : State) :
    ((s.slot h).phase = .sent ∧ fail h s = s.setSlot h (failedSlot (s.slot h))) ∨
    ((s.slot h).phase ≠ .sent ∧ fail h s = s) := by
  by_cases hp : (s.slot h).phase = .sent
  · exact .inl ⟨hp, by simp [fail, hp]⟩
  · exact .inr ⟨hp, by simp [fail, hp]⟩

/-- The reference peer's step is a RESPOND with its answer and its registers moved, or nothing. -/
theorem peerRespond_cases (h : Handle) (s : State) :
    (∃ W k, (s.slot h).phase = .sent ∧ (s.slot h).sent = some W ∧ requestKind? W = some k ∧
      peerRespond h s = { respond h (peerResponse s.peer k W) s with peer := peerRegisters s.peer k W }) ∨
    peerRespond h s = s := by
  unfold peerRespond
  split
  · next W hp hs =>
    split
    · next k hk => exact .inl ⟨W, k, hp, hs, hk, rfl⟩
    · exact .inr rfl
  · exact .inr rfl

/-- The peer's register writes keep its file's canonical form. -/
theorem wf_peerWriteBulk (bs : List Byte) : ∀ {P : List Host.Cell} (c t r : Nat), Memory.wf P →
    Memory.wf (peerWriteBulk P c t r bs) := by
  induction bs with
  | nil => intro P c t r h; exact h
  | cons b bs ih => intro P c t r h; exact ih c t (r + 1) (Sparse.wf_set h _ _)

theorem wf_peerRegisters {P : List Host.Cell} (k : OpKind) (W : Words) (h : Memory.wf P) :
    Memory.wf (peerRegisters P k W) := by
  cases k with
  | read => exact h
  | write => exact Sparse.wf_set h _ _
  | update => exact Sparse.wf_set h _ _
  | bulkRead => exact h
  | bulkWrite => exact wf_peerWriteBulk _ _ _ _ h

end Sys2Proof.Machine
end

