-- ==== Sys2Proof/Tests/Slice0.lean ====
section
/-! SUPPORT. The model's own tests. Expected results are the vectors of 95_test_vectors.md (E, DV, S, T, Q, P, and the programs'
lines), or words written out from the encodings of 30_encoding.md; each `witness_` theorem shows that the hypotheses of one
statement can be met. -/

namespace Sys2Proof.Tests

open Sys2Proof Sys2Proof.Machine

/-! ## Small states -/

def h0 : Handle := ⟨0⟩
def h1 : Handle := ⟨1⟩
def h2 : Handle := ⟨2⟩
def h3 : Handle := ⟨3⟩
/-- A handle outside the channel set. -/
def hx : Handle := ⟨77⟩

/-- The inputs of an operation of caller `k` at clock reading `ms`, with no rejection drawn. -/
def io (k ms : Nat) : Inputs := ⟨k, ms, false, false, []⟩

/-- Ready, with CHAN_MASK = 000F and CHANS = [h0, h1, h2, h3]; caller 0 on the ports. -/
def ready (ms : Nat) : State where
  slots := []
  life := .ready
  nchanR := some 4
  chans := [h0, h1, h2, h3]
  dbr := 0
  imrAllMasked := true
  chanMask := 0x000F
  inputs := io 0 ms
  port := none
  callers := []
  schedule := []
  peer := []

/-- Before INIT, with the given CHAN_MASK. -/
def fresh (mask : BitVec 16) : State :=
  { ready 0 with life := .uninitialized, nchanR := none, chans := [], imrAllMasked := false, chanMask := mask }

/-- The words of ENC.READ h0, 1, 0x10, 2 at clock 0x64. -/
def reqWords : Words := ⟨0x00002110, 0, 0, 0x64⟩

def loaded : Slot := loadedSlot .read reqWords 0
def sentOne : Slot := sentSlot loaded reqWords
/-- A slot with a response in it. -/
def doneWith (r : Words) : Slot := doneSlot sentOne r
def failedOne : Slot := failedSlot sentOne

/-- `ready` with slot `h` as given. -/
def withSlot (h : Handle) (sl : Slot) : State := (ready 0x64).setSlot h sl

/-- A response in which every field stands out. -/
def resp : Words := ⟨0x00002110, 0x12AB3400, 0x04030201, 0x08070605⟩

/-! ## WellFormed -/

theorem test_wf_encBread_count9 : (Instr.encBread h0 2 0x40 1 9).wellFormed = false := by decide
theorem test_wf_encBread_count8 : (Instr.encBread h0 2 0x40 1 8).wellFormed = true := by decide
theorem test_wf_encBwrite_count9 : (Instr.encBwrite h0 2 0x40 1 9 [0, 0, 0, 0, 0, 0, 0, 0, 0]).wellFormed = false := by
  decide
theorem test_wf_encBwrite_length : (Instr.encBwrite h0 5 0x80 3 2 [1, 2, 3]).wellFormed = false := by decide
theorem test_wf_decBread_count9 : (Instr.decBread h0 9).wellFormed = false := by decide

/-! ## Decoding: every constructor, from its OPSEL value of R62 and its operands of R64 -/

theorem test_decode_encRead :
    decode ⟨0x00, h2, 2, 0x30, 1, 0, 0, 0, []⟩ = .ok (.encRead h2 2 0x30 1) := by decide
theorem test_decode_encWrite :
    decode ⟨0x01, h0, 1, 0x10, 0, 0x33, 0, 0, []⟩ = .ok (.encWrite h0 1 0x10 0 0x33) := by decide
theorem test_decode_encUpdate :
    decode ⟨0x02, h2, 2, 0x30, 1, 0xAA, 0x0F, 0, []⟩ = .ok (.encUpdate h2 2 0x30 1 0xAA 0x0F) := by decide
theorem test_decode_encBread :
    decode ⟨0x03, h1, 3, 0xFF, 0, 0, 0, 4, []⟩ = .ok (.encBread h1 3 0xFF 0 4) := by decide
theorem test_decode_encBwrite :
    decode ⟨0x04, h1, 3, 0xFE, 0, 0, 0, 5, [0x10, 0x20, 0x30, 0x40, 0x50]⟩ =
      .ok (.encBwrite h1 3 0xFE 0 5 [0x10, 0x20, 0x30, 0x40, 0x50]) := by decide
theorem test_decode_decRead : decode ⟨0x08, h2, 0, 0, 0, 0, 0, 0, []⟩ = .ok (.decRead h2) := by decide
theorem test_decode_decWrite : decode ⟨0x09, h2, 0, 0, 0, 0, 0, 0, []⟩ = .ok (.decWrite h2) := by decide
theorem test_decode_decUpdate : decode ⟨0x0A, h2, 0, 0, 0, 0, 0, 0, []⟩ = .ok (.decUpdate h2) := by decide
theorem test_decode_decBread : decode ⟨0x0B, h1, 0, 0, 0, 0, 0, 4, []⟩ = .ok (.decBread h1 4) := by decide
theorem test_decode_decBwrite : decode ⟨0x0C, h1, 0, 0, 0, 0, 0, 0, []⟩ = .ok (.decBwrite h1) := by decide
theorem test_decode_init : decode ⟨0x10, h0, 0, 0, 0, 0, 0, 0, []⟩ = .ok .init := by decide
theorem test_decode_resolve : decode ⟨0x11, h3, 0, 0, 0, 0, 0, 0, []⟩ = .ok (.resolve h3) := by decide
theorem test_decode_send : decode ⟨0x12, h2, 0, 0, 0, 0, 0, 0, []⟩ = .ok (.send h2) := by decide
theorem test_decode_wait : decode ⟨0x13, h2, 0, 0, 0, 0, 0, 0, []⟩ = .ok (.wait h2) := by decide

/-- The eighteen reserved OPSEL values (R63). -/
theorem test_decode_reserved :
    ([0x05, 0x06, 0x07, 0x0D, 0x0E, 0x0F, 0x14, 0x15, 0x16, 0x17, 0x18, 0x19, 0x1A, 0x1B, 0x1C, 0x1D, 0x1E, 0x1F].map
      fun v => decode (Request.bare v)) = List.replicate 18 (.error .reservedOpsel) := by decide
/-- A table word above the port's width is refused (log 14). -/
theorem test_decodeTableWord : decodeTableWord 8 0x10 = some .init ∧ decodeTableWord 8 0x20 = none := by decide

/-! ## The pure encoders (95_test_vectors.md section 2.1) -/

theorem test_encoder_vectors :
    encodeRead 0xF 0xFF 0xF 0xFFFFFFFF = ⟨0x0000FFFF, 0, 0, 0xFFFFFFFF⟩ ∧
    encodeRead 1 0x10 2 0x12345678 = ⟨0x00002110, 0, 0, 0x12345678⟩ ∧
    encodeWrite 0 0 0 0xFF 0 = ⟨0, 0x0000FF01, 0, 0⟩ ∧
    encodeWrite 3 0xA5 0xF 0x5A 0x64 = ⟨0x0000F3A5, 0x00005A01, 0, 0x64⟩ ∧
    encodeUpdate 0 0 0 0 0xFF 0 = ⟨0, 0x00FF0002, 0, 0⟩ ∧
    encodeUpdate 0xF 0xFF 0xF 0xFF 0xFF 0x80000000 = ⟨0x0000FFFF, 0x00FFFF02, 0, 0x80000000⟩ ∧
    encodeBulkRead 2 0x40 1 0 = ⟨0x00001240, 0x00000003, 0, 0⟩ ∧
    encodeBulkRead 2 0x40 1 8 = ⟨0x00001240, 0x00000803, 0, 0⟩ ∧
    encodeBulkWrite 5 0x80 3 8 [1, 2, 3, 4, 5, 6, 7, 8] = ⟨0x00003580, 0x00000804, 0x04030201, 0x08070605⟩ ∧
    encodeBulkWrite 2 0x40 1 5 [0x11, 0x22, 0x33, 0x44, 0x55] = ⟨0x00001240, 0x00000504, 0x44332211, 0x00000055⟩ := by
  decide

/-! ## ENC.* on a slot: the outcome, the words in the slot (R68), and the lock (Q5, Q6, Q13) -/

/-- A clock reading above 32 bits is truncated (R104). -/
theorem test_encRead_loads : ∃ t, exec (.encRead h0 1 0x10 2) (ready 0x112345678) = .next t ∧
    t.slot h0 = ⟨.loaded, some .read, ⟨some 0x00002110, some 0, some 0, some 0x12345678⟩, none, some 0⟩ ∧
    t.port = some .done := ⟨_, rfl, by decide, rfl⟩
theorem test_encRead_Q5 : exec (.encRead h0 1 0x10 2) (withSlot h0 loaded) = .fault .fSeq := rfl
theorem test_encWrite_loads : ∃ t, exec (.encWrite h0 1 0x10 0 0x33) (ready 7) = .next t ∧
    t.slot h0 = ⟨.loaded, some .write, ⟨some 0x00000110, some 0x00003301, some 0, some 7⟩, none, some 0⟩ :=
  ⟨_, rfl, by decide⟩
theorem test_encWrite_Q6 : ∃ t, exec (.encWrite h0 1 0x10 0 0x33) { withSlot h0 loaded with inputs := io 1 0 } = .next t ∧
    t.port = some .hold ∧ t.slot h0 = loaded := ⟨_, rfl, rfl, by decide⟩
theorem test_encUpdate_loads : ∃ t, exec (.encUpdate h2 2 0x30 1 0xAA 0x0F) (ready 0x64) = .next t ∧
    t.slot h2 = ⟨.loaded, some .update, ⟨some 0x00001230, some 0x000FAA02, some 0, some 0x64⟩, none, some 0⟩ :=
  ⟨_, rfl, by decide⟩
theorem test_encBread_loads : ∃ t, exec (.encBread h1 3 0xFF 0 4) (ready 0x64) = .next t ∧
    t.slot h1 = ⟨.loaded, some .bulkRead, ⟨some 0x000003FF, some 0x00000403, some 0, some 0⟩, none, some 0⟩ :=
  ⟨_, rfl, by decide⟩
theorem test_encBread_Q13 : exec (.encBread h0 2 0x40 1 9) { withSlot h0 loaded with inputs := io 1 0 } =
    .refused (.badRequest .countOver8) := rfl
theorem test_encBwrite_loads : ∃ t, exec (.encBwrite h1 3 0xFE 0 5 [0x10, 0x20, 0x30, 0x40, 0x50]) (ready 0x64) = .next t ∧
    t.slot h1 = ⟨.loaded, some .bulkWrite, ⟨some 0x000003FE, some 0x00000504, some 0x40302010, some 0x00000050⟩, none,
      some 0⟩ := ⟨_, rfl, by decide⟩
theorem test_encBwrite_E19 : exec (.encBwrite h1 3 0xFE 0 2 [1, 2, 3]) (ready 0) =
    .refused (.badRequest .byteListLength) := rfl

/-! ## The pure decoders (section 2.2) -/

theorem test_decoder_vectors :
    decodeRead ⟨0, 0x12AB3400, 0, 0⟩ = (0x12, 0x34) ∧ decodeRead ⟨0, 0x05003C00, 0, 0⟩ = (0x05, 0x3C) ∧
    decodeWrite ⟨0, 0x00FFFFFF, 0, 0⟩ = 0 ∧ decodeUpdate ⟨0, 0x020FAA02, 0, 0⟩ = 0x02 ∧
    decodeBulkRead ⟨0, 0x00000303, 0xDDCCBBAA, 0xFFFFFFFF⟩ 3 = (0, [0xAA, 0xBB, 0xCC], true) ∧
    decodeBulkRead ⟨0, 0x80000803, 0x04030201, 0x08070605⟩ 8 = (0x80, [], false) ∧
    decodeBulkWrite ⟨0, 0x7F000504, 0xDEADBEEF, 0xCAFEF00D⟩ = 0x7F := by decide

/-! ## DEC.* on a slot (Q2, Q3, Q11, Q12) -/

theorem test_decRead_Q12 : ∃ t, exec (.decRead h0) (withSlot h0 (doneWith ⟨0x2110, 0x00005A00, 0, 0x64⟩)) = .next t ∧
    t.port = some (.rcValue 0x00 0x5A) ∧ t.slot h0 = Slot.free := ⟨_, rfl, by decide, by decide⟩
theorem test_decRead_Q11 : exec (.decRead h0) { withSlot h0 (doneWith resp) with inputs := io 1 0 } = .fault .fSeq := rfl
theorem test_decWrite : ∃ t, exec (.decWrite h0) (withSlot h0 (doneWith ⟨0, 0xFF000001, 0, 0⟩)) = .next t ∧
    t.port = some (.rc 0xFF) := ⟨_, rfl, by decide⟩
theorem test_decWrite_Q3 : exec (.decWrite h0) (withSlot h0 loaded) = .fault .fSeq := rfl
theorem test_decUpdate : ∃ t, exec (.decUpdate h0) (withSlot h0 (doneWith ⟨0, 0x020FAA02, 0, 0⟩)) = .next t ∧
    t.port = some (.rc 0x02) := ⟨_, rfl, by decide⟩
theorem test_decBread_DV12 : ∃ t, exec (.decBread h0 4) (withSlot h0 (doneWith ⟨0, 0x00000203, 0x44332211, 0⟩)) = .next t ∧
    t.port = some (.rcBytes 0 [0x11, 0x22, 0x33, 0x44] true) := ⟨_, rfl, by decide⟩
theorem test_decBread_count9 : exec (.decBread h0 9) (ready 0) = .refused (.badRequest .countOver8) := rfl
theorem test_decBwrite : ∃ t, exec (.decBwrite h0) (withSlot h0 (doneWith ⟨0, 0x7F000504, 1, 2⟩)) = .next t ∧
    t.port = some (.rc 0x7F) := ⟨_, rfl, by decide⟩

/-! ## INIT, RESOLVE, SEND, WAIT (sections 2.3 and 2.4) -/

theorem test_init_T2 : ∃ t, exec .init { fresh 0x00F0 with inputs := { io 0 0 with handles := [h0, h1, h2, h3] } } = .next t ∧
    t.nchanR = some 4 ∧ t.chans = [h0, h1, h2, h3] ∧ t.imrAllMasked = true ∧ t.life = .ready ∧ t.dbr = 0 :=
  ⟨_, rfl, by decide, by decide, rfl, rfl, rfl⟩
theorem test_init_T5 : exec .init (ready 0) = .fault .fReinit := rfl
/-- A draw that repeats a handle, and is too short, still gives distinct channels (R89; log 5). -/
theorem test_init_distinct : (chooseHandles 3 [h1, h1] []).Nodup ∧ (chooseHandles 3 [h1, h1] []).length = 3 := by decide
theorem test_resolve_T8 : ∃ t, exec (.resolve h3) (ready 0) = .next t ∧ t.port = some (.index 3) := ⟨_, rfl, by decide⟩
theorem test_resolve_T6 : ∃ t, exec (.resolve h0) (fresh 0x000F) = .next t ∧ t.port = some (.err .notReady) :=
  ⟨_, rfl, by decide⟩
/-- S8: bit 3 of 0000A5A5. -/
theorem test_send_S8 : ∃ t, exec (.send h3) { withSlot h3 loaded with dbr := 0x0000A5A5 } = .next t ∧
    t.dbr = 0x0000A5AD ∧ (t.slot h3).phase = .sent ∧ (t.slot h3).sent = some reqWords :=
  ⟨_, rfl, by decide, by decide, by decide⟩
theorem test_send_S7 : ∃ t, exec (.send hx) { withSlot hx loaded with dbr := 0x12345678 } = .next t ∧
    t.port = some (.err .inval) ∧ t.dbr = 0x12345678 ∧ t.slot hx = Slot.free := ⟨_, rfl, by decide, by decide, by decide⟩
theorem test_wait_Q8 : ∃ t, exec (.wait h0) (withSlot h0 failedOne) = .next t ∧ t.port = some (.err .xfer) ∧
    t.slot h0 = Slot.free := ⟨_, rfl, rfl, by decide⟩
theorem test_wait_Q7 : ∃ t, exec (.wait h0) (withSlot h0 sentOne) = .next t ∧ t.port = some .hold ∧
    t.slot h0 = sentOne := ⟨_, rfl, rfl, by decide⟩

/-! ## The environment and the far end (sections 2.4 and 2.6) -/

theorem test_dbclear_Q16 : ∃ t, step { withSlot h0 sentOne with dbr := 3, schedule := [.dbclear 1] } = .next t ∧
    t.dbr = 2 := ⟨_, rfl, by decide⟩
theorem test_peer_P1 : let P := peerWrite [] 1 2 0x30 0x5C;
    peerRead (peerRegisters P .update ⟨0x00001230, 0x000FAA02, 0, 0x64⟩) 1 2 0x30 = 0x5A ∧
    (peerResponse P .update ⟨0x00001230, 0x000FAA02, 0, 0x64⟩).w1 = 0x000FAA02 := by decide
theorem test_peer_P4 : let P := peerWriteBulk [] 0 3 0xFE [0x10, 0x20, 0x30, 0x40];
    peerRead P 0 3 0x01 = 0x40 ∧
    peerResponse P .bulkRead ⟨0x000003FE, 0x00000403, 0, 0⟩ = ⟨0x000003FE, 0x00000403, 0x40302010, 0⟩ := by decide

/-! ## Storage (20_memory.md R32, R33) -/

theorem test_storage_big : bufferBytes .big ⟨0x00001240, 0x00000504, 0x44332211, 0x00000055⟩ =
    [0, 0, 0x12, 0x40, 0, 0, 0x05, 0x04, 0x44, 0x33, 0x22, 0x11, 0, 0, 0, 0x55] := by decide

/-! ## Steps: a word fetched after reset, and a caller's line -/

theorem test_step_init : ∃ t, step (State.reset.withFetchWord 8 0x10) = .next t ∧ t.life = .ready ∧ t.port = some .done :=
  ⟨_, rfl, rfl, rfl⟩
theorem test_step_wait : step (State.reset.withFetchWord 8 0x13) = .fault .fSeq := rfl
theorem test_step_reserved : step (State.reset.withFetchWord 8 0x1F) = .refused (.badRequest .reservedOpsel) := rfl

/-! ## The assembler (R65, R66) -/

theorem test_assemble_update : assembleLine "ENC.UPDATE h2, 2, 0x30, 1, 0xAA, 0x0F ; a comment".toList =
    .ok [⟨0x02, h2, 2, 0x30, 1, 0xAA, 0x0F, 0, []⟩] := by rfl
theorem test_assemble_pmic : assembleLine "PMIC.READ h2, 2, 0x30, 1 -> rc, v".toList =
    .ok [⟨0x00, h2, 2, 0x30, 1, 0, 0, 0, []⟩, Request.bare 0x12 |> fun q => { q with h := h2 },
      Request.bare 0x13 |> fun q => { q with h := h2 }, Request.bare 0x08 |> fun q => { q with h := h2 }] := by rfl

/-! ## Witnesses: the operation-select port and the wire format -/

/-- A well-formed instruction at the ends of its ranges. -/
def bw8 : Instr := .encBwrite h0 0xF 0xFF 0xF 8 [1, 2, 3, 4, 5, 6, 7, 0xFF]

theorem witness_OpselValuesNameOperations : ((0x05 : BitVec 5) ≤ 0x05 ∧ (0x05 : BitVec 5) ≤ 0x07) ∧
    ((0x0D : BitVec 5) ≤ 0x0F ∧ (0x0F : BitVec 5) ≤ 0x0F) ∧ ((0x14 : BitVec 5) ≤ 0x1F ∧ (0x1F : BitVec 5) ≤ 0x1F) := by
  decide
theorem witness_DecodeOfEncodeIsIdentity : bw8.wellFormed = true ∧ (Instr.encBread h0 0 0 0 0).wellFormed = true := by decide
theorem witness_DecodedOperandsAreThePorts :
    decode ⟨0x01, h0, 15, 255, 15, 255, 0, 0, []⟩ = .ok (.encWrite h0 0xF 0xFF 0xF 0xFF) ∧
    decode ⟨0x02, h0, 15, 255, 15, 255, 255, 0, []⟩ = .ok (.encUpdate h0 0xF 0xFF 0xF 0xFF 0xFF) ∧
    decode ⟨0x03, h0, 15, 255, 15, 0, 0, 8, []⟩ = .ok (.encBread h0 0xF 0xFF 0xF 8) ∧
    decode ⟨0x04, h0, 15, 255, 15, 0, 0, 1, [255]⟩ = .ok (.encBwrite h0 0xF 0xFF 0xF 1 [0xFF]) ∧
    decode ⟨0x0B, h0, 0, 0, 0, 0, 0, 8, []⟩ = .ok (.decBread h0 8) := by decide
/-- One request for each clause, at the first value outside the range. -/
theorem witness_RequestsOutsideTheFormsAreRefused :
    32 ≤ (Request.bare 32).opsel ∧ ((Request.bare 0x1F).opsel < 32 ∧ opcodeOf? 0x1F = none) ∧
    (let r : Request := ⟨0x04, h0, 16, 0, 0, 0, 0, 0, []⟩; r.opsel ≤ 0x04 ∧ 16 ≤ r.ty) ∧
    (let r : Request := ⟨0x00, h0, 0, 256, 0, 0, 0, 0, []⟩; r.opsel ≤ 0x04 ∧ 256 ≤ r.reg) ∧
    (let r : Request := ⟨0x00, h0, 0, 0, 16, 0, 0, 0, []⟩; r.opsel ≤ 0x04 ∧ 16 ≤ r.chid) ∧
    (let r : Request := ⟨0x01, h0, 0, 0, 0, 256, 0, 0, []⟩; r.opsel = 0x01 ∧ 256 ≤ r.value) ∧
    (let r : Request := ⟨0x02, h0, 0, 0, 0, 0, 256, 0, []⟩; r.opsel = 0x02 ∧ 256 ≤ r.mask) ∧
    (let r : Request := ⟨0x0B, h0, 0, 0, 0, 0, 0, 9, []⟩; r.opsel = 0x0B ∧ 8 < r.count) ∧
    (let r : Request := ⟨0x04, h0, 0, 0, 0, 0, 0, 1, [256]⟩; r.opsel = 0x04 ∧ ∃ b ∈ r.bytes, 256 ≤ b) ∧
    (let r : Request := ⟨0x04, h0, 0, 0, 0, 0, 0, 2, [1]⟩; r.opsel = 0x04 ∧ r.bytes.length ≠ r.count) ∧
    (let s := State.present (ready 0) (Request.bare 0x05);
      s.schedule = [.caller (io 0 0)] ∧ nextRequest? (s.callerOf 0).program = some (Request.bare 0x05) ∧
        decode (Request.bare 0x05) = .error .reservedOpsel) := by decide
/-- `DEC.READ h -> rc, value`, a byte list that fits its count and one that does not, and a comment. -/
theorem witness_WrittenLineAssembles :
    ResultsFit (resultCount (Instr.decRead h0).opcode) (resultsTokens [['r', 'c'], ['v', 'a', 'l', 'u', 'e']]) ∧
    ResultsFit (resultCount (.dec (Pmic.bwrite h0 0 0 0 2 [1, 2]).kind)) (resultsTokens [['r', 'c']]) ∧
    ResultsFit (resultCount bw8.opcode) [] ∧ IsComment [] ∧ IsComment "; a comment".toList ∧ bw8.listFits = true ∧
    (Instr.encBwrite h0 0 0 0 3 [1, 2]).listFits = false ∧ (Pmic.bwrite h0 0 0 0 2 [1, 2]).encodeOp.listFits = true ∧
    (Pmic.bwrite h0 0 0 0 3 [1, 2]).encodeOp.listFits = false ∧
    lineText (nameOf mnemonics (Instr.decRead h0).opcode)
        (operandTokens (Instr.decRead h0) ++ resultsTokens [['r', 'c'], ['v', 'a', 'l', 'u', 'e']]) "; a".toList =
      "DEC.READ h0 -> rc, value; a".toList := by
  have rc : IsName ['r', 'c'] := ⟨⟨'r', rfl, rfl⟩, by simp⟩
  have value : IsName ['v', 'a', 'l', 'u', 'e'] := ⟨⟨'v', rfl, rfl⟩, by simp⟩
  exact ⟨.inr ⟨_, rfl, by simpa using ⟨rc, value⟩, rfl⟩, .inr ⟨_, rfl, by simpa using rc, rfl⟩, .inl rfl, .inl rfl,
    .inr ⟨_, rfl⟩, by decide, by decide, by decide, by decide, by decide⟩
/-- The first and last bits of the fields, and the bits next to them. -/
theorem witness_FieldsReadAndPutTheirBits :
    (putType 0 0xF).toNat = 0xF00 ∧ (putChid 0xFFFFFFFF 0).toNat = 0xFFFF0FFF ∧ (putReg 0xFFFFFFFF 0).toNat = 0xFFFFFF00 ∧
    (putValue 0 0xFF).toNat = 0xFF00 ∧ (putMask 0 0xFF).toNat = 0xFF0000 ∧ (putRc 0 0xFF).toNat = 0xFF000000 := by decide
theorem witness_BulkByteOccupiesItsLane : (getByte resp 0 = 0x01 ∧ 0 < 8) ∧ (getByte resp 7 = 0x08 ∧ 7 < 8) ∧
    (putByte resp 7 0xFF).w3 = 0xFF070605 := by decide
theorem witness_FieldsAreIsolated : (0 < 8 ∧ 7 < 8) ∧ getByte (putByte resp 3 0xFF) 4 = 0x05 := by decide
theorem witness_FuncCodesAreTheTable : bw8.wellFormed = true ∧ bw8.opcode = .enc .bulkWrite ∧
    encodedWords 0 bw8 = some ⟨0x0000FFFF, 0x00000804, 0x04030201, 0xFF070605⟩ := by decide
theorem witness_EncodersZeroUndefinedBits : (Instr.encBwrite h0 0 0 0 1 [0xAB]).wellFormed = true ∧
    encodedWords 7 (.encBwrite h0 0 0 0 1 [0xAB]) = some ⟨0, 0x00000104, 0xAB, 0⟩ := by decide
theorem witness_BulkBytesRoundTrip : [1, 2, 3, 4, 5, 6, 7, (8 : Byte)].length ≤ 8 ∧
    getRc (⟨0x3580, 0x00000804, 0, 0⟩ : Words).w1 = 0 := by decide
theorem witness_BulkByteOffsetInStorage : (bufferBytes .big resp)[bulkOffset .big 0]? = some 0x01 ∧
    (bufferBytes .little resp)[bulkOffset .little 7]? = some 0x08 := by decide
/-- S2: the request, and an echo with another return code and value. -/
theorem witness_HeaderReadsBackAfterExchange :
    encodedWords 0 (.encRead h0 0xA 0x5C 3) = some ⟨0x00003A5C, 0, 0, 0⟩ ∧
    wireHeader (.encRead h0 0xA 0x5C 3) = some (0xA, 0x5C, 3) ∧
    CorrectPeerEcho ⟨0x00003A5C, 0, 0, 0⟩ ⟨0x00003A5C, 0x11009900, 0, 0⟩ :=
  ⟨by decide, by decide, rfl, by decide, by decide, fun _ => ⟨rfl, rfl⟩⟩

/-! ## Witnesses: ENC.* and DEC.* -/

theorem witness_PureReadEncoderWords :
    (let r : Request := ⟨0x00, h0, 15, 255, 15, 0, 0, 0, []⟩; r.opsel = 0x00 ∧ r.ty < 16 ∧ r.reg < 256 ∧ r.chid < 16) ∧
    (let r : Request := ⟨0x00, h0, 16, 255, 15, 0, 0, 0, []⟩; r.opsel = 0x00 ∧ 16 ≤ r.ty) := by decide
theorem witness_EncReadLoadsItsRequest : ((ready 0x64).slot h0).phase = .free := rfl
theorem witness_EncWriteLoadsItsRequest : ((ready 0x64).slot h1).phase = .free := rfl
theorem witness_EncUpdateLoadsItsRequest : ((ready 0x64).slot h2).phase = .free := rfl
theorem witness_EncBreadLoadsItsRequest : 8 ≤ 8 ∧ 0 ≤ 8 ∧ ((ready 0x64).slot h3).phase = .free := ⟨by decide, by decide, rfl⟩
theorem witness_EncBwriteLoadsItsRequest : (0 ≤ 8 ∧ ([] : List Byte).length = 0) ∧
    (8 ≤ 8 ∧ [1, 2, 3, 4, 5, 6, 7, (8 : Byte)].length = 8) ∧ ((ready 0x64).slot hx).phase = .free :=
  ⟨by decide, by decide, rfl⟩
theorem witness_HeldSlotIsNotEncoded : (Instr.encRead h0 0 0 0).opcode = .enc .read ∧
    (Instr.encRead h0 0 0 0).handle? = some h0 ∧ (Instr.encRead h0 0 0 0).wellFormed = true ∧
    ((withSlot h0 loaded).slot h0).phase ≠ .free ∧
    ((withSlot h0 loaded).slot h0).owner = some (withSlot h0 loaded).inputs.caller ∧
    (let s := { withSlot h0 loaded with inputs := io 1 0 };
      (s.slot h0).phase ≠ .free ∧ (s.slot h0).owner ≠ some s.inputs.caller) := by decide
/-- Two states that differ in the transport, another slot and the bits of the clock above 32. -/
theorem witness_EncodeIgnoresEverythingElse : let s := withSlot h1 loaded; let s' := { fresh 0 with inputs := io 0 0x100000064 };
    s'.slot h0 = s.slot h0 ∧ s'.inputs.caller = s.inputs.caller ∧
    s'.inputs.clockMs % 2 ^ 32 = s.inputs.clockMs % 2 ^ 32 ∧ ∃ t, exec (.encRead h0 1 0x10 2) s = .next t :=
  ⟨by decide, by decide, by decide, _, rfl⟩
theorem witness_DecReadReturnsCodeAndValue : let s := withSlot h0 (doneWith resp);
    (s.slot h0).phase = .done ∧ (s.slot h0).owner = some s.inputs.caller ∧
    (s.slot h0).cb = ⟨some 0x00002110, some 0x12AB3400, some 0x04030201, some 0x08070605⟩ := by decide
theorem witness_DecStatusReturnsCode : let s := withSlot h1 (doneWith resp);
    (s.slot h1).phase = .done ∧ (s.slot h1).owner = some s.inputs.caller ∧
    (s.slot h1).cb = ⟨some 0x00002110, some 0x12AB3400, some 0x04030201, some 0x08070605⟩ := by decide
/-- Both return codes, with the count at its ends, and the first count above them. -/
theorem witness_DecBreadReturnsPayloadOnlyOnSuccess : 8 < 9 ∧ 8 ≤ 8 ∧ 0 ≤ 8 ∧
    (let s := withSlot h0 (doneWith resp);
      (s.slot h0).phase = .done ∧ (s.slot h0).owner = some s.inputs.caller ∧ (s.slot h0).cb = .ofWords resp) ∧
    (let r : Words := ⟨0, 0x00000803, 1, 2⟩; let s := withSlot h0 (doneWith r);
      (s.slot h0).phase = .done ∧ (s.slot h0).owner = some s.inputs.caller ∧ (s.slot h0).cb = .ofWords r) := by decide
theorem witness_DecodersIgnoreEverythingElse : let W : Words := ⟨1, 0x00AA3400, 0x04030201, 0⟩; let W' : Words := ⟨2, 0x000034FE, 0xFF030201, 9⟩;
    getRc W.w1 = getRc W'.w1 ∧ getValue W.w1 = getValue W'.w1 ∧ (∀ j, j < 3 → getByte W j = getByte W' j) ∧
    getRc resp.w1 ≠ 0 := by decide

/-! ## Witnesses: INIT, RESOLVE, SEND, WAIT -/

theorem atIndex_ready : AtIndex (ready 0) h0 0 ∧ AtIndex (ready 0) h3 3 :=
  ⟨⟨⟨4, rfl, by decide⟩, rfl, by decide⟩, ⟨⟨4, rfl, by decide⟩, rfl, by decide⟩⟩

theorem foreign_ready : Foreign (ready 0) hx := by
  intro n hn m hm
  cases hn
  have hd : ∀ m, m < 4 → (ready 0).chans[m]? ≠ some hx := by decide
  exact hd m hm

/-- Positions depend on the channel count and the channel set alone. -/
theorem atIndex_congr {s t : State} {h : Handle} {j : Nat} (a : AtIndex s h j) (hn : t.nchanR = s.nchanR)
    (hc : t.chans = s.chans) : AtIndex t h j :=
  ⟨hn ▸ a.count, hc ▸ a.found, hc ▸ a.first⟩

theorem foreign_congr {s t : State} {h : Handle} (a : Foreign s h) (hn : t.nchanR = s.nchanR) (hc : t.chans = s.chans) :
    Foreign t h := by
  intro n hn' m hm
  rw [hc]
  exact a n (hn ▸ hn') m hm

theorem witness_InitBringsUpTransport : (fresh 0xFFFF).life = .uninitialized ∧
    ([h0, h1, h2, h3].Nodup ∧ [h0, h1, h2, h3].length = popcount 0x000F#16) := by decide
theorem witness_ChannelCountIsPopulationCount : (fresh 0x8001).life = .uninitialized ∧
    ∃ t, exec .init (fresh 0x8001) = .next t ∧ t.nchanR = some 2 := ⟨rfl, _, rfl, by decide⟩
theorem witness_ResolveFindsPosition : ((ready 0).life = .ready ∧ AtIndex (ready 0) h0 0 ∧ AtIndex (ready 0) h3 3) ∧
    Foreign (ready 0) hx ∧ (fresh 0).life = .uninitialized := ⟨⟨rfl, atIndex_ready⟩, foreign_ready, rfl⟩
theorem witness_SendRingsTheIndexBit : let s := withSlot h3 loaded;
    (s.slot h3).phase = .loaded ∧ (s.slot h3).owner = some s.inputs.caller ∧ (s.slot h3).cb = .ofWords reqWords ∧
    s.life = .ready ∧ AtIndex s h3 3 ∧ s.inputs.reject = false :=
  ⟨by decide, by decide, by decide, rfl, atIndex_congr atIndex_ready.2 rfl rfl, rfl⟩
theorem witness_SendErrorEndsTransfer :
    (let s := (fresh 0x000F).setSlot h0 loaded;
      (s.slot h0).phase = .loaded ∧ (s.slot h0).owner = some s.inputs.caller ∧ s.life = .uninitialized) ∧
    (let s := withSlot hx loaded;
      (s.slot hx).phase = .loaded ∧ (s.slot hx).owner = some s.inputs.caller ∧ s.life = .ready ∧ Foreign s hx) ∧
    (let s := { withSlot h3 loaded with inputs := ⟨0, 0, true, true, []⟩ };
      (s.slot h3).phase = .loaded ∧ (s.slot h3).owner = some s.inputs.caller ∧ s.life = .ready ∧ AtIndex s h3 3 ∧
        s.inputs.reject = true) :=
  ⟨by decide, ⟨by decide, by decide, rfl, foreign_congr foreign_ready rfl rfl⟩,
    ⟨by decide, by decide, rfl, atIndex_congr atIndex_ready.2 rfl rfl, rfl⟩⟩
/-- T14: two callers' sends. -/
theorem witness_SendsOnDistinctSlotsCommute : h1 ≠ h2 ∧
    ∃ a b, exec (.send h1) { (withSlot h1 loaded).setSlot h2 (loadedSlot .read reqWords 1) with inputs := io 0 0 } = .next a ∧
      exec (.send h2) { a with inputs := io 1 0 } = .next b ∧ b.dbr = 6 := ⟨by decide, _, _, rfl, rfl, by decide⟩
theorem witness_WaitFollowsThePhase : let s := withSlot h0 (doneWith resp); let u := withSlot h0 sentOne; let v := withSlot h0 failedOne;
    ((s.slot h0).owner = some s.inputs.caller ∧ (s.slot h0).phase = .done) ∧
    ((u.slot h0).owner = some u.inputs.caller ∧ (u.slot h0).phase = .sent) ∧
    ((v.slot h0).owner = some v.inputs.caller ∧ (v.slot h0).phase = .failed) := by decide

/-! ## Witnesses: errors, faults and refusals -/

/-- A slot in phase DONE with one word unwritten, as no run leaves it. -/
def halfDone : Slot := ⟨.done, some .read, ⟨some 0, some 0, some 0, none⟩, some reqWords, some 0⟩
def halfLoaded : Slot := ⟨.loaded, some .read, ⟨none, some 0, some 0, some 0⟩, none, some 0⟩

theorem witness_UnwrittenWordIsNeverRead :
    (let s := withSlot h0 halfDone;
      (s.slot h0).owner = some s.inputs.caller ∧ (s.slot h0).cb.c3 = none ∧ (s.slot h0).phase = .done ∧
        exec (.decWrite h0) s = .fault .fUnwritten) ∧
    (let s := withSlot h0 halfLoaded;
      (s.slot h0).owner = some s.inputs.caller ∧ (s.slot h0).cb.c0 = none ∧ (s.slot h0).phase = .loaded ∧ s.life = .ready ∧
        AtIndex s h0 0 ∧ s.inputs.reject = false ∧ exec (.send h0) s = .fault .fUnwritten) :=
  ⟨⟨by decide, by decide, by decide, rfl⟩,
    ⟨by decide, by decide, by decide, rfl, atIndex_congr atIndex_ready.1 rfl rfl, rfl, rfl⟩⟩
theorem witness_TwoErrorLayersStayApart :
    (∃ t, exec (.resolve hx) (ready 0) = .next t ∧ t.port = some (.err .inval)) ∧
    (∃ t, exec (.decWrite h0) (withSlot h0 (doneWith resp)) = .next t ∧ t.port = some (.rc 0x12)) :=
  ⟨⟨_, rfl, by decide⟩, ⟨_, rfl, by decide⟩⟩
theorem witness_TransportErrorsHaveTheirCauses :
    (∃ t, exec (.send h0) ((fresh 0).setSlot h0 loaded) = .next t ∧ t.port = some (.err .notReady)) ∧
    (∃ t, exec (.send hx) (withSlot hx loaded) = .next t ∧ t.port = some (.err .inval)) ∧
    (∃ t, exec (.send h0) { withSlot h0 loaded with inputs := ⟨0, 0, true, false, []⟩ } = .next t ∧
      t.port = some (.err .dbRejected)) ∧
    (∃ t, exec (.wait h0) (withSlot h0 failedOne) = .next t ∧ t.port = some (.err .xfer)) :=
  ⟨⟨_, rfl, by decide⟩, ⟨_, rfl, by decide⟩, ⟨_, rfl, by decide⟩, ⟨_, rfl, by decide⟩⟩
theorem witness_NoReturnCodeAfterTransportError :
    (∃ t, exec (.send hx) (withSlot hx loaded) = .next t ∧ t.port = some (.err .inval)) ∧
    (∃ t, exec (.wait h0) (withSlot h0 failedOne) = .next t ∧ t.port = some (.err .xfer)) ∧
    (Instr.decBread h0 8).opcode = .dec .bulkRead ∧ (Instr.decBread h0 8).handle? = some h0 ∧
    (Instr.decBread h0 8).wellFormed = true ∧ (Instr.decWrite hx).opcode = .dec .write ∧
    (Instr.decWrite hx).handle? = some hx ∧ (Instr.decWrite hx).wellFormed = true :=
  ⟨⟨_, rfl, by decide⟩, ⟨_, rfl, by decide⟩, rfl, rfl, by decide, rfl, rfl, rfl⟩

/-! ## Witnesses: the whole machine -/

/-- Caller 0's program is one line of three operations, the last two RESOLVE h0; its step is scheduled. -/
def running (opsel : Nat) (sl : Slot) : State :=
  { (withSlot h0 sl).setCaller 0 ⟨[[Request.bare opsel, Request.bare 0x11, Request.bare 0x11]], []⟩ with
    schedule := [.caller (io 0 0)] }

theorem witness_StepRunsDecodedInstruction : (running 0x11 Slot.free).schedule = [.caller (io 0 0)] ∧
    nextRequest? ((running 0x11 Slot.free).callerOf 0).program = some (Request.bare 0x11) ∧
    decode (Request.bare 0x11) = .ok (.resolve h0) ∧ decodeTableWord 8 0x11 = some (.resolve h0) := by decide
/-- The three kinds of reply: RESOLVE gives an index, WAIT on SENT holds, WAIT on FAILED gives an error. -/
theorem witness_ReplyIsFiledWithItsCaller :
    (∃ u, exec (.resolve h0) { running 0x11 Slot.free with schedule := [], inputs := io 0 0 } = .next u ∧
      u.port = some (.index 0)) ∧
    (∃ u, exec (.wait h0) { running 0x13 sentOne with schedule := [], inputs := io 0 0 } = .next u ∧
      u.port = some .hold) ∧
    (∃ u, exec (.wait h0) { running 0x13 failedOne with schedule := [], inputs := io 0 0 } = .next u ∧
      u.port = some (.err .xfer)) ∧
    decode (Request.bare 0x13) = .ok (.wait h0) ∧
    ((running 0x13 sentOne).callerOf 0).program = [Request.bare 0x13, Request.bare 0x11, Request.bare 0x11] :: [] :=
  ⟨⟨_, rfl, by decide⟩, ⟨_, rfl, by decide⟩, ⟨_, rfl, by decide⟩, by decide, by decide⟩
theorem witness_ExchangeStepsAnswerASentSlot :
    (let s := { withSlot h0 sentOne with schedule := [.respond h0 resp] };
      s.schedule = .respond h0 resp :: [] ∧ (s.slot h0).phase = .sent) ∧
    (let s := { withSlot h0 loaded with schedule := [.respond h0 resp] };
      s.schedule = .respond h0 resp :: [] ∧ (s.slot h0).phase ≠ .sent) ∧
    (let s := { withSlot h0 sentOne with schedule := [.fail h0] };
      s.schedule = .fail h0 :: [] ∧ (s.slot h0).phase = .sent) := by decide
theorem witness_RemoteClearsDoorbellBits :
    ({ ready 0 with dbr := 3, schedule := [.dbclear 1] } : State).schedule = .dbclear 1 :: [] := rfl
theorem witness_OnlyInitWritesLife : ∃ t, step (State.present (fresh 0x000F) (Request.bare 0x10)) = .next t ∧
    t.life ≠ (fresh 0x000F).life := ⟨_, rfl, by decide⟩
theorem witness_ChannelSetNeverChanges : ∃ t, step (running 0x11 Slot.free) = .next t ∧
    (running 0x11 Slot.free).life = .ready := ⟨_, rfl, rfl⟩
theorem witness_BlockOnlySetsChannelBits : ∃ t, exec (.send h3) { withSlot h3 loaded with dbr := 0x80000001 } = .next t ∧
    t.dbr = 0x80000009 ∧ (withSlot h3 loaded).nchanR.getD 0 ≤ 4 := ⟨_, rfl, by decide, by decide⟩
theorem witness_HeldSlotIsExclusive : let s := { withSlot h0 loaded with inputs := io 1 0 };
    (∃ t, exec (.encRead h0 0 0 0) s = .next t) ∧ (s.slot h0).phase ≠ .free ∧
    (s.slot h0).owner ≠ some s.inputs.caller := ⟨⟨_, rfl⟩, by decide, by decide⟩
/-- A move by the slot's new owner and by its owner, by RESPOND and by FAIL. -/
theorem witness_PhaseMovesOnlyByTheTable :
    (∃ t, step (running 0x00 Slot.free) = .next t ∧ t.slot h0 = { loaded with cb := .ofWords ⟨0, 0, 0, 0⟩ }) ∧
    (∃ t, step (running 0x13 failedOne) = .next t ∧ (t.slot h0).phase = .free ∧
      ((running 0x13 failedOne).slot h0).owner = some 0) ∧
    (∃ t, step { withSlot h0 sentOne with schedule := [.respond h0 resp] } = .next t ∧ (t.slot h0).phase = .done) ∧
    (∃ t, step { withSlot h0 sentOne with schedule := [.peerRespond h0] } = .next t ∧ (t.slot h0).phase = .done) ∧
    (∃ t, step { withSlot h0 sentOne with schedule := [.fail h0] } = .next t ∧ (t.slot h0).phase = .failed) :=
  ⟨⟨_, rfl, by decide⟩, ⟨_, rfl, by decide⟩, ⟨_, rfl, by decide⟩, ⟨_, rfl, by decide⟩, ⟨_, rfl, by decide⟩⟩

theorem isRequest_reqWords : IsRequest .read reqWords where
  header := by decide
  func := by decide
  rcZero := by decide
  maskZero := fun _ => by decide
  valueZero := fun _ => by decide
  count := by simp
  w2Zero := fun _ => rfl
  w3Zero := by simp
  lanesZero := by simp

/-- A slot in flight meets the invariant. -/
theorem inv_sent : Inv (withSlot h0 sentOne) where
  slotsWf := by decide
  callersWf := by decide
  peerWf := by decide
  slotOk := by
    intro h
    rw [withSlot, slot_setSlot]
    split
    · exact ⟨.read, reqWords, 0, isRequest_reqWords, rfl⟩
    · rfl
  transportOk := ⟨by decide, by decide, by decide, rfl⟩

theorem inv_sent_schedule (q : List AgentStep) : Inv { withSlot h0 sentOne with schedule := q } :=
  ⟨inv_sent.slotsWf, inv_sent.callersWf, inv_sent.peerWf, inv_sent.slotOk, inv_sent.transportOk⟩

theorem witness_EveryStepKeepsInvariant : Inv { withSlot h0 sentOne with schedule := [.respond h0 resp] } ∧
    ∃ t, step { withSlot h0 sentOne with schedule := [.respond h0 resp] } = .next t ∧ (t.slot h0).phase = .done :=
  ⟨inv_sent_schedule _, _, rfl, by decide⟩
theorem witness_UnwrittenFaultCannotOccur : Inv (withSlot h0 sentOne) ∧ Inv State.reset :=
  ⟨inv_sent, by decide, by decide, by decide, fun _ => rfl, rfl, rfl⟩

/-- A run that starts with a slot in flight and its response scheduled, and idles after it. -/
def fairRun : Nat → State
  | 0 => { withSlot h0 sentOne with schedule := [.respond h0 resp] }
  | _ + 1 => respond h0 resp (withSlot h0 sentOne)

theorem witness_FairExchangeEndsEverySend : IsRun fairRun ∧ ExchangeFair fairRun ∧
    ((fairRun 0).slot h0).phase = .sent := by
  refine ⟨fun n => ?_, fun h n stay => ?_, by decide⟩
  · cases n with
    | zero => rfl
    | succ n => rfl
  · exfalso
    have late : ((fairRun (n + 1)).slot h).phase = .sent := stay (n + 1) (by omega)
    have here : (respond h0 resp (withSlot h0 sentOne)).slots = [(0, doneWith resp)] := by decide
    simp only [fairRun, State.slot, here, Sparse.lookup] at late
    split at late <;> cases late

/-! ## Witnesses: whole transfers and the far end -/

/-- The pseudo-operation PMIC.BREAD h3, 2, 0x40, 1, 8. -/
def pmic : Pmic := .bread h3 2 0x40 1 8

/-- `ready` with `p` as caller 0's program, RESOLVE h0 as caller 1's, and the given schedule. -/
def issuing (p : Pmic) (q : List AgentStep) : State :=
  { ((ready 0).setCaller 0 ⟨[p.line], []⟩).setCaller 1 ⟨[[Request.bare 0x11]], []⟩ with schedule := q }

/-- The four operations and the RESPOND with nothing between them. -/
theorem witness_PseudoOperationReturnsDecodedResponse :
    let s := issuing pmic [.caller (io 0 0), .caller (io 0 0), .respond h3 resp, .caller (io 0 0), .caller (io 0 0)]
    pmic.encodeOp.wellFormed = true ∧ (io 0 0).reject = false ∧ (s.slot h3).phase = .free ∧ s.life = .ready ∧
    AtIndex s h3 3 ∧ (s.callerOf 0).program = pmic.line :: [] ∧
    ∃ t, Sys2Proof.core.run 5 s = .next t ∧
      t.callerOf 0 = ⟨[], [.rcBytes 0x12 [] false, .done, .done, .done]⟩ ∧ t.dbr = 8 :=
  ⟨by decide, rfl, rfl, rfl, atIndex_congr atIndex_ready.2 rfl rfl, by decide, _, rfl, by decide, by decide⟩
/-- A DBCLEAR, a held WAIT and another caller's RESOLVE between them. -/
theorem witness_PseudoOperationReturnsDecodedResponse_interleaved :
    let e1 : List AgentStep := [.dbclear 8]
    let e2 : List AgentStep := [.caller (io 0 0)]
    let e3 : List AgentStep := [.caller (io 1 0)]
    let s := issuing pmic (.caller (io 0 0) :: e1 ++ .caller (io 0 0) :: e2 ++ .respond h3 resp :: e3 ++
      .caller (io 0 0) :: [] ++ .caller (io 0 0) :: [])
    (∀ a ∈ e1 ++ e3 ++ [], ¬a.ByCaller 0) ∧ (∀ a ∈ e2, ¬a.Answers h3) ∧ (s.slot h3).phase = .free ∧ AtIndex s h3 3 ∧
    (s.callerOf 0).program = pmic.line :: [] ∧
    ∃ t, Sys2Proof.core.run (1 + 1 + 1 + 0 + 5) s = .next t ∧ (t.callerOf 1).returned = [.index 0] :=
  ⟨by simp [AgentStep.ByCaller, io], by simp [AgentStep.Answers], rfl, atIndex_congr atIndex_ready.2 rfl rfl, by decide,
    _, rfl, by decide⟩
/-- E_NOT_READY, E_INVAL, E_DB_REJECTED and E_XFER. -/
theorem witness_PseudoOperationStopsAtFirstError :
    (let s := { (fresh 0).setCaller 0 ⟨[pmic.line], []⟩ with schedule := [.caller (io 0 0), .caller (io 0 0)] };
      (s.slot h3).phase = .free ∧ s.life = .uninitialized ∧ (s.callerOf 0).program = pmic.line :: []) ∧
    (let p : Pmic := .read hx 0 0 0; let s := issuing p [.caller (io 0 0), .caller (io 0 0)];
      p.encodeOp.wellFormed = true ∧ (s.slot hx).phase = .free ∧ s.life = .ready ∧ Foreign s hx ∧
        (s.callerOf 0).program = p.line :: []) ∧
    (let io2 : Inputs := ⟨0, 0, true, false, []⟩; let s := issuing pmic [.caller (io 0 0), .caller io2];
      io2.caller = (io 0 0).caller ∧ (s.slot h3).phase = .free ∧ s.life = .ready ∧ AtIndex s h3 3 ∧ io2.reject = true ∧
        (s.callerOf 0).program = pmic.line :: []) ∧
    (let s := issuing pmic [.caller (io 0 0), .caller (io 0 0), .fail h3, .caller (io 0 0)];
      pmic.encodeOp.wellFormed = true ∧ (s.slot h3).phase = .free ∧ s.life = .ready ∧ AtIndex s h3 3 ∧
        (io 0 0).reject = false ∧ (s.callerOf 0).program = pmic.line :: []) :=
  ⟨by decide, ⟨rfl, rfl, rfl, foreign_congr foreign_ready rfl rfl, by decide⟩,
    ⟨rfl, rfl, rfl, atIndex_congr atIndex_ready.2 rfl rfl, rfl, by decide⟩,
    ⟨by decide, rfl, rfl, atIndex_congr atIndex_ready.2 rfl rfl, rfl, by decide⟩⟩
theorem witness_ReferencePeerEchoesCorrectly : requestKind? ⟨0, 0x00000803, 0, 0⟩ = some .bulkRead ∧
    requestKind? ⟨0, 0x00000904, 0, 0⟩ = none ∧ requestKind? ⟨0, 0x000FAA02, 0, 0⟩ = some .update := by decide
theorem witness_ReferencePeerReadsAndWrites : let W : Words := ⟨0x000003FE, 0x00000804, 0x04030201, 0x08070605⟩;
    0 = (getChid W.w0).toNat ∧ 3 = (getType W.w0).toNat ∧ 0xFE = (getReg W.w0).toNat ∧ 8 = (getValue W.w1).toNat ∧
    peerRead (peerRegisters [] .bulkWrite W) 0 3 0x05 = 0x08 := by decide
theorem witness_ReferencePeerAnswersEverySend : Inv { withSlot h0 sentOne with schedule := [.peerRespond h0] } ∧
    ((withSlot h0 sentOne).slot h0).phase = .sent := ⟨inv_sent_schedule _, by decide⟩

end Sys2Proof.Tests
end

section
/-! What a step can do to the transport's lifecycle state, channel set and masks (10_state.md R20 to R24). -/

namespace Sys2Proof.Machine

/-- The transport is the same in `s` and `t`: `LIFE`, `NCHAN_R`, `CHANS`, `IMR_ALL_MASKED` and `CHAN_MASK`. -/
structure SameTransport (s t : State) : Prop where
  life : t.life = s.life
  nchanR : t.nchanR = s.nchanR
  chans : t.chans = s.chans
  imrAllMasked : t.imrAllMasked = s.imrAllMasked
  chanMask : t.chanMask = s.chanMask

theorem sameTransport_retire (s : State) : SameTransport s s.retire :=
  ⟨retire_life s, retire_nchanR s, retire_chans s, retire_imrAllMasked s, retire_chanMask s⟩

theorem SameTransport.trans {s t u : State} (a : SameTransport s t) (b : SameTransport t u) : SameTransport s u :=
  ⟨b.life.trans a.life, b.nchanR.trans a.nchanR, b.chans.trans a.chans, b.imrAllMasked.trans a.imrAllMasked,
    b.chanMask.trans a.chanMask⟩

theorem sameTransport_withSchedule (s : State) (rest : List AgentStep) : SameTransport s { s with schedule := rest } :=
  ⟨rfl, rfl, rfl, rfl, rfl⟩

theorem sameTransport_respond (h : Handle) (r : Words) (s : State) : SameTransport s (respond h r s) := by
  rcases respond_cases h r s with ⟨_, e⟩ | ⟨_, e⟩ <;> rw [e] <;> exact ⟨rfl, rfl, rfl, rfl, rfl⟩

theorem sameTransport_fail (h : Handle) (s : State) : SameTransport s (fail h s) := by
  rcases fail_cases h s with ⟨_, e⟩ | ⟨_, e⟩ <;> rw [e] <;> exact ⟨rfl, rfl, rfl, rfl, rfl⟩

theorem sameTransport_peerRespond (h : Handle) (s : State) : SameTransport s (peerRespond h s) := by
  rcases peerRespond_cases h s with ⟨W, k, _, _, _, e⟩ | e <;> rw [e]
  · exact (sameTransport_respond h _ s).trans ⟨rfl, rfl, rfl, rfl, rfl⟩
  · exact ⟨rfl, rfl, rfl, rfl, rfl⟩

/-- Of the operations, only INIT writes the transport, and only before Ready (R87). -/
theorem sameTransport_or_init_of_effect {i : Instr} {s t : State} (e : Effect i s t) :
    SameTransport s t ∨ (i = .init ∧ s.life = .uninitialized ∧ t = s.bringUp.reply .done) := by
  cases e with
  | init hi hl => exact .inr ⟨hi, hl, rfl⟩
  | _ => exact .inl ⟨rfl, rfl, rfl, rfl, rfl⟩

/-- The step from `s` to `t` is a caller's INIT, taken before Ready. -/
def InitStep (s t : State) : Prop :=
  ∃ io rest r, s.schedule = .caller io :: rest ∧ nextRequest? (s.callerOf io.caller).program = some r ∧
    Sys2Proof.decode r = .ok .init ∧ s.life = .uninitialized ∧ t = ((s.issue io rest).bringUp.reply .done).retire

/-- Of the agents' steps, only a caller's INIT writes the transport. -/
theorem sameTransport_or_initStep_of_step {s t : State} (e : step s = .next t) : SameTransport s t ∨ InitStep s t := by
  cases effect_of_step e with
  | idle => exact .inl ⟨rfl, rfl, rfl, rfl, rfl⟩
  | noOperation => exact .inl (sameTransport_withSchedule s _)
  | @operation io rest r i u hs hn hd he =>
    rcases sameTransport_or_init_of_effect (effect_of_exec he) with same | ⟨rfl, hl, rfl⟩
    · have issued : SameTransport s (s.issue io rest) := ⟨rfl, rfl, rfl, rfl, rfl⟩
      exact .inl ((issued.trans same).trans (sameTransport_retire u))
    · exact .inr ⟨io, rest, r, hs, hn, hd, hl, rfl⟩
  | respond => exact .inl ((sameTransport_withSchedule s _).trans (sameTransport_respond _ _ _))
  | peerRespond => exact .inl ((sameTransport_withSchedule s _).trans (sameTransport_peerRespond _ _))
  | fail => exact .inl ((sameTransport_withSchedule s _).trans (sameTransport_fail _ _))
  | dbclear => exact .inl ⟨rfl, rfl, rfl, rfl, rfl⟩

/-- Settles O45: a step that moves `LIFE` does not leave the transport the same, so it is an INIT before Ready. -/
theorem onlyInitWritesLife : Obligations.OnlyInitWritesLife := by
  unfold Obligations.OnlyInitWritesLife
  refine ⟨fun l => ?_, rfl, fun s t e moved => ?_⟩
  · cases l with
    | uninitialized => exact .inl rfl
    | ready => exact .inr rfl
  · rcases sameTransport_or_initStep_of_step e with same | ⟨io, rest, r, hs, hn, hd, hl, rfl⟩
    · exact absurd same.life moved
    · exact ⟨hl, by simp, io, rest, r, hs, hn, hd⟩

end Sys2Proof.Machine
end

section
/-! The numbers and bits of the fields, bulk lanes, packed words and func codes on the wire (30_encoding.md R45 to R58). -/

namespace Sys2Proof.Machine

/-! ## Fields and bulk lanes -/

/-- The topmost field needs no mask: above it the word has no bits. -/
theorem toNat_getField_top (lo n : Nat) (w : Word) (h : lo + n = 32) : (getField lo n w).toNat = w.toNat / 2 ^ lo := by
  have top : w.toNat / 2 ^ lo < 2 ^ n := by
    rw [Nat.div_lt_iff_lt_mul (Nat.two_pow_pos lo), ← Nat.pow_add, Nat.add_comm n lo, h]
    exact w.isLt
  rw [toNat_getField, Nat.mod_eq_of_lt top]

/-- The lowest field needs no shift. -/
theorem toNat_getField_zero (n : Nat) (w : Word) : (getField 0 n w).toNat = w.toNat % 2 ^ n := by
  rw [toNat_getField, Nat.pow_zero, Nat.div_one]

/-- `getLsbD_putField` with the field's last bit `hi` in place of its width. -/
theorem getLsbD_putField_Icc (lo hi n : Nat) (h : hi + 1 = lo + n) (w : Word) (x : BitVec n) (b : Nat) (hb : b < 32) :
    (putField lo n w x).getLsbD b = if lo ≤ b ∧ b ≤ hi then x.getLsbD (b - lo) else w.getLsbD b := by
  rw [getLsbD_putField lo n w x b hb, ← h]
  simp only [Nat.lt_succ_iff]

/-- Settles O6: each accessor is the field of its row of the table, read and put. -/
theorem fieldsReadAndPutTheirBits : Obligations.FieldsReadAndPutTheirBits := by
  unfold Obligations.FieldsReadAndPutTheirBits
  refine fun w => ⟨⟨toNat_getField 8 4 w, toNat_getField_zero 8 w, toNat_getField 12 4 w, toNat_getField_zero 8 w,
    toNat_getField 8 8 w, toNat_getField 16 8 w, toNat_getField_top 24 8 w rfl⟩, fun x b hb => ⟨?type, ?chid⟩,
    fun x b hb => ⟨?reg, ?func, ?value, ?mask, ?rc⟩⟩
  case type => exact getLsbD_putField_Icc 8 11 4 rfl w x b hb
  case chid => exact getLsbD_putField_Icc 12 15 4 rfl w x b hb
  case reg => simpa [putReg] using getLsbD_putField_Icc 0 7 8 rfl w x b hb
  case func => simpa [putFunc] using getLsbD_putField_Icc 0 7 8 rfl w x b hb
  case value => exact getLsbD_putField_Icc 8 15 8 rfl w x b hb
  case mask => exact getLsbD_putField_Icc 16 23 8 rfl w x b hb
  case rc =>
    have last : b ≤ 31 := by omega
    simpa [putRc, last] using getLsbD_putField_Icc 24 31 8 rfl w x b hb

/-- The number in bulk lane `i` (R53). -/
theorem toNat_getByte (W : Words) (i : Nat) :
    (getByte W i).toNat = (W.word (2 + i / 4)).toNat / 2 ^ (8 * (i % 4)) % 2 ^ 8 :=
  toNat_getField _ 8 _

/-- Bit `b` of word `j` after bulk byte `i` has been put: the lane's bits are the byte's, every other bit of the four words is
as it was (R53). -/
theorem getLsbD_word_putByte (W : Words) {i j b : Nat} (x : Byte) (hi : i < 8) (hj : j < 4) (hb : b < 32) :
    ((putByte W i x).word j).getLsbD b =
      if j = 2 + i / 4 ∧ 8 * (i % 4) ≤ b ∧ b < 8 * (i % 4) + 8 then x.getLsbD (b - 8 * (i % 4))
      else (W.word j).getLsbD b := by
  have hw : 2 + i / 4 < 4 := by omega
  rw [putByte]
  by_cases same : j = 2 + i / 4
  · subst same
    rw [word_setWord_self _ _ _ hw, getLsbD_putField _ _ _ _ _ hb]
    simp only [true_and]
  · rw [word_setWord_ne _ _ hw hj same, if_neg fun lane => same lane.1]

/-- Settles O7: a bulk byte is the field of its lane, in the word that holds it. -/
theorem bulkByteOccupiesItsLane : Obligations.BulkByteOccupiesItsLane := by
  unfold Obligations.BulkByteOccupiesItsLane
  exact fun W i hi => ⟨toNat_getByte W i, fun x _ _ hj hb => getLsbD_word_putByte W x hi hj hb⟩

/-! ## Packed words -/

/-- An operand that fits keeps its number when it is widened and shifted to its place. -/
theorem toNat_setWidth_shiftLeft {n : Nat} (x : BitVec n) (lo : Nat) (h : lo + n ≤ 32) :
    (x.setWidth 32 <<< lo).toNat = x.toNat <<< lo := by
  have fits : x.toNat <<< lo < 2 ^ 32 := by
    rw [Nat.shiftLeft_eq]
    calc x.toNat * 2 ^ lo < 2 ^ n * 2 ^ lo := Nat.mul_lt_mul_of_pos_right x.isLt (Nat.two_pow_pos lo)
      _ = 2 ^ (lo + n) := by rw [← Nat.pow_add, Nat.add_comm]
      _ ≤ 2 ^ 32 := Nat.pow_le_pow_right (by decide) h
  rw [BitVec.toNat_shiftLeft, BitVec.toNat_setWidth_of_le (by omega), Nat.mod_eq_of_lt fits]

/-- Three adjacent fields joined by `or` share no bit, so the word's number is their sum. -/
theorem toNat_or_or_of_adjacent {l m n : Nat} (low : BitVec l) (mid : BitVec m) (high : BitVec n) (h : l + m + n ≤ 32) :
    ((high.setWidth 32 <<< (l + m)) ||| (mid.setWidth 32 <<< l) ||| low.setWidth 32).toNat =
      high.toNat * 2 ^ (l + m) + mid.toNat * 2 ^ l + low.toNat := by
  have lowSum : mid.toNat <<< l ||| low.toNat = mid.toNat * 2 ^ l + low.toNat := by
    rw [← Nat.shiftLeft_add_eq_or_of_lt low.isLt, Nat.shiftLeft_eq]
  have lowFits : mid.toNat * 2 ^ l + low.toNat < 2 ^ (l + m) := by
    calc mid.toNat * 2 ^ l + low.toNat < (mid.toNat + 1) * 2 ^ l := by rw [Nat.succ_mul]; have := low.isLt; omega
      _ ≤ 2 ^ m * 2 ^ l := Nat.mul_le_mul_right _ mid.isLt
      _ = 2 ^ (l + m) := by rw [← Nat.pow_add, Nat.add_comm]
  rw [BitVec.toNat_or, BitVec.toNat_or, toNat_setWidth_shiftLeft high _ h, toNat_setWidth_shiftLeft mid _ (by omega),
    BitVec.toNat_setWidth_of_le (by omega), Nat.or_assoc, lowSum, ← Nat.shiftLeft_add_eq_or_of_lt lowFits,
    Nat.shiftLeft_eq, Nat.add_assoc]

/-- Settles O8: the three fields of word 0 are adjacent. -/
theorem packWordZeroPlacesFields : Obligations.PackWordZeroPlacesFields := by
  unfold Obligations.PackWordZeroPlacesFields
  exact fun ty reg chid => toNat_or_or_of_adjacent reg ty chid (by decide)

/-! ## Func codes -/

/-- `OpKind.ofCode?` is the table of func codes read backwards, with no code beyond it (R58). -/
theorem ofCode?_eq_some_iff (n : Nat) (k : OpKind) : OpKind.ofCode? n = some k ↔ n = k.code := by
  constructor
  · intro h
    unfold OpKind.ofCode? at h
    split at h <;> cases h <;> rfl
  · rintro rfl
    cases k <;> rfl

/-- A func code fits its byte. -/
theorem toNat_funcByte (k : OpKind) : (funcByte k).toNat = k.code := by
  cases k <;> rfl

/-- The func field of the request word 1 is the func code put in it (R55). -/
@[simp] theorem getFunc_packW1 (func value mask : Byte) : getFunc (packW1 func value mask) = func := by
  apply BitVec.eq_of_getLsbD_eq
  intro i hi
  rw [getFunc, getLsbD_getField, getLsbD_packW1, Nat.zero_add, if_pos hi]
  simp only [hi, decide_true, Bool.true_and]

section
variable {ts : Word} {i : Instr} {W : Words} {k : OpKind}

/-- Every encoder writes the func code of its kind into word 1. -/
theorem getFunc_of_encodedWords (op : i.opcode = .enc k) (h : encodedWords ts i = some W) :
    getFunc W.w1 = funcByte k := by
  cases i with
  | encRead | encWrite | encUpdate | encBread => cases op; cases h; exact getFunc_packW1 _ _ _
  | encBwrite =>
    cases op
    cases h
    rw [encodeBulkWrite, (putBytes_w01 _ _ _).2]
    exact getFunc_packW1 _ _ _
  | _ => cases h

/-- A single request has the clock sample in word 3 (R52). -/
theorem w3_of_encodedWords (op : i.opcode = .enc k) (h : encodedWords ts i = some W)
    (single : k = .read ∨ k = .write ∨ k = .update) : W.w3 = ts := by
  cases i with
  | encRead | encWrite | encUpdate => cases h; rfl
  | encBread | encBwrite => cases op; simp at single
  | _ => cases h

/-- A bulk request does not depend on the clock sample (R52). -/
theorem encodedWords_eq_of_bulk (op : i.opcode = .enc k) (bulk : k = .bulkRead ∨ k = .bulkWrite) (ts ts' : Word) :
    encodedWords ts i = encodedWords ts' i := by
  cases i with
  | encRead | encWrite | encUpdate => cases op; simp at bulk
  | _ => rfl

end

/-- Settles O10: the func code in word 1, and whether word 3 is the clock sample, follow from the kind alone. -/
theorem funcCodesAreTheTable : Obligations.FuncCodesAreTheTable := by
  unfold Obligations.FuncCodesAreTheTable
  refine ⟨ofCode?_eq_some_iff, rfl, rfl, rfl, rfl, rfl, fun ts i W k _ op h => ⟨?code, ?single, ?bulk⟩⟩
  case code => rw [getFunc_of_encodedWords op h, toNat_funcByte]
  case single => exact w3_of_encodedWords op h
  case bulk => exact fun bulk ts' => (encodedWords_eq_of_bulk op bulk ts' ts).trans h

end Sys2Proof.Machine
end

section
/-! The header operands of an encode request (30_encoding.md R57), and the pure encoder `encode_read` (40_encoder.md R69). -/

namespace Sys2Proof

/-! ## The header operands -/

/-- Header operands that fit their ports are taken as they stand. -/
theorem fitHeader_of_lt {r : Request} (ty : r.ty < 16) (reg : r.reg < 256) (chid : r.chid < 16) :
    fitHeader r = .ok (BitVec.ofNat 4 r.ty, BitVec.ofNat 8 r.reg, BitVec.ofNat 4 r.chid) := by
  rw [fitHeader, fit_ok ty, fit_ok reg, fit_ok chid]
  rfl

/-- The header names the first of its ports whose operand does not fit. -/
theorem fitHeader_tooWide {r : Request} (wide : 16 ≤ r.ty ∨ 256 ≤ r.reg ∨ 16 ≤ r.chid) :
    ∃ p, fitHeader r = .error (.tooWide p) := by
  unfold fitHeader
  by_cases ty : r.ty < 16
  · rw [fit_ok ty]
    by_cases reg : r.reg < 256
    · have chid : 16 ≤ r.chid := by omega
      rw [fit_ok reg, fit_error chid]
      exact ⟨.chid, rfl⟩
    · rw [fit_error (Nat.le_of_not_lt reg)]
      exact ⟨.reg, rfl⟩
  · rw [fit_error (Nat.le_of_not_lt ty)]
    exact ⟨.ty, rfl⟩

/-- Every encode reads its header first, so a refused header refuses the request whatever the kind. -/
theorem decodeOperands_enc_of_fitHeader_error {r : Request} {e : RequestError} (k : OpKind) (h : fitHeader r = .error e) :
    decodeOperands r (.enc k) = .error e := by
  cases k <;> rw [decodeOperands, h] <;> rfl

/-- ENC.READ has no operand beyond its header. -/
theorem decodeOperands_encRead {r : Request} {ty : BitVec 4} {reg : Byte} {chid : BitVec 4}
    (h : fitHeader r = .ok (ty, reg, chid)) : decodeOperands r (.enc .read) = .ok (.encRead r.h ty reg chid) := by
  rw [decodeOperands, h]
  rfl

end Sys2Proof

namespace Sys2Proof.Machine

/-! ## The pure encoders -/

/-- Settles O15: word 0 is the packed header and word 1 packs three zero bytes; the decoder takes or refuses the header, which
is all the request carries. -/
theorem pureReadEncoderWords : Obligations.PureReadEncoderWords := by
  unfold Obligations.PureReadEncoderWords
  refine ⟨fun h ty reg chid ts => ⟨packWordZeroPlacesFields ty reg chid, rfl, rfl, rfl, rfl, rfl⟩,
    fun r op => ⟨?accepted, ?refused⟩⟩
  all_goals rw [decode_of_opsel (op := .enc .read) op]
  case accepted =>
    rintro ⟨ty, reg, chid⟩
    exact decodeOperands_encRead (fitHeader_of_lt ty reg chid)
  case refused =>
    intro wide
    obtain ⟨p, hp⟩ := fitHeader_tooWide wide
    exact ⟨p, decodeOperands_enc_of_fitHeader_error .read hp⟩

end Sys2Proof.Machine
end

section
/-! What the pure decoders extract from the response words (41_decoder.md R80 to R84). -/

namespace Sys2Proof.Machine

/-- The return code is the topmost byte of response word 1. -/
theorem toNat_returnCode (W : Words) : (returnCode W).toNat = W.w1.toNat / 2 ^ 24 :=
  toNat_getField_top 24 8 W.w1 rfl

/-- Settles O23: every decoder's status is the return code, READ's value is the value field of word 1, and the OPSEL values
are those of the table, naming operations with no operand but the handle. -/
theorem pureDecodersExtractFields : Obligations.PureDecodersExtractFields := by
  unfold Obligations.PureDecodersExtractFields
  refine fun W h => ⟨?readRc, ?readValue, ?writeRc, ?updateRc, ?bulkWriteRc, ?readOpsel, ?writeOpsel, ?updateOpsel,
    ?bulkWriteOpsel, rfl, rfl, rfl, rfl⟩
  case readRc | writeRc | updateRc | bulkWriteRc => exact toNat_returnCode W
  case readValue => exact toNat_getField 8 8 W.w1
  case readOpsel => exact decode_of_opsel (op := .dec .read) rfl
  case writeOpsel => exact decode_of_opsel (op := .dec .write) rfl
  case updateOpsel => exact decode_of_opsel (op := .dec .update) rfl
  case bulkWriteOpsel => exact decode_of_opsel (op := .dec .bulkWrite) rfl

end Sys2Proof.Machine
end

section
/-! The channel count that INIT writes is the population count of the channel mask (42_channel_selector.md R87 and R88). -/

namespace Sys2Proof.Machine

/-- `popcount` counts the positions below the width that are 1 (R88). -/
theorem popcount_eq_count {w : Nat} (m : BitVec w) : popcount m = Nat.count (fun b => m.getLsbD b = true) w := by
  simp only [popcount, Nat.count, Bool.decide_eq_true]

/-- The positions below the width are the members of `Fin w`, so `popcount` is the size of the set of 1 bits. -/
theorem popcount_eq_card {w : Nat} (m : BitVec w) :
    popcount m = (Finset.univ.filter fun b : Fin w => m.getLsbD b = true).card := by
  rw [popcount_eq_count, Nat.count_eq_card_filter_range, Finset.card_filter, Finset.card_filter, Finset.sum_range]

/-- A word has no more 1 bits than bits. -/
theorem popcount_le_width {w : Nat} (m : BitVec w) : popcount m ≤ w := by
  rw [popcount_eq_count]
  exact Nat.count_le _

/-- INIT before Ready brings the transport up (R87). -/
theorem exec_init_of_uninitialized {s : State} (hl : s.life = .uninitialized) :
    exec .init s = .next (s.bringUp.reply .done) := by
  rw [exec, execInit, hl]

/-- Settles O29: the count is that of the 1 bits, which are at most 16, and INIT writes it. -/
theorem channelCountIsPopulationCount : Obligations.ChannelCountIsPopulationCount := by
  unfold Obligations.ChannelCountIsPopulationCount
  refine ⟨fun m => ⟨popcount_eq_card m, popcount_le_width m⟩, fun s t hl e => ?derived, ?examples⟩
  case derived =>
    rw [exec_init_of_uninitialized hl] at e
    cases e
    exact State.bringUp_nchanR s
  case examples => decide

end Sys2Proof.Machine
end

section
/-! Requests and instructions: what the decoder takes, what it gives, and what it refuses (30_encoding.md R57, R62 to R64,
60_exceptions.md R113). -/

namespace Sys2Proof

theorem wellFormed_encBread {h : Handle} {ty : BitVec 4} {reg : Byte} {chid : BitVec 4} {count : Nat} :
    (Instr.encBread h ty reg chid count).wellFormed = true ↔ count ≤ Config.bulkMax := by
  simp [Instr.wellFormed]

theorem wellFormed_encBwrite {h : Handle} {ty : BitVec 4} {reg : Byte} {chid : BitVec 4} {count : Nat}
    {bytes : List Byte} :
    (Instr.encBwrite h ty reg chid count bytes).wellFormed = true ↔ count ≤ Config.bulkMax ∧ bytes.length = count := by
  simp [Instr.wellFormed]

theorem wellFormed_decBread {h : Handle} {count : Nat} :
    (Instr.decBread h count).wellFormed = true ↔ count ≤ Config.bulkMax := by
  simp [Instr.wellFormed]

/-! ## The operands after the header -/

theorem ok_of_map {ε α β : Type} {f : α → β} {x : Except ε α} {b : β} (h : x.map f = .ok b) :
    ∃ a, x = .ok a ∧ b = f a := by
  cases x with
  | error e => cases h
  | ok a => exact ⟨a, rfl, by cases h; rfl⟩

theorem ok_of_bind {ε α β : Type} {f : α → Except ε β} {x : Except ε α} {b : β} (h : x.bind f = .ok b) :
    ∃ a, x = .ok a ∧ f a = .ok b := by
  cases x with
  | error e => cases h
  | ok a => exact ⟨a, rfl, h⟩

section
variable {r : Request} {ty : BitVec 4} {reg : Byte} {chid : BitVec 4} (h : fitHeader r = .ok (ty, reg, chid))
include h

theorem decodeOperands_encWrite :
    decodeOperands r (.enc .write) = (fit 8 .value r.value).map fun value => .encWrite r.h ty reg chid value := by
  rw [decodeOperands, h]
  cases fit 8 .value r.value <;> rfl

theorem decodeOperands_encUpdate :
    decodeOperands r (.enc .update) = (fit 8 .value r.value).bind fun value =>
      (fit 8 .mask r.mask).map fun mask => .encUpdate r.h ty reg chid value mask := by
  rw [decodeOperands, h]
  cases fit 8 .value r.value <;> cases fit 8 .mask r.mask <;> rfl

theorem decodeOperands_encBread :
    decodeOperands r (.enc .bulkRead) = (fitCount r.count).map fun count => .encBread r.h ty reg chid count := by
  rw [decodeOperands, h]
  cases fitCount r.count <;> rfl

theorem decodeOperands_encBwrite :
    decodeOperands r (.enc .bulkWrite) = (fitCount r.count).bind fun count => (fitBytes r.bytes).bind fun bytes =>
      if bytes.length = count then .ok (.encBwrite r.h ty reg chid count bytes) else .error .byteListLength := by
  rw [decodeOperands, h]
  cases fitCount r.count <;> cases fitBytes r.bytes <;> rfl

end

theorem decodeOperands_decBread (r : Request) :
    decodeOperands r (.dec .bulkRead) = (fitCount r.count).map fun count => .decBread r.h count := by
  rw [decodeOperands]
  cases fitCount r.count <;> rfl

/-! ## The encoder's request -/

theorem encode_opsel (i : Instr) : (encode i).opsel = i.opcode.opsel := by
  cases i <;> rfl

/-- The header the encoder drives is taken as the instruction's own. -/
theorem fitHeader_encode {i : Instr} {ty : BitVec 4} {reg : Byte} {chid : BitVec 4}
    (hi : Machine.wireHeader i = some (ty, reg, chid)) : fitHeader (encode i) = .ok (ty, reg, chid) := by
  have driven : (encode i).ty = ty.toNat ∧ (encode i).reg = reg.toNat ∧ (encode i).chid = chid.toNat := by
    cases i <;> cases hi <;> exact ⟨rfl, rfl, rfl⟩
  obtain ⟨hty, hreg, hchid⟩ := driven
  rw [fitHeader, hty, hreg, hchid, fit_toNat, fit_toNat, fit_toNat]
  rfl

/-- Settles O2: the OPSEL driven selects the operation's own operands, and each of them fits its port and reads back. -/
theorem decodeOfEncodeIsIdentity : Obligations.DecodeOfEncodeIsIdentity := by
  unfold Obligations.DecodeOfEncodeIsIdentity
  intro i wf
  rw [decode_of_opsel (encode_opsel i)]
  cases i with
  | encRead => exact decodeOperands_encRead (fitHeader_encode rfl)
  | encWrite => exact (decodeOperands_encWrite (fitHeader_encode rfl)).trans (by simp [encode, Except.map])
  | encUpdate => exact (decodeOperands_encUpdate (fitHeader_encode rfl)).trans (by simp [encode, Except.bind, Except.map])
  | encBread =>
    have fits := wellFormed_encBread.1 wf
    exact (decodeOperands_encBread (fitHeader_encode rfl)).trans (by simp [encode, fitCount_ok fits, Except.map])
  | encBwrite =>
    obtain ⟨fits, len⟩ := wellFormed_encBwrite.1 wf
    exact (decodeOperands_encBwrite (fitHeader_encode rfl)).trans
      (by simp [encode, fitCount_ok fits, len, Except.bind])
  | decBread =>
    have fits := wellFormed_decBread.1 wf
    exact (decodeOperands_decBread _).trans (by simp [encode, fitCount_ok fits, Except.map])
  | _ => rfl

/-- Settles O1: the table of OPSEL values, and four requests, evaluated. -/
theorem opselValuesNameOperations : Obligations.OpselValuesNameOperations := by
  unfold Obligations.OpselValuesNameOperations
  decide

/-! ## An accepted request -/

/-- An accepted encode has an accepted header. -/
theorem fitHeader_of_decodeOperands_enc {r : Request} {k : OpKind} {i : Instr} (h : decodeOperands r (.enc k) = .ok i) :
    ∃ ty reg chid, fitHeader r = .ok (ty, reg, chid) := by
  cases hh : fitHeader r with
  | error e =>
    rw [decodeOperands_enc_of_fitHeader_error k hh] at h
    cases h
  | ok f => exact ⟨f.1, f.2.1, f.2.2, rfl⟩

/-- Settles O3: an accepted request names an operation of the table, and each operand that operation reads has passed its
port's check unchanged. -/
theorem decodedOperandsAreThePorts : Obligations.DecodedOperandsAreThePorts := by
  unfold Obligations.DecodedOperandsAreThePorts
  intro r i accepted
  obtain ⟨op, opsel, h⟩ := decode_ok accepted
  cases op with
  | enc k =>
    obtain ⟨ty, reg, chid, header⟩ := fitHeader_of_decodeOperands_enc h
    have ports := fitHeader_ok header
    cases k with
    | read =>
      rw [decodeOperands_encRead header] at h
      cases h
      simp [Instr.wellFormed, Instr.opcode, Instr.handle?, Machine.wireHeader, opsel, ports]
    | write =>
      rw [decodeOperands_encWrite header] at h
      obtain ⟨value, hvalue, rfl⟩ := ok_of_map h
      simp +contextual [Instr.wellFormed, Instr.opcode, Instr.handle?, Machine.wireHeader, opsel, ports,
        ← toNat_of_fit hvalue]
    | update =>
      rw [decodeOperands_encUpdate header] at h
      obtain ⟨value, hvalue, h⟩ := ok_of_bind h
      obtain ⟨mask, hmask, rfl⟩ := ok_of_map h
      simp +contextual [Instr.wellFormed, Instr.opcode, Instr.handle?, Machine.wireHeader, opsel, ports,
        ← toNat_of_fit hvalue, ← toNat_of_fit hmask]
    | bulkRead =>
      rw [decodeOperands_encBread header] at h
      obtain ⟨count, hcount, rfl⟩ := ok_of_map h
      obtain ⟨rfl, fits⟩ := eq_of_fitCount hcount
      simp +contextual [Instr.wellFormed, Instr.opcode, Instr.handle?, Machine.wireHeader, opsel, ports, fits]
    | bulkWrite =>
      rw [decodeOperands_encBwrite header] at h
      obtain ⟨count, hcount, h⟩ := ok_of_bind h
      obtain ⟨bytes, hbytes, h⟩ := ok_of_bind h
      obtain ⟨rfl, fits⟩ := eq_of_fitCount hcount
      split at h
      · next len =>
        cases h
        simp +contextual [Instr.wellFormed, Instr.opcode, Instr.handle?, Machine.wireHeader, opsel, ports, fits, len,
          ← map_toNat_of_fitBytes hbytes]
      · cases h
  | dec k =>
    cases k with
    | bulkRead =>
      rw [decodeOperands_decBread] at h
      obtain ⟨count, hcount, rfl⟩ := ok_of_map h
      obtain ⟨rfl, fits⟩ := eq_of_fitCount hcount
      simp [Instr.wellFormed, Instr.opcode, Instr.handle?, Machine.wireHeader, opsel, fits]
    | _ => cases h; simp [Instr.wellFormed, Instr.opcode, Instr.handle?, Machine.wireHeader, opsel]
  | _ => cases h; simp [Instr.wellFormed, Instr.opcode, Instr.handle?, Machine.wireHeader, opsel]

/-! ## A refused request -/

/-- A step is that of the agent at the head of the schedule (R35). -/
theorem Machine.step_of_schedule {s : State} {a : AgentStep} {rest : List AgentStep} (hs : s.schedule = a :: rest) :
    step s = agentStep a { s with schedule := rest } := by
  rw [step, scheduledStep, hs]

/-- A caller's step on a request the decoder refuses is a refusal (R113). -/
theorem Machine.step_refused {s : State} {io : Inputs} {rest : List AgentStep} {r : Request} {e : RequestError}
    (hs : s.schedule = .caller io :: rest) (hn : nextRequest? (s.callerOf io.caller).program = some r)
    (hd : decode r = .error e) : step s = .refused (.badRequest e) := by
  have hn' : nextRequest? (State.callerOf { s with schedule := rest } io.caller).program = some r := hn
  rw [step_of_schedule hs]
  simp only [agentStep, callerStep, hn', hd]

/-- A caller's step on a request that decodes executes it and files the reply. -/
theorem Machine.step_caller {s : State} {io : Inputs} {rest : List AgentStep} {r : Request} {i : Instr}
    (hs : s.schedule = .caller io :: rest) (hn : nextRequest? (s.callerOf io.caller).program = some r)
    (hd : decode r = .ok i) : step s = retireOutcome (exec i (s.issue io rest)) := by
  have hn' : nextRequest? (State.callerOf { s with schedule := rest } io.caller).program = some r := hn
  rw [step_of_schedule hs]
  simp only [agentStep, callerStep, hn', hd]
  rfl

/-- A byte list with an entry wider than the port is refused. -/
theorem fitBytes_error : ∀ {vs : List Nat}, (∃ b ∈ vs, 256 ≤ b) → ∃ e, fitBytes vs = .error e
  | [], ⟨_, hb, _⟩ => absurd hb List.not_mem_nil
  | v :: vs, ⟨b, hb, wide⟩ => by
    unfold fitBytes
    rcases List.mem_cons.1 hb with rfl | hb
    · rw [fit_error wide]
      exact ⟨_, rfl⟩
    · obtain ⟨e, he⟩ := fitBytes_error ⟨b, hb, wide⟩
      rw [he]
      cases fit 8 .byte v <;> exact ⟨_, rfl⟩

/-- A refused header refuses with the name of a port that is too narrow; past it, the header's fields are at hand. -/
theorem fitHeader_cases (r : Request) :
    (∃ p, fitHeader r = .error (.tooWide p)) ∨ ∃ ty reg chid, fitHeader r = .ok (ty, reg, chid) := by
  by_cases wide : 16 ≤ r.ty ∨ 256 ≤ r.reg ∨ 16 ≤ r.chid
  · exact .inl (fitHeader_tooWide wide)
  · push Not at wide
    obtain ⟨ty, reg, chid⟩ := wide
    exact .inr ⟨_, _, _, fitHeader_of_lt ty reg chid⟩

theorem decode_tooWide_of_opsel {r : Request} (h : 32 ≤ r.opsel) : decode r = .error (.tooWide .opsel) := by
  rw [decode, fit_error h]
  rfl

theorem decode_reserved {r : Request} (h : r.opsel < 32) (none : opcodeOf? (BitVec.ofNat 5 r.opsel) = none) :
    decode r = .error .reservedOpsel := by
  rw [decode, fit_ok h]
  simp only [bind, Except.bind, none]

/-- Encodes have the OPSEL values 0 to 4. -/
theorem opsel_enc_of_le {n : Nat} (h : n ≤ 4) : ∃ k : OpKind, n = (Opcode.enc k).opsel := by
  interval_cases n
  exacts [⟨.read, rfl⟩, ⟨.write, rfl⟩, ⟨.update, rfl⟩, ⟨.bulkRead, rfl⟩, ⟨.bulkWrite, rfl⟩]

section
variable {r : Request}

theorem decode_tooWide_of_header (op : r.opsel ≤ 4) (wide : 16 ≤ r.ty ∨ 256 ≤ r.reg ∨ 16 ≤ r.chid) :
    ∃ p, decode r = .error (.tooWide p) := by
  obtain ⟨k, op⟩ := opsel_enc_of_le op
  obtain ⟨p, hp⟩ := fitHeader_tooWide wide
  exact ⟨p, (decode_of_opsel op).trans (decodeOperands_enc_of_fitHeader_error k hp)⟩

/-- Where the operation of `r` is an encode of kind `k`, its refusals after the header suffice. -/
theorem decode_tooWide_of_encode (k : OpKind) (op : r.opsel = (Opcode.enc k).opsel)
    (h : ∀ {ty reg chid}, fitHeader r = .ok (ty, reg, chid) → ∃ p, decodeOperands r (.enc k) = .error (.tooWide p)) :
    ∃ p, decode r = .error (.tooWide p) := by
  rw [decode_of_opsel op]
  rcases fitHeader_cases r with ⟨p, hp⟩ | ⟨ty, reg, chid, header⟩
  · exact ⟨p, decodeOperands_enc_of_fitHeader_error k hp⟩
  · exact h header

theorem decode_error_of_encode (k : OpKind) (op : r.opsel = (Opcode.enc k).opsel)
    (h : ∀ {ty reg chid}, fitHeader r = .ok (ty, reg, chid) → ∃ e, decodeOperands r (.enc k) = .error e) :
    ∃ e, decode r = .error e := by
  rw [decode_of_opsel op]
  rcases fitHeader_cases r with ⟨p, hp⟩ | ⟨ty, reg, chid, header⟩
  · exact ⟨_, decodeOperands_enc_of_fitHeader_error k hp⟩
  · exact h header

end

/-- Settles O4: each clause follows the decoder's checks in their order: OPSEL, the header, then the operands of the
operation. -/
theorem requestsOutsideTheFormsAreRefused : Obligations.RequestsOutsideTheFormsAreRefused := by
  unfold Obligations.RequestsOutsideTheFormsAreRefused
  refine ⟨fun r => ⟨decode_tooWide_of_opsel, decode_reserved, decode_tooWide_of_header, ?value, ?mask, ?count, ?bytes,
    ?length⟩, fun s io rest r e hs hn hd => ?stops⟩
  case value =>
    rintro (op | op) wide
    · refine decode_tooWide_of_encode .write op fun header => ⟨.value, ?_⟩
      rw [decodeOperands_encWrite header, fit_error wide]
      rfl
    · refine decode_tooWide_of_encode .update op fun header => ⟨.value, ?_⟩
      rw [decodeOperands_encUpdate header, fit_error wide]
      rfl
  case mask =>
    refine fun op wide => decode_tooWide_of_encode .update op fun header => ?_
    rw [decodeOperands_encUpdate header, fit_error (p := .mask) wide]
    by_cases value : r.value < 256
    · exact ⟨.mask, by rw [fit_ok value]; rfl⟩
    · exact ⟨.value, by rw [fit_error (Nat.le_of_not_lt value)]; rfl⟩
  case count =>
    rintro (op | op | op) big
    · refine decode_error_of_encode .bulkRead op fun header => ⟨.countOver8, ?_⟩
      rw [decodeOperands_encBread header, fitCount_error big]
      rfl
    · refine decode_error_of_encode .bulkWrite op fun header => ⟨.countOver8, ?_⟩
      rw [decodeOperands_encBwrite header, fitCount_error big]
      rfl
    · refine ⟨.countOver8, ?_⟩
      rw [decode_of_opsel (op := .dec .bulkRead) op, decodeOperands_decBread, fitCount_error big]
      rfl
  case bytes =>
    refine fun op wide => decode_error_of_encode .bulkWrite op fun header => ?_
    obtain ⟨e, he⟩ := fitBytes_error wide
    rw [decodeOperands_encBwrite header, he]
    cases fitCount r.count <;> exact ⟨_, rfl⟩
  case length =>
    refine fun op ne => decode_error_of_encode .bulkWrite op fun header => ?_
    rw [decodeOperands_encBwrite header]
    cases hcount : fitCount r.count with
    | error e => exact ⟨e, rfl⟩
    | ok count =>
      cases hbytes : fitBytes r.bytes with
      | error e => exact ⟨e, rfl⟩
      | ok bytes =>
        have ne : bytes.length ≠ count := by rwa [fitBytes_length hbytes, (eq_of_fitCount hcount).1]
        exact ⟨.byteListLength, if_neg ne⟩
  case stops => exact Machine.step_refused hs hn hd

end Sys2Proof
end

section
/-! The fields of a packed request and the bulk lanes: read back, isolated from each other, zero where an operation defines
nothing (30_encoding.md R54 to R60, 20_memory.md R33). -/

namespace Sys2Proof.Machine

/-! ## Packed words -/

/-- Word 1's three fields are adjacent and end below bit 24 (R55). -/
theorem toNat_packW1 (func value mask : Byte) :
    (packW1 func value mask).toNat = mask.toNat * 2 ^ 16 + value.toNat * 2 ^ 8 + func.toNat :=
  toNat_or_or_of_adjacent func value mask (by decide)

theorem toNat_packW0 (ty : BitVec 4) (reg : Byte) (chid : BitVec 4) :
    (packW0 ty reg chid).toNat = chid.toNat * 2 ^ 12 + ty.toNat * 2 ^ 8 + reg.toNat :=
  packWordZeroPlacesFields ty reg chid

section
variable (ty : BitVec 4) (reg : Byte) (chid : BitVec 4)

theorem toNat_packW0_lt : (packW0 ty reg chid).toNat < 2 ^ 16 := by
  rw [toNat_packW0]
  omega

@[simp] theorem getType_packW0 : getType (packW0 ty reg chid) = ty := by
  apply BitVec.eq_of_toNat_eq
  rw [getType, toNat_getField, toNat_packW0]
  omega

@[simp] theorem getReg_packW0 : getReg (packW0 ty reg chid) = reg := by
  apply BitVec.eq_of_toNat_eq
  rw [getReg, toNat_getField, toNat_packW0]
  omega

@[simp] theorem getChid_packW0 : getChid (packW0 ty reg chid) = chid := by
  apply BitVec.eq_of_toNat_eq
  rw [getChid, toNat_getField, toNat_packW0]
  omega

end

section
variable (func value mask : Byte)

@[simp] theorem getValue_packW1 : getValue (packW1 func value mask) = value := by
  apply BitVec.eq_of_toNat_eq
  rw [getValue, toNat_getField, toNat_packW1]
  omega

@[simp] theorem getMask_packW1 : getMask (packW1 func value mask) = mask := by
  apply BitVec.eq_of_toNat_eq
  rw [getMask, toNat_getField, toNat_packW1]
  omega

@[simp] theorem getRc_packW1 : getRc (packW1 func value mask) = 0 := by
  apply BitVec.eq_of_toNat_eq
  rw [getRc, toNat_getField, toNat_packW1]
  change _ = 0
  omega

end

/-- A bulk byte after another has been put. -/
theorem getByte_putByte (W : Words) {i j : Nat} (x : Byte) (hi : i < 8) (hj : j < 8) :
    getByte (putByte W i x) j = if j = i then x else getByte W j := by
  split
  · next same => rw [same, getByte_putByte_self W i x hi]
  · next other => exact getByte_putByte_ne W x hi hj other

/-- Settles O9: the fields of a packed word are at disjoint places, and so are the bulk lanes. -/
theorem fieldsAreIsolated : Obligations.FieldsAreIsolated := by
  unfold Obligations.FieldsAreIsolated
  exact ⟨toNat_packW1,
    fun ty reg chid => ⟨getType_packW0 ty reg chid, getReg_packW0 ty reg chid, getChid_packW0 ty reg chid,
      toNat_packW0_lt ty reg chid⟩,
    fun func value mask => ⟨getFunc_packW1 func value mask, getValue_packW1 func value mask,
      getMask_packW1 func value mask, getRc_packW1 func value mask⟩,
    fun W _ _ x hi hj => getByte_putByte W x hi hj⟩

/-! ## Bulk lanes -/

/-- In zero words every bulk lane is zero. -/
theorem getByte_zero (w0 w1 : Word) {j : Nat} (hj : j < 8) : getByte ⟨w0, w1, 0, 0⟩ j = 0 := by
  have words : Words.word ⟨w0, w1, 0, 0⟩ (2 + j / 4) = 0 := by
    have : j / 4 = 0 ∨ j / 4 = 1 := by omega
    rcases this with e | e <;> rw [e] <;> rfl
  rw [getByte, words]
  simp [getField]

/-- Bytes put into zero words leave zero in every lane after them. -/
theorem getByte_putBytes_zero (w0 w1 : Word) {bs : List Byte} {j : Nat} (len : bs.length ≤ 8) (hj : j < 8) :
    getByte (putBytes ⟨w0, w1, 0, 0⟩ 0 bs) j = bs.getD j 0 := by
  rw [getByte_putBytes bs _ 0 j (by omega) hj]
  by_cases h : j < bs.length
  · simp [h]
  · rw [dif_neg (by omega), getByte_zero w0 w1 hj, List.getD_eq_default _ _ (Nat.le_of_not_lt h)]

/-- The lanes read back the bytes put (R75, R86). -/
theorem getBytes_putBytes (W : Words) {bs : List Byte} (len : bs.length ≤ 8) :
    getBytes (putBytes W 0 bs) bs.length = bs := by
  apply List.ext_getElem (by simp [getBytes])
  intro j hj _
  have hj : j < bs.length := by simpa [getBytes] using hj
  simp [getBytes, getByte_putBytes bs W 0 j (by omega) (by omega), hj]

/-- Settles O12: the lanes read back what was put, and word 1, which holds the return code, is not a lane. -/
theorem bulkBytesRoundTrip : Obligations.BulkBytesRoundTrip := by
  unfold Obligations.BulkBytesRoundTrip
  refine fun bytes len => ⟨fun ty reg chid => ?request, fun W success => ?response⟩
  case request => rw [encodeBulkWrite, List.take_length, getBytes_putBytes _ len]
  case response =>
    have rc : returnCode (putBytes W 0 bytes) = 0 := by rw [returnCode, (putBytes_w01 bytes W 0).2, success]
    simp [decodeBulkRead, payloadValid, rc, getBytes_putBytes W len]

/-- Settles O13: the eight lanes under the two byte orders, each evaluated. -/
theorem bulkByteOffsetInStorage : Obligations.BulkByteOffsetInStorage := by
  unfold Obligations.BulkByteOffsetInStorage
  intro o W i hi
  have lane : (bufferBytes o W)[bulkOffset o i]? = some (getByte W i) := by
    cases o <;> interval_cases i <;> rfl
  have length : (bufferBytes o W).length = 16 := by cases o <;> rfl
  exact ⟨length, lane, rfl, rfl⟩

/-! ## Every encoder's words -/

/-- Words with a packed header and a packed word 1 are a request, if the operands the kind does not use and the lanes past the
bytes are zero. -/
theorem isRequest_of_packed {k : OpKind} {W : Words} {ty : BitVec 4} {reg : Byte} {chid : BitVec 4} {value mask : Byte}
    (w0 : W.w0 = packW0 ty reg chid) (w1 : W.w1 = packW1 (funcByte k) value mask) (w2 : k ≠ .bulkWrite → W.w2 = 0)
    (w3 : k = .bulkRead → W.w3 = 0 := by simp) (hmask : k ≠ .update → mask = 0 := by simp)
    (hvalue : k = .read → value = 0 := by simp)
    (count : k = .bulkRead ∨ k = .bulkWrite → value.toNat ≤ Config.bulkMax := by simp)
    (lanes : k = .bulkWrite → ∀ j, value.toNat ≤ j → j < 8 → getByte W j = 0 := by simp) : IsRequest k W where
  header := by rw [w0]; exact toNat_packW0_lt ty reg chid
  func := by rw [w1, getFunc_packW1]
  rcZero := by rw [w1, getRc_packW1]
  maskZero := by rw [w1, getMask_packW1]; exact hmask
  valueZero := by rw [w1, getValue_packW1]; exact hvalue
  count := by rw [w1, getValue_packW1]; exact count
  w2Zero := w2
  w3Zero := w3
  lanesZero := by rw [w1, getValue_packW1]; exact lanes

/-- A bulk count fits the value field. -/
theorem toNat_ofNat_count {count : Nat} (h : count ≤ Config.bulkMax) : (BitVec.ofNat 8 count).toNat = count := by
  have : Config.bulkMax = 8 := rfl
  rw [BitVec.toNat_ofNat, Nat.mod_eq_of_lt (by omega)]

/-- Every encoder leaves zero what its kind does not define (R59, R60). -/
theorem isRequest_of_encodedWords {ts : Word} {i : Instr} {W : Words} {k : OpKind} (wf : i.wellFormed = true)
    (op : i.opcode = .enc k) (h : encodedWords ts i = some W) : IsRequest k W := by
  cases i with
  | encRead | encWrite | encUpdate =>
    cases op
    cases h
    exact isRequest_of_packed rfl rfl fun _ => rfl
  | encBread =>
    have fits := wellFormed_encBread.1 wf
    cases op
    cases h
    exact isRequest_of_packed rfl rfl (fun _ => rfl) (fun _ => rfl)
      (count := fun _ => by rwa [toNat_ofNat_count fits])
  | encBwrite hd ty reg chid count bytes =>
    obtain ⟨fits, len⟩ := wellFormed_encBwrite.1 wf
    cases op
    cases h
    refine isRequest_of_packed (putBytes_w01 _ _ 0).1 (putBytes_w01 _ _ 0).2 (by simp)
      (count := fun _ => by rwa [toNat_ofNat_count fits]) (lanes := fun _ j past hj => ?_)
    rw [toNat_ofNat_count fits, ← len] at past
    rw [encodeBulkWrite, ← len, List.take_length, getByte_putBytes_zero _ _ (len ▸ fits) hj,
      List.getD_eq_default _ _ past]
  | _ => cases h

/-- Settles O11: every encoder packs its header and word 1, and puts bytes in the lanes its count covers only. -/
theorem encodersZeroUndefinedBits : Obligations.EncodersZeroUndefinedBits := by
  unfold Obligations.EncodersZeroUndefinedBits
  exact fun _ _ _ _ wf op h => isRequest_of_encodedWords wf op h

/-- Every encoder packs its header into word 0. -/
theorem w0_of_encodedWords {ts : Word} {i : Instr} {W : Words} {ty : BitVec 4} {reg : Byte} {chid : BitVec 4}
    (h : encodedWords ts i = some W) (header : wireHeader i = some (ty, reg, chid)) : W.w0 = packW0 ty reg chid := by
  cases i with
  | encRead | encWrite | encUpdate | encBread => cases header; cases h; rfl
  | encBwrite => cases header; cases h; exact (putBytes_w01 _ _ _).1
  | _ => cases h

/-- Settles O14: word 0 is the packed header, and a correct echo keeps word 0. -/
theorem headerReadsBackAfterExchange : Obligations.HeaderReadsBackAfterExchange := by
  unfold Obligations.HeaderReadsBackAfterExchange
  intro ts i sent ty reg chid h header
  have fields : ∀ w, w = packW0 ty reg chid → getType w = ty ∧ getReg w = reg ∧ getChid w = chid := by
    rintro w rfl
    exact ⟨getType_packW0 ty reg chid, getReg_packW0 ty reg chid, getChid_packW0 ty reg chid⟩
  have sentHeader := w0_of_encodedWords h header
  exact ⟨fields _ sentHeader, fun R echo => fields _ (echo.word0.trans sentHeader)⟩

end Sys2Proof.Machine
end

section
/-! Each class of operations runs one shared step; when that step faults, and when an operation is refused
(60_exceptions.md R112 to R114). -/

namespace Sys2Proof.Machine

variable {i : Instr} {k : OpKind} {h : Handle} {s : State}

/-! ## The classes of operations -/

/-- Every operation is an ENC.*, a DEC.*, or one of the four of the transport class (R62). -/
theorem instr_class (i : Instr) :
    (∃ k h, i.opcode = .enc k ∧ i.handle? = some h) ∨ (∃ k h, i.opcode = .dec k ∧ i.handle? = some h) ∨ i = .init ∨
      (∃ h, i = .resolve h) ∨ (∃ h, i = .send h) ∨ ∃ h, i = .wait h := by
  cases i <;> simp [Instr.opcode, Instr.handle?]

/-- A well-formed ENC.* is the encode step on its words (R68). -/
theorem exec_enc (op : i.opcode = .enc k) (hh : i.handle? = some h) (wf : i.wellFormed = true) (s : State) :
    ∃ W, encodedWords s.clkMs i = some W ∧ exec i s = encodeStep k h W s := by
  cases i with
  | encRead | encWrite | encUpdate => cases op; cases hh; exact ⟨_, rfl, rfl⟩
  | encBread =>
    have fits := wellFormed_encBread.1 wf
    cases op
    cases hh
    exact ⟨_, rfl, if_pos fits⟩
  | encBwrite =>
    obtain ⟨fits, len⟩ := wellFormed_encBwrite.1 wf
    cases op
    cases hh
    exact ⟨_, rfl, (if_pos fits).trans (if_pos len)⟩
  | _ => cases op

/-- A well-formed DEC.* is the decode step with its pure decoder (R79). -/
theorem exec_dec (op : i.opcode = .dec k) (hh : i.handle? = some h) (wf : i.wellFormed = true) (s : State) :
    ∃ f, (∀ W, decodedReply W i = some (f W)) ∧ exec i s = decodeStep h f s := by
  cases i with
  | decRead | decWrite | decUpdate | decBwrite => cases hh; exact ⟨_, fun _ => rfl, rfl⟩
  | decBread =>
    have fits := wellFormed_decBread.1 wf
    cases hh
    exact ⟨_, fun _ => rfl, if_pos fits⟩
  | _ => cases op

/-! ## Refusals -/

/-- An ill-formed operation is refused before anything else (R114). -/
theorem exec_illFormed (wf : i.wellFormed = false) (s : State) : ∃ e, exec i s = .refused (.badRequest e) := by
  cases i with
  | encBread _ _ _ _ count | decBread _ count =>
    have big : ¬count ≤ Config.bulkMax := by simpa [Instr.wellFormed] using wf
    exact ⟨_, if_neg big⟩
  | encBwrite _ _ _ _ count bytes =>
    by_cases fits : count ≤ Config.bulkMax
    · have len : ¬bytes.length = count := by simpa [Instr.wellFormed, fits] using wf
      exact ⟨_, (if_pos fits).trans (if_neg len)⟩
    · exact ⟨_, if_neg fits⟩
  | _ => cases wf

theorem encodeStep_ne_refused (k : OpKind) (h : Handle) (W : Words) (s : State) (r : Refusal) :
    encodeStep k h W s ≠ .refused r := by
  unfold encodeStep
  cases acquire s h <;> exact nofun

theorem decodeStep_ne_refused (h : Handle) (f : Words → Reply) (s : State) (r : Refusal) :
    decodeStep h f s ≠ .refused r := by
  unfold decodeStep
  split
  · split <;> exact nofun
  · exact nofun

theorem execInit_ne_refused (s : State) (r : Refusal) : execInit s ≠ .refused r := by
  unfold execInit
  split <;> exact nofun

theorem execResolve_ne_refused (h : Handle) (s : State) (r : Refusal) : execResolve h s ≠ .refused r := by
  unfold execResolve
  split <;> exact nofun

theorem execSend_ne_refused (h : Handle) (s : State) (r : Refusal) : execSend h s ≠ .refused r := by
  unfold execSend
  split
  · split
    · exact nofun
    · split <;> exact nofun
  · exact nofun

theorem execWait_ne_refused (h : Handle) (s : State) (r : Refusal) : execWait h s ≠ .refused r := by
  unfold execWait
  split
  · split <;> exact nofun
  · exact nofun

/-- A well-formed operation is never refused. -/
theorem exec_ne_refused (wf : i.wellFormed = true) (s : State) (r : Refusal) : exec i s ≠ .refused r := by
  rcases instr_class i with ⟨k, h, op, hh⟩ | ⟨k, h, op, hh⟩ | rfl | ⟨h, rfl⟩ | ⟨h, rfl⟩ | ⟨h, rfl⟩
  · obtain ⟨W, _, e⟩ := exec_enc op hh wf s
    rw [e]
    exact encodeStep_ne_refused k h W s r
  · obtain ⟨f, _, e⟩ := exec_dec op hh wf s
    rw [e]
    exact decodeStep_ne_refused h f s r
  · exact execInit_ne_refused s r
  · exact execResolve_ne_refused h s r
  · exact execSend_ne_refused h s r
  · exact execWait_ne_refused h s r

/-- Settles O37: an ill-formed operation is refused first, and no shared step refuses. -/
theorem refusedExactlyWhenIllFormed : Obligations.RefusedExactlyWhenIllFormed := by
  unfold Obligations.RefusedExactlyWhenIllFormed
  refine fun i s => ⟨fun ⟨r, e⟩ => ?_, fun wf => ?_⟩
  · by_contra wf
    exact exec_ne_refused (by simpa using wf) s r e
  · obtain ⟨e, he⟩ := exec_illFormed wf s
    exact ⟨_, he⟩

/-! ## Faults -/

/-- An ENC.* faults on a slot its caller holds (R96). -/
theorem encodeStep_eq_fault {W : Words} {f : Fault} :
    encodeStep k h W s = .fault f ↔ f = .fSeq ∧ (s.slot h).phase ≠ .free ∧ (s.slot h).owner = some s.inputs.caller := by
  unfold encodeStep
  rcases acquire_cases s h with ⟨ha, hf⟩ | ⟨ha, hf, ho⟩ | ⟨ha, hf, ho⟩ <;> rw [ha]
  · simp [hf]
  · simp [hf, ho, eq_comm (a := f)]
  · simp [ho]

/-- A DEC.* faults unless its slot is the caller's in DONE, and then where a word is unwritten (R79). -/
theorem decodeStep_eq_fault {g : Words → Reply} {f : Fault} :
    decodeStep h g s = .fault f ↔
      (f = .fSeq ∧ ¬((s.slot h).phase = .done ∧ (s.slot h).owner = some s.inputs.caller)) ∨
      (f = .fUnwritten ∧ ((s.slot h).phase = .done ∧ (s.slot h).owner = some s.inputs.caller) ∧
        (s.slot h).cb.read = none) := by
  unfold decodeStep
  split
  · next ready =>
    cases hr : (s.slot h).cb.read <;> simp [ready, eq_comm (a := f)]
  · next ready => simp [ready, eq_comm (a := f)]

/-- A SEND faults unless its slot is the caller's in LOADED, and then where it would deliver an unwritten word (R94). -/
theorem execSend_eq_fault {f : Fault} :
    execSend h s = .fault f ↔
      (f = .fSeq ∧ ¬((s.slot h).phase = .loaded ∧ (s.slot h).owner = some s.inputs.caller)) ∨
      (f = .fUnwritten ∧ ((s.slot h).phase = .loaded ∧ (s.slot h).owner = some s.inputs.caller) ∧
        (∃ j, resolve s h = .ok j) ∧ s.inputs.reject = false ∧ (s.slot h).cb.read = none) := by
  unfold execSend
  split
  · next ready =>
    rcases sendPrimitive_cases s h with ⟨e, hr, hs⟩ | ⟨j, hr, hj, hs⟩ | ⟨j, hr, hj, _, hs⟩ | ⟨j, hr, hj, _, hs⟩ <;>
      rw [hs]
    · simp [ready, hr]
    · cases hb : (s.slot h).cb.read <;> simp [ready, hr, hj, hb, eq_comm (a := f)]
    · simp [ready, hj]
    · simp [ready, hj]
  · next ready => simp [ready, eq_comm (a := f)]

/-- A WAIT faults unless its slot is the caller's, in a phase after SEND (R97). -/
theorem execWait_eq_fault {f : Fault} :
    execWait h s = .fault f ↔ f = .fSeq ∧ ((s.slot h).owner ≠ some s.inputs.caller ∨ (s.slot h).phase = .free ∨
      (s.slot h).phase = .loaded) := by
  unfold execWait
  split
  · next ho => cases hp : (s.slot h).phase <;> simp [ho, eq_comm (a := f)]
  · next ho => simp [ho, eq_comm (a := f)]

theorem execResolve_ne_fault (h : Handle) (s : State) (f : Fault) : execResolve h s ≠ .fault f := by
  unfold execResolve
  split <;> exact nofun

/-- INIT faults once the transport is up (R87). -/
theorem execInit_eq_fault {f : Fault} : execInit s = .fault f ↔ f = .fReinit ∧ s.life = .ready := by
  unfold execInit
  cases s.life <;> simp [eq_comm (a := f)]

/-- Settles O35: refusals come first; after them each class faults as its shared step does. -/
theorem faultsAreExactlyTheIllSequencedUses : Obligations.FaultsAreExactlyTheIllSequencedUses := by
  unfold Obligations.FaultsAreExactlyTheIllSequencedUses
  intro i s
  cases wf : i.wellFormed with
  | false =>
    obtain ⟨e, he⟩ := exec_illFormed wf s
    have notInit : i ≠ .init := by rintro rfl; cases wf
    simp [he, notInit]
  | true =>
    rcases instr_class i with ⟨k, h, op, hh⟩ | ⟨k, h, op, hh⟩ | rfl | ⟨h, rfl⟩ | ⟨h, rfl⟩ | ⟨h, rfl⟩
    · obtain ⟨W, _, e⟩ := exec_enc op hh wf s
      have notInit : i ≠ .init := by rintro rfl; cases op
      simp [e, encodeStep_eq_fault, op, hh, notInit]
    · obtain ⟨g, _, e⟩ := exec_dec op hh wf s
      have notInit : i ≠ .init := by rintro rfl; cases op
      simp [e, decodeStep_eq_fault, op, hh, notInit]
    · simp [exec, execInit_eq_fault, Instr.handle?]
    · simp [exec, execResolve_ne_fault, Instr.opcode, Instr.handle?]
    · simp [exec, execSend_eq_fault, Instr.opcode, Instr.handle?]
    · simp [exec, execWait_eq_fault, Instr.opcode, Instr.handle?]

/-- A buffer with an unwritten word cannot be read (R15). -/
theorem read_eq_none {b : Buffer} (h : b.c0 = none ∨ b.c1 = none ∨ b.c2 = none ∨ b.c3 = none) : b.read = none := by
  cases hr : b.read with
  | none => rfl
  | some W =>
    rw [eq_ofWords_of_read hr] at h
    simp [Buffer.ofWords] at h

theorem eq_send_of_opcode {i : Instr} {h : Handle} (op : i.opcode = .send) (hh : i.handle? = some h) : i = .send h := by
  cases i <;> cases op
  cases hh
  rfl

/-- Settles O36: both operations read the whole buffer, after every other check. -/
theorem unwrittenWordIsNeverRead : Obligations.UnwrittenWordIsNeverRead := by
  unfold Obligations.UnwrittenWordIsNeverRead
  intro i k h s hh wf owner unwritten
  have unread := read_eq_none unwritten
  refine ⟨fun op phase => ?decode, fun j op phase life index accepted => ?send⟩
  case decode =>
    obtain ⟨g, _, e⟩ := exec_dec op hh wf s
    rw [e]
    exact decodeStep_eq_fault.2 (.inr ⟨rfl, ⟨phase, owner⟩, unread⟩)
  case send =>
    rw [eq_send_of_opcode op hh]
    exact execSend_eq_fault.2 (.inr ⟨rfl, ⟨phase, owner⟩, ⟨j, resolve_of_atIndex life index⟩, accepted, unread⟩)

/-- An operation that reads an unwritten word has a DONE or a LOADED slot whose buffer cannot be read. -/
theorem unread_of_exec_fUnwritten {i : Instr} {s : State} (e : exec i s = .fault .fUnwritten) :
    ∃ h, ((s.slot h).phase = .done ∨ (s.slot h).phase = .loaded) ∧ (s.slot h).cb.read = none := by
  cases wf : i.wellFormed with
  | false =>
    obtain ⟨r, hr⟩ := exec_illFormed wf s
    rw [hr] at e
    cases e
  | true =>
    rcases instr_class i with ⟨k, h, op, hh⟩ | ⟨k, h, op, hh⟩ | rfl | ⟨h, rfl⟩ | ⟨h, rfl⟩ | ⟨h, rfl⟩
    · obtain ⟨W, _, he⟩ := exec_enc op hh wf s
      rw [he] at e
      cases (encodeStep_eq_fault.1 e).1
    · obtain ⟨g, _, he⟩ := exec_dec op hh wf s
      rw [he] at e
      rcases decodeStep_eq_fault.1 e with ⟨f, _⟩ | ⟨_, ⟨phase, _⟩, unread⟩
      · cases f
      · exact ⟨h, .inl phase, unread⟩
    · cases (execInit_eq_fault.1 e).1
    · exact absurd e (execResolve_ne_fault h s _)
    · rcases execSend_eq_fault.1 e with ⟨f, _⟩ | ⟨_, ⟨phase, _⟩, _, _, unread⟩
      · cases f
      · exact ⟨h, .inr phase, unread⟩
    · cases (execWait_eq_fault.1 e).1

end Sys2Proof.Machine
end

section
/-! The invariant of the sequenced machine: it holds at reset, every step keeps it, and what follows from it
(10_state.md R17 to R24, 43_transfer.md R95). -/

namespace Sys2Proof.Machine

/-! ## What a slot holds in each phase -/

section
variable {sl : Slot}

theorem SlotOk.of_loaded (ok : SlotOk sl) (hp : sl.phase = .loaded) : ∃ k W c, IsRequest k W ∧ sl = loadedSlot k W c := by
  rwa [SlotOk, hp] at ok

theorem SlotOk.of_sent (ok : SlotOk sl) (hp : sl.phase = .sent) :
    ∃ k W c, IsRequest k W ∧ sl = ⟨.sent, some k, .ofWords W, some W, some c⟩ := by
  rwa [SlotOk, hp] at ok

theorem SlotOk.of_done (ok : SlotOk sl) (hp : sl.phase = .done) :
    ∃ k W R c, IsRequest k W ∧ sl = ⟨.done, some k, .ofWords R, some W, some c⟩ := by
  rwa [SlotOk, hp] at ok

/-- In LOADED and in DONE all four words are written. -/
theorem SlotOk.read_ne_none (ok : SlotOk sl) (hp : sl.phase = .done ∨ sl.phase = .loaded) : sl.cb.read ≠ none := by
  rcases hp with hp | hp
  · obtain ⟨k, W, R, c, _, rfl⟩ := ok.of_done hp
    simp
  · obtain ⟨k, W, c, _, rfl⟩ := ok.of_loaded hp
    simp [loadedSlot]

theorem slotOk_loadedSlot {k : OpKind} {W : Words} (c : CallerId) (req : IsRequest k W) : SlotOk (loadedSlot k W c) :=
  ⟨k, W, c, req, rfl⟩

/-- SEND delivers the request that stands in the buffer. -/
theorem SlotOk.sentSlot {W : Words} (ok : SlotOk sl) (hp : sl.phase = .loaded) (hr : sl.cb.read = some W) :
    SlotOk (Machine.sentSlot sl W) := by
  obtain ⟨k, W', c, req, rfl⟩ := ok.of_loaded hp
  cases hr
  exact ⟨k, W', c, req, rfl⟩

theorem SlotOk.doneSlot (ok : SlotOk sl) (hp : sl.phase = .sent) (R : Words) : SlotOk (Machine.doneSlot sl R) := by
  obtain ⟨k, W, c, req, rfl⟩ := ok.of_sent hp
  exact ⟨k, W, R, c, req, rfl⟩

theorem SlotOk.failedSlot (ok : SlotOk sl) (hp : sl.phase = .sent) : SlotOk (Machine.failedSlot sl) := by
  obtain ⟨k, W, c, req, rfl⟩ := ok.of_sent hp
  exact ⟨k, W, c, req, rfl⟩

end

/-! ## The updates of the state keep the invariant -/

section
variable {s t : State}

theorem TransportOk.of_same (ok : TransportOk s) (same : SameTransport s t) : TransportOk t := by
  unfold TransportOk
  rw [same.life, same.nchanR, same.chans, same.imrAllMasked, same.chanMask]
  exact ok

/-- The invariant speaks of the tables and the transport alone. -/
theorem Inv.of_same (inv : Inv s) (slots : t.slots = s.slots) (callers : t.callers = s.callers) (peer : t.peer = s.peer)
    (same : SameTransport s t) : Inv t where
  slotsWf := slots ▸ inv.slotsWf
  callersWf := callers ▸ inv.callersWf
  peerWf := peer ▸ inv.peerWf
  slotOk h := slot_congr slots h ▸ inv.slotOk h
  transportOk := inv.transportOk.of_same same

theorem Inv.setSlot (inv : Inv s) (h : Handle) {sl : Slot} (ok : SlotOk sl) : Inv (s.setSlot h sl) where
  slotsWf := Sparse.wf_set inv.slotsWf _ _
  callersWf := inv.callersWf
  peerWf := inv.peerWf
  slotOk h' := by
    rw [slot_setSlot]
    split
    · exact ok
    · exact inv.slotOk h'
  transportOk := inv.transportOk

theorem Inv.freeSlot (inv : Inv s) (h : Handle) : Inv (s.freeSlot h) := inv.setSlot h rfl

theorem Inv.reply (inv : Inv s) (r : Reply) : Inv (s.reply r) := inv.of_same rfl rfl rfl ⟨rfl, rfl, rfl, rfl, rfl⟩

theorem Inv.endTransfer (inv : Inv s) (h : Handle) (e : TransportError) : Inv (s.endTransfer h e) :=
  (inv.freeSlot h).reply (.err e)

theorem Inv.writeDbr (inv : Inv s) (v : BitVec Config.dbrBits) : Inv (s.writeDbr v) :=
  inv.of_same rfl rfl rfl ⟨rfl, rfl, rfl, rfl, rfl⟩

theorem Inv.dbclear (inv : Inv s) (m : BitVec Config.dbrBits) : Inv (Machine.dbclear m s) :=
  inv.of_same rfl rfl rfl ⟨rfl, rfl, rfl, rfl, rfl⟩

theorem Inv.withSchedule (inv : Inv s) (rest : List AgentStep) : Inv { s with schedule := rest } :=
  inv.of_same rfl rfl rfl ⟨rfl, rfl, rfl, rfl, rfl⟩

theorem Inv.issue (inv : Inv s) (io : Inputs) (rest : List AgentStep) : Inv (s.issue io rest) :=
  inv.of_same rfl rfl rfl ⟨rfl, rfl, rfl, rfl, rfl⟩

theorem Inv.setCaller (inv : Inv s) (k : CallerId) (c : Caller) : Inv (s.setCaller k c) :=
  ⟨inv.slotsWf, Sparse.wf_set inv.callersWf _ _, inv.peerWf, inv.slotOk, inv.transportOk⟩

theorem Inv.retire (inv : Inv s) : Inv s.retire := by
  unfold State.retire
  split
  · exact inv.setCaller _ _
  · exact inv

theorem Inv.withPeer (inv : Inv s) {P : List Host.Cell} (wf : Memory.wf P) : Inv { s with peer := P } :=
  ⟨inv.slotsWf, inv.callersWf, wf, inv.slotOk, inv.transportOk⟩

theorem Inv.bringUp (inv : Inv s) : Inv s.bringUp :=
  ⟨inv.slotsWf, inv.callersWf, inv.peerWf, inv.slotOk,
    ⟨rfl, length_chooseHandles _ _ _, (chooseHandles_nodup _ _ _).1, rfl⟩⟩

theorem Inv.respond (inv : Inv s) (h : Handle) (R : Words) : Inv (Machine.respond h R s) := by
  rcases respond_cases h R s with ⟨hp, e⟩ | ⟨_, e⟩ <;> rw [e]
  · exact inv.setSlot h ((inv.slotOk h).doneSlot hp R)
  · exact inv

theorem Inv.fail (inv : Inv s) (h : Handle) : Inv (Machine.fail h s) := by
  rcases fail_cases h s with ⟨hp, e⟩ | ⟨_, e⟩ <;> rw [e]
  · exact inv.setSlot h ((inv.slotOk h).failedSlot hp)
  · exact inv

theorem Inv.peerRespond (inv : Inv s) (h : Handle) : Inv (Machine.peerRespond h s) := by
  rcases peerRespond_cases h s with ⟨W, k, _, _, _, e⟩ | e <;> rw [e]
  · exact (inv.respond h _).withPeer (wf_peerRegisters k W inv.peerWf)
  · exact inv

/-! ## Every step -/

theorem Inv.of_effect {i : Instr} (inv : Inv s) (e : Effect i s t) : Inv t := by
  cases e with
  | encode op _ wf hW => exact (inv.setSlot _ (slotOk_loadedSlot _ (isRequest_of_encodedWords wf op hW))).reply _
  | encodeHold => exact inv.reply _
  | decode => exact (inv.freeSlot _).reply _
  | init => exact inv.bringUp.reply _
  | resolveOk => exact inv.reply _
  | resolveErr => exact inv.reply _
  | sendOk _ hp _ _ hb => exact ((inv.writeDbr _).setSlot _ ((inv.slotOk _).sentSlot hp hb)).reply _
  | sendErr => exact inv.endTransfer _ _
  | sendRejectedRung => exact (inv.writeDbr _).endTransfer _ _
  | waitHold => exact inv.reply _
  | waitDone => exact inv.reply _
  | waitFailed => exact inv.endTransfer _ _

theorem Inv.of_step (inv : Inv s) (e : step s = .next t) : Inv t := by
  cases effect_of_step e with
  | idle => exact inv
  | noOperation => exact inv.withSchedule _
  | @operation io rest _ _ _ _ _ _ he => exact ((inv.issue io rest).of_effect (effect_of_exec he)).retire
  | respond => exact (inv.withSchedule _).respond _ _
  | peerRespond => exact (inv.withSchedule _).peerRespond _
  | fail => exact (inv.withSchedule _).fail _
  | dbclear => exact (inv.withSchedule _).dbclear _

end

/-- Settles O52: every effect of an operation and every agent's step is made of updates that keep the invariant. -/
theorem everyStepKeepsInvariant : Obligations.EveryStepKeepsInvariant := by
  unfold Obligations.EveryStepKeepsInvariant
  exact fun _ _ inv e => inv.of_step e

/-- Settles O46: the values the model's reset state is written with. -/
theorem resetValuesOfTheSpec : Obligations.ResetValuesOfTheSpec := by
  unfold Obligations.ResetValuesOfTheSpec
  exact ⟨rfl, rfl, rfl, fun _ => rfl⟩

/-- Settles O51: empty tables, every slot FREE, the transport not yet up. -/
theorem invariantHoldsAtReset : Obligations.InvariantHoldsAtReset := by
  unfold Obligations.InvariantHoldsAtReset
  exact ⟨Sparse.wf_nil _, Sparse.wf_nil _, Sparse.wf_nil _, fun _ => rfl, rfl, rfl⟩

/-! ## What follows from the invariant -/

theorem eq_fault_of_retireOutcome {o : Host.Outcome State Fault Refusal} {f : Fault} (e : retireOutcome o = .fault f) :
    o = .fault f := by
  cases o with
  | next u => cases e
  | fault g => cases e; rfl
  | refused r => cases e

/-- A step that faults is a caller's operation that faults. -/
theorem exec_fault_of_step {s : State} {f : Fault} (e : step s = .fault f) :
    ∃ io rest i, exec i (s.issue io rest) = .fault f := by
  cases hs : s.schedule with
  | nil =>
    rw [step, scheduledStep, hs] at e
    cases e
  | cons a rest =>
    rw [step_of_schedule hs] at e
    cases a with
    | caller io =>
      simp only [agentStep, callerStep] at e
      split at e
      · cases e
      · split at e
        · next i _ => exact ⟨io, rest, i, eq_fault_of_retireOutcome e⟩
        · cases e
    | _ => cases e

/-- Settles O53: an operation that reads an unwritten word has a DONE or LOADED slot with one, which the invariant
excludes. -/
theorem unwrittenFaultCannotOccur : Obligations.UnwrittenFaultCannotOccur := by
  unfold Obligations.UnwrittenFaultCannotOccur
  intro s inv e
  obtain ⟨io, rest, i, he⟩ := exec_fault_of_step e
  obtain ⟨h, hp, unread⟩ := unread_of_exec_fUnwritten he
  exact ((inv.issue io rest).slotOk h).read_ne_none hp unread

/-- The reference peer answers every request the encoders make (R61, R107). -/
theorem requestKind?_of_isRequest {k : OpKind} {W : Words} (req : IsRequest k W) : requestKind? W = some k := by
  unfold requestKind?
  rw [req.func, toNat_funcByte, (ofCode?_eq_some_iff _ k).2 rfl]
  cases k with
  | bulkRead => exact if_pos (req.count (.inl rfl))
  | bulkWrite => exact if_pos (req.count (.inr rfl))
  | _ => rfl

/-- What the reference peer's step is on a SENT slot that holds a request it answers. -/
theorem peerRespond_sent {s : State} {h : Handle} {W : Words} {k : OpKind} (hp : (s.slot h).phase = .sent)
    (hs : (s.slot h).sent = some W) (hk : requestKind? W = some k) :
    peerRespond h s = { s.setSlot h (doneSlot (s.slot h) (peerResponse s.peer k W)) with
      peer := peerRegisters s.peer k W } := by
  simp only [peerRespond, hp, hs, hk, respond, if_pos]

theorem slot_peerRespond_sent {s : State} {h : Handle} {W : Words} {k : OpKind} (hp : (s.slot h).phase = .sent)
    (hs : (s.slot h).sent = some W) (hk : requestKind? W = some k) :
    (peerRespond h s).slot h = doneSlot (s.slot h) (peerResponse s.peer k W) := by
  rw [peerRespond_sent hp hs hk, slot_withPeer, slot_setSlot_self]

/-- Settles O60: a SENT slot holds an encoder's request, which the peer answers. -/
theorem referencePeerAnswersEverySend : Obligations.ReferencePeerAnswersEverySend := by
  unfold Obligations.ReferencePeerAnswersEverySend
  intro s h rest inv hp hs
  obtain ⟨k, W, c, req, hsl⟩ := (inv.slotOk h).of_sent hp
  have sent : (s.slot h).sent = some W := by rw [hsl]
  have kind := requestKind?_of_isRequest req
  have stepped : step s = .next (peerRespond h { s with schedule := rest }) := step_of_schedule hs
  have slot := slot_peerRespond_sent (s := { s with schedule := rest }) hp sent kind
  exact ⟨_, W, k, stepped, sent, kind, congrArg Slot.phase slot, congrArg Slot.cb slot,
    congrArg State.peer (peerRespond_sent (s := { s with schedule := rest }) hp sent kind)⟩

end Sys2Proof.Machine
end

section
/-! The block operations ENC.* and DEC.*: what they leave in their slot and on the result ports, what they leave alone, and
what they depend on (40_encoder.md R68 to R73, 41_decoder.md R78 to R84, 43_transfer.md R96). -/

namespace Sys2Proof.Machine

/-! ## Frames -/

theorem unchangedBut_refl (touched : Option Handle) (s : State) : UnchangedBut touched s s :=
  ⟨fun _ _ => rfl, rfl, rfl, rfl, rfl, rfl, rfl, rfl, rfl, rfl, rfl⟩

theorem unchangedBut_reply (s : State) (r : Reply) : UnchangedBut none s (s.reply r) :=
  ⟨fun _ _ => rfl, rfl, rfl, rfl, rfl, rfl, rfl, rfl, rfl, rfl, rfl⟩

theorem unchangedBut_setSlot (s : State) (h : Handle) (sl : Slot) : UnchangedBut (some h) s (s.setSlot h sl) :=
  ⟨fun _ ne => slot_setSlot_ne s sl fun e => ne (congrArg some e.symm), rfl, rfl, rfl, rfl, rfl, rfl, rfl, rfl, rfl, rfl⟩

theorem unchangedBut_setSlot_reply (s : State) (h : Handle) (sl : Slot) (r : Reply) :
    UnchangedBut (some h) s ((s.setSlot h sl).reply r) :=
  ⟨(unchangedBut_setSlot s h sl).slots, rfl, rfl, rfl, rfl, rfl, rfl, rfl, rfl, rfl, rfl⟩

/-! ## ENC.* -/

theorem packW0_eq_ofNat (ty : BitVec 4) (reg : Byte) (chid : BitVec 4) :
    packW0 ty reg chid = BitVec.ofNat 32 (chid.toNat * 2 ^ 12 + ty.toNat * 2 ^ 8 + reg.toNat) := by
  rw [← toNat_packW0, BitVec.ofNat_toNat, BitVec.setWidth_eq]

theorem packW1_eq_ofNat (k : OpKind) (value mask : Byte) :
    packW1 (funcByte k) value mask = BitVec.ofNat 32 (mask.toNat * 2 ^ 16 + value.toNat * 2 ^ 8 + k.code) := by
  rw [← toNat_funcByte, ← toNat_packW1, BitVec.ofNat_toNat, BitVec.setWidth_eq]

theorem packW1_zero_mask (k : OpKind) (value : Byte) :
    packW1 (funcByte k) value 0 = BitVec.ofNat 32 (value.toNat * 2 ^ 8 + k.code) := by
  rw [packW1_eq_ofNat, show (0 : Byte).toNat = 0 from rfl, Nat.zero_mul, Nat.zero_add]

section
variable {i : Instr} {k : OpKind} {h : Handle} {W : Words} {s : State}

/-- A well-formed ENC.* on a FREE slot completes with its words in the slot (R68). -/
theorem exec_enc_free (op : i.opcode = .enc k) (hh : i.handle? = some h) (wf : i.wellFormed = true)
    (hW : encodedWords s.clkMs i = some W) (hf : (s.slot h).phase = .free) :
    exec i s = .next ((s.setSlot h (loadedSlot k W s.inputs.caller)).reply .done) := by
  obtain ⟨W', hW', e⟩ := exec_enc op hh wf s
  cases hW.symm.trans hW'
  rw [e, encodeStep_free hf]

theorem enc_loads (op : i.opcode = .enc k) (hh : i.handle? = some h) (wf : i.wellFormed = true)
    (hW : encodedWords s.clkMs i = some W) (hf : (s.slot h).phase = .free) {sl : Slot}
    (hsl : loadedSlot k W s.inputs.caller = sl) :
    ∃ t, exec i s = .next t ∧ t.slot h = sl ∧ t.port = some .done ∧ UnchangedBut (some h) s t :=
  ⟨_, exec_enc_free op hh wf hW hf, by rw [slot_reply, slot_setSlot_self, hsl], rfl, unchangedBut_setSlot_reply s h _ _⟩

/-- A well-formed ENC.* on a slot another caller holds waits (R96). -/
theorem exec_enc_held (op : i.opcode = .enc k) (hh : i.handle? = some h) (wf : i.wellFormed = true)
    (hf : (s.slot h).phase ≠ .free) (ho : (s.slot h).owner ≠ some s.inputs.caller) :
    exec i s = .next (s.reply .hold) := by
  obtain ⟨W, _, e⟩ := exec_enc op hh wf s
  rw [e, encodeStep, acquire_held hf ho]

end

/-- Settles O16: the words are those of `encode_read`, whose word 1 packs three zero bytes. -/
theorem encReadLoadsItsRequest : Obligations.EncReadLoadsItsRequest := by
  unfold Obligations.EncReadLoadsItsRequest
  intro s h ty reg chid hf
  refine enc_loads rfl rfl rfl rfl hf ?_
  rw [encodeRead, packW0_eq_ofNat]
  rfl

/-- Settles O17: the words are those of `encode_write`, whose word 1 packs a zero mask. -/
theorem encWriteLoadsItsRequest : Obligations.EncWriteLoadsItsRequest := by
  unfold Obligations.EncWriteLoadsItsRequest
  intro s h ty reg chid value hf
  refine enc_loads rfl rfl rfl rfl hf ?_
  rw [encodeWrite, packW0_eq_ofNat, packW1_zero_mask]
  rfl

/-- Settles O18: the words are those of `encode_update`, whose word 1 packs value and mask as given. -/
theorem encUpdateLoadsItsRequest : Obligations.EncUpdateLoadsItsRequest := by
  unfold Obligations.EncUpdateLoadsItsRequest
  intro s h ty reg chid value mask hf
  refine enc_loads rfl rfl rfl rfl hf ?_
  rw [encodeUpdate, packW0_eq_ofNat, packW1_eq_ofNat]
  rfl

/-- Settles O19: the words are those of `encode_bulk_read`, whose value field is the count. -/
theorem encBreadLoadsItsRequest : Obligations.EncBreadLoadsItsRequest := by
  unfold Obligations.EncBreadLoadsItsRequest
  intro s h ty reg chid count fits hf
  refine enc_loads rfl rfl (wellFormed_encBread.2 fits) rfl hf ?_
  rw [encodeBulkRead, packW0_eq_ofNat, packW1_zero_mask, toNat_ofNat_count fits]
  rfl

/-- Settles O20: the words are those of the encoder, whose bytes stand in their lanes of words that were zero. -/
theorem encBwriteLoadsItsRequest : Obligations.EncBwriteLoadsItsRequest := by
  unfold Obligations.EncBwriteLoadsItsRequest
  intro s h ty reg chid count bytes fits len hf
  obtain ⟨t, e, slot, port, frame⟩ := enc_loads rfl rfl (wellFormed_encBwrite.2 ⟨fits, len⟩) rfl hf rfl
  refine ⟨t, encodeBulkWrite ty reg chid count bytes, e, slot, ?w0, ?w1, fun j hj => ?lanes, port, frame⟩
  case w0 => rw [encodeBulkWrite, (putBytes_w01 _ _ _).1, toNat_packW0]
  case w1 =>
    rw [encodeBulkWrite, (putBytes_w01 _ _ _).2, toNat_packW1, toNat_ofNat_count fits, toNat_funcByte]
    simp [OpKind.code]
  case lanes => rw [encodeBulkWrite, ← len, List.take_length, getByte_putBytes_zero _ _ (len ▸ fits) hj]

/-- Settles O21: the lock is self-held or held by another, and the encode step follows it. -/
theorem heldSlotIsNotEncoded : Obligations.HeldSlotIsNotEncoded := by
  unfold Obligations.HeldSlotIsNotEncoded
  refine fun i k h s op hh wf hf => ⟨fun ho => ?self, fun ho => ?other⟩
  case self =>
    obtain ⟨W, _, e⟩ := exec_enc op hh wf s
    rw [e]
    exact encodeStep_eq_fault.2 ⟨rfl, hf, ho⟩
  case other => exact ⟨_, exec_enc_held op hh wf hf ho, rfl, unchangedBut_reply s .hold⟩

/-- An operation that goes on is well formed. -/
theorem wellFormed_of_exec {i : Instr} {s t : State} (e : exec i s = .next t) : i.wellFormed = true := by
  by_contra wf
  obtain ⟨r, hr⟩ := exec_illFormed (by simpa using wf) s
  rw [hr] at e
  cases e

/-- The encoder's words depend on the clock sample alone, and a bulk request's not on it either. -/
theorem encodedWords_clkMs_eq {i : Instr} {k : OpKind} {s s' : State} (op : i.opcode = .enc k)
    (clock : k = .bulkRead ∨ k = .bulkWrite ∨ s'.inputs.clockMs % 2 ^ 32 = s.inputs.clockMs % 2 ^ 32) :
    encodedWords s'.clkMs i = encodedWords s.clkMs i := by
  rcases clock with bulk | bulk | clock
  · exact encodedWords_eq_of_bulk op (.inl bulk) _ _
  · exact encodedWords_eq_of_bulk op (.inr bulk) _ _
  · have sample : s'.clkMs = s.clkMs := BitVec.eq_of_toNat_eq (by simpa [State.clkMs] using clock)
    rw [sample]

/-- Settles O22: the two states give the encode step the same words and the lock the same answer. -/
theorem encodeIgnoresEverythingElse : Obligations.EncodeIgnoresEverythingElse := by
  unfold Obligations.EncodeIgnoresEverythingElse
  intro i k h s s' t op hh slot caller clock e
  have wf := wellFormed_of_exec e
  obtain ⟨W, hW, he⟩ := exec_enc op hh wf s
  rw [he] at e
  rcases encodeStep_next e with ⟨hf, rfl⟩ | ⟨hf, ho, rfl⟩
  · have e' := exec_enc_free op hh wf ((encodedWords_clkMs_eq op clock).trans hW) (slot.symm ▸ hf)
    exact ⟨_, e', by simp [caller], rfl⟩
  · have e' := exec_enc_held op hh wf (slot.symm ▸ hf) (by rwa [slot, caller])
    exact ⟨_, e', slot, rfl⟩

/-! ## DEC.* -/

section
variable {i : Instr} {k : OpKind} {h : Handle} {s : State}

/-- A well-formed DEC.* of the caller's DONE slot completes with what its pure decoder gives, and frees the slot (R79). -/
theorem exec_dec_done {W : Words} {r : Reply} (op : i.opcode = .dec k) (hh : i.handle? = some h) (wf : i.wellFormed = true)
    (hp : (s.slot h).phase = .done) (ho : (s.slot h).owner = some s.inputs.caller) (hb : (s.slot h).cb = .ofWords W)
    (hd : decodedReply W i = some r) : exec i s = .next ((s.freeSlot h).reply r) := by
  obtain ⟨g, hg, e⟩ := exec_dec op hh wf s
  cases (hg W).symm.trans hd
  rw [e, decodeStep_done hp ho (by rw [hb, read_ofWords])]

theorem dec_returns {W : Words} {r : Reply} (op : i.opcode = .dec k) (hh : i.handle? = some h) (wf : i.wellFormed = true)
    (hp : (s.slot h).phase = .done) (ho : (s.slot h).owner = some s.inputs.caller) (hb : (s.slot h).cb = .ofWords W)
    (hd : decodedReply W i = some r) :
    ∃ t, exec i s = .next t ∧ t.port = some r ∧ t.slot h = Slot.free ∧ UnchangedBut (some h) s t :=
  ⟨_, exec_dec_done op hh wf hp ho hb hd, rfl, slot_freeSlot_self s h, unchangedBut_setSlot_reply s h _ _⟩

end

/-- Settles O24: the reply is that of `decode_read`, two fields of word 1. -/
theorem decReadReturnsCodeAndValue : Obligations.DecReadReturnsCodeAndValue := by
  unfold Obligations.DecReadReturnsCodeAndValue
  intro s h w0 w1 w2 w3 hp ho hb
  obtain ⟨t, e, port, slot, frame⟩ := dec_returns (i := .decRead h) (W := ⟨w0, w1, w2, w3⟩) rfl rfl rfl hp ho hb rfl
  exact ⟨t, _, _, e, port, toNat_returnCode _, toNat_getField 8 8 w1, slot, frame⟩

/-- Settles O25: the three decoders give the return code and nothing else. -/
theorem decStatusReturnsCode : Obligations.DecStatusReturnsCode := by
  unfold Obligations.DecStatusReturnsCode
  intro i s h w0 w1 w2 w3 hi hp ho hb
  have status : (∃ k, i.opcode = .dec k) ∧ i.handle? = some h ∧ i.wellFormed = true ∧
      decodedReply ⟨w0, w1, w2, w3⟩ i = some (.rc (returnCode ⟨w0, w1, w2, w3⟩)) := by
    rcases hi with rfl | rfl | rfl <;> exact ⟨⟨_, rfl⟩, rfl, rfl, rfl⟩
  obtain ⟨⟨k, op⟩, hh, wf, hd⟩ := status
  obtain ⟨t, e, port, slot, frame⟩ := dec_returns op hh wf hp ho (W := ⟨w0, w1, w2, w3⟩) hb hd
  exact ⟨t, _, e, port, toNat_returnCode _, slot, frame⟩

/-- `payload_valid` says that the return code is zero (R83). -/
theorem payloadValid_iff (W : Words) : payloadValid W = true ↔ returnCode W = 0 := by
  simp [payloadValid]

/-- The bytes of a bulk read with return code zero are its first lanes. -/
theorem decodeBulkRead_bytes_of_success {W : Words} {count : Nat} (rc : returnCode W = 0) :
    (decodeBulkRead W count).2.1 = getBytes W count := by
  simp [decodeBulkRead, (payloadValid_iff W).2 rc]

theorem decodeBulkRead_bytes_of_failure {W : Words} {count : Nat} (rc : returnCode W ≠ 0) :
    (decodeBulkRead W count).2.1 = [] := by
  simp [decodeBulkRead, mt (payloadValid_iff W).1 rc]

/-- Settles O26: the count is checked before the slot is looked at, and the bytes follow the return code. -/
theorem decBreadReturnsPayloadOnlyOnSuccess : Obligations.DecBreadReturnsPayloadOnlyOnSuccess := by
  unfold Obligations.DecBreadReturnsPayloadOnlyOnSuccess
  refine fun s h count => ⟨fun big => if_neg (Nat.not_le.2 big), fun W fits hp ho hb => ?_⟩
  obtain ⟨t, e, port, slot, frame⟩ :=
    dec_returns (i := .decBread h count) (W := W) rfl rfl (wellFormed_decBread.2 fits) hp ho hb rfl
  refine ⟨t, _, _, _, e, port, toNat_returnCode W, payloadValid_iff W, decodeBulkRead_bytes_of_failure, fun rc => ?_, slot,
    frame⟩
  rw [decodeBulkRead_bytes_of_success rc]
  exact ⟨by simp [getBytes], fun j hj => by simp [getBytes, hj]⟩

/-- Settles O27: each decoder is a function of the return code and the bits its rule adds. -/
theorem decodersIgnoreEverythingElse : Obligations.DecodersIgnoreEverythingElse := by
  unfold Obligations.DecodersIgnoreEverythingElse
  intro W W' rc
  have code : returnCode W = returnCode W' := rc
  have status : Reply.rc (returnCode W) = .rc (returnCode W') := congrArg _ code
  refine ⟨fun h => ⟨congrArg some status, congrArg some status, congrArg some status⟩, fun value h => ?read,
    fun h count lanes => ?bulkRead⟩
  case read => simp only [decodedReply, decodeRead, code, value]
  case bulkRead =>
    have valid : payloadValid W = payloadValid W' := by rw [payloadValid, payloadValid, code]
    have bytes : (decodeBulkRead W count).2.1 = (decodeBulkRead W' count).2.1 := by
      rcases lanes with failed | lanes
      · rw [decodeBulkRead_bytes_of_failure failed, decodeBulkRead_bytes_of_failure (code ▸ failed)]
      · have same : getBytes W count = getBytes W' count :=
          List.map_congr_left fun j hj => lanes j (List.mem_range.1 hj)
        rw [decodeBulkRead, decodeBulkRead, valid, same]
    simp only [decodedReply, bytes]
    simp only [decodeBulkRead, code, valid]

end Sys2Proof.Machine
end

section
/-! INIT, RESOLVE, SEND and WAIT: what each does and leaves alone, and where transport errors come from
(42_channel_selector.md R87 to R94, 43_transfer.md R97, 60_exceptions.md R108 to R111). -/

namespace Sys2Proof.Machine

/-! ## INIT and RESOLVE -/

/-- Settles O28: INIT before Ready is `bringUp`, which chooses distinct handles and takes a distinct draw as it stands. -/
theorem initBringsUpTransport : Obligations.InitBringsUpTransport := by
  unfold Obligations.InitBringsUpTransport
  intro s hl
  have drawn : s.inputs.handles.Nodup → s.inputs.handles.length = popcount s.chanMask →
      s.bringUp.chans = s.inputs.handles := fun nodup len => by
    rw [State.bringUp_chans, ← len, chooseHandles_self _ _ nodup (by simp)]
  exact ⟨_, exec_init_of_uninitialized hl, rfl, rfl, length_chooseHandles _ _ _, (chooseHandles_nodup _ _ _).1, rfl, rfl,
    rfl, fun _ => rfl, rfl, rfl, rfl, rfl, rfl, drawn⟩

section
variable {s : State} {h : Handle}

theorem exec_resolve_ok {j : Nat} (hr : resolve s h = .ok j) : exec (.resolve h) s = .next (s.reply (.index j)) := by
  rw [exec, execResolve, hr]

theorem exec_resolve_error {e : TransportError} (hr : resolve s h = .error e) :
    exec (.resolve h) s = .next (s.reply (.err e)) := by
  rw [exec, execResolve, hr]
  rfl

/-- `resolve` fails as not ready exactly before INIT (R91). -/
theorem life_of_resolve_notReady (hr : resolve s h = .error .notReady) : s.life = .uninitialized := by
  rcases resolve_cases s h with ⟨hl, _⟩ | ⟨_, _, e⟩ | ⟨j, _, _, e⟩
  · exact hl
  · cases e.symm.trans hr
  · cases e.symm.trans hr

/-- `resolve` fails as invalid exactly for a foreign handle after INIT (R91). -/
theorem foreign_of_resolve_inval (hr : resolve s h = .error .inval) : s.life = .ready ∧ Foreign s h := by
  rcases resolve_cases s h with ⟨_, e⟩ | ⟨hl, hx, _⟩ | ⟨j, _, _, e⟩
  · cases e.symm.trans hr
  · exact ⟨hl, foreign_of_indexOf? hx⟩
  · cases e.symm.trans hr

theorem not_foreign_of_resolve_ok {j : Nat} (hr : resolve s h = .ok j) : s.life = .ready ∧ ¬Foreign s h := by
  rcases resolve_cases s h with ⟨_, e⟩ | ⟨_, _, e⟩ | ⟨j', hl, hx, _⟩
  · cases e.symm.trans hr
  · cases e.symm.trans hr
  · exact ⟨hl, fun foreign => nomatch hx.symm.trans (indexOf?_of_foreign foreign)⟩

/-- `resolve` fails in no third way. -/
theorem resolve_error_cases {e : TransportError} (hr : resolve s h = .error e) : e = .notReady ∨ e = .inval := by
  rcases resolve_cases s h with ⟨_, e'⟩ | ⟨_, _, e'⟩ | ⟨j, _, _, e'⟩ <;> cases e'.symm.trans hr
  · exact .inl rfl
  · exact .inr rfl

end

/-- Settles O30: the three answers of `resolve`, on the result ports. -/
theorem resolveFindsPosition : Obligations.ResolveFindsPosition := by
  unfold Obligations.ResolveFindsPosition
  exact fun s h =>
    ⟨fun j hl index => ⟨_, exec_resolve_ok (resolve_of_atIndex hl index), rfl, unchangedBut_reply s _⟩,
      fun hl foreign => ⟨_, exec_resolve_error (resolve_of_foreign hl foreign), rfl, unchangedBut_reply s _⟩,
      fun hl => ⟨_, exec_resolve_error (resolve_uninitialized hl), rfl, unchangedBut_reply s _⟩⟩

/-! ## SEND -/

/-- Ringing the doorbell of index `j` sets that bit of the register and no other (R92). -/
theorem getLsbD_writeDbr_doorbellWord (s : State) (j : Nat) {b : Nat} (hb : b < 32) :
    (s.writeDbr (doorbellWord j)).dbr.getLsbD b = (s.dbr.getLsbD b || decide (b = j)) := by
  rw [State.writeDbr_dbr, getLsbD_or_doorbellWord]
  simp only [hb, decide_true, Bool.true_and]

/-- Beyond the doorbell register, a SEND touches its slot and the result ports only. -/
theorem unchangedBut_rung (s : State) (v : BitVec Config.dbrBits) (h : Handle) (sl : Slot) (r : Reply) :
    UnchangedBut (some h) s { ((s.writeDbr v).setSlot h sl).reply r with dbr := s.dbr } :=
  unchangedBut_setSlot_reply s h sl r

/-- Settles O31: SEND writes the doorbell word of the index, which has that bit alone. -/
theorem sendRingsTheIndexBit : Obligations.SendRingsTheIndexBit := by
  unfold Obligations.SendRingsTheIndexBit
  intro s h j w0 w1 w2 w3 hp ho hb hl index accepted
  have read : (s.slot h).cb.read = some ⟨w0, w1, w2, w3⟩ := by rw [hb]; rfl
  refine ⟨_, execSend_rings hp ho (resolve_of_atIndex hl index) accepted read, rfl, fun b hb => ?bit, ?slot, ?frame⟩
  case bit => exact getLsbD_writeDbr_doorbellWord s j hb
  case slot => rw [slot_reply, slot_setSlot_self, sentSlot]
  case frame => exact unchangedBut_rung s _ h _ _

/-- Settles O32: the three errors of SEND end the transfer; only a rejection may have written the doorbell. -/
theorem sendErrorEndsTransfer : Obligations.SendErrorEndsTransfer := by
  unfold Obligations.SendErrorEndsTransfer
  refine fun s h hp ho => ⟨fun hl => ?notReady, fun hl foreign => ?inval, fun j hl index rejected => ?rejected⟩
  case notReady =>
    exact ⟨_, execSend_unresolved hp ho (resolve_uninitialized hl), rfl, slot_endTransfer_self s h _,
      unchangedBut_setSlot_reply s h _ _⟩
  case inval =>
    exact ⟨_, execSend_unresolved hp ho (resolve_of_foreign hl foreign), rfl, slot_endTransfer_self s h _,
      unchangedBut_setSlot_reply s h _ _⟩
  case rejected =>
    refine ⟨_, execSend_rejected hp ho (resolve_of_atIndex hl index) rejected, rfl, slot_endTransfer_self _ h _, ?_⟩
    cases ring : s.inputs.ringOnReject with
    | false => exact ⟨fun b _ => by simp, unchangedBut_setSlot_reply s h Slot.free (.err .dbRejected)⟩
    | true =>
      refine ⟨fun b hb => ?_, unchangedBut_rung s (doorbellWord j) h Slot.free (.err .dbRejected)⟩
      rw [Bool.true_and]
      exact getLsbD_writeDbr_doorbellWord s j hb

section
variable {s s' t : State} {h : Handle}

/-- The inversion lemma of SEND, with the reason of each answer. -/
theorem execSend_next (e : execSend h s = .next t) :
    ((s.slot h).phase = .loaded ∧ (s.slot h).owner = some s.inputs.caller) ∧
      ((∃ er, resolve s h = .error er ∧ t = s.endTransfer h er) ∨
       (∃ j W, resolve s h = .ok j ∧ s.inputs.reject = false ∧ (s.slot h).cb.read = some W ∧
        t = ((s.writeDbr (doorbellWord j)).setSlot h (sentSlot (s.slot h) W)).reply .done) ∨
       ∃ j, resolve s h = .ok j ∧ s.inputs.reject = true ∧
        t = (if s.inputs.ringOnReject = true then s.writeDbr (doorbellWord j) else s).endTransfer h .dbRejected) := by
  by_cases ready : (s.slot h).phase = .loaded ∧ (s.slot h).owner = some s.inputs.caller
  · obtain ⟨hp, ho⟩ := ready
    refine ⟨⟨hp, ho⟩, ?_⟩
    cases hr : resolve s h with
    | error er =>
      rw [execSend_unresolved hp ho hr] at e
      cases e
      exact .inl ⟨er, rfl, rfl⟩
    | ok j =>
      cases reject : s.inputs.reject with
      | true =>
        rw [execSend_rejected hp ho hr reject] at e
        cases e
        exact .inr (.inr ⟨j, rfl, rfl, rfl⟩)
      | false =>
        cases hb : (s.slot h).cb.read with
        | none =>
          have fault := execSend_eq_fault.2 (.inr ⟨rfl, ⟨hp, ho⟩, ⟨j, hr⟩, reject, hb⟩)
          cases fault.symm.trans e
        | some W =>
          rw [execSend_rings hp ho hr reject hb] at e
          cases e
          exact .inr (.inl ⟨j, W, rfl, rfl, rfl, rfl⟩)
  · have fault := execSend_eq_fault.2 (.inl ⟨rfl, ready⟩)
    cases fault.symm.trans e

theorem resolve_congr (same : SameTransport s s') (h : Handle) : resolve s' h = resolve s h := by
  unfold resolve State.indexOf? State.channels
  rw [same.life, same.nchanR, same.chans]

@[simp] theorem writeDbr_zero (s : State) : s.writeDbr 0 = s := by
  simp [State.writeDbr]

/-- A SEND makes one write to the doorbell register and one to its slot, and makes the same two wherever its slot, the
transport and the inputs are the same. -/
theorem execSend_writes (e : execSend h s = .next t) :
    ∃ v sl r, t = ((s.writeDbr v).setSlot h sl).reply r ∧
      ∀ s', s'.slot h = s.slot h → SameTransport s s' → s'.inputs = s.inputs →
        execSend h s' = .next (((s'.writeDbr v).setSlot h sl).reply r) := by
  obtain ⟨⟨hp, ho⟩, ⟨er, hr, rfl⟩ | ⟨j, W, hr, accepted, hb, rfl⟩ | ⟨j, hr, rejected, rfl⟩⟩ := execSend_next e
  · refine ⟨0, Slot.free, .err er, by rw [writeDbr_zero]; rfl, fun s' slot same inputs => ?_⟩
    rw [writeDbr_zero]
    exact execSend_unresolved (slot ▸ hp) (by rw [slot, inputs, ho]) (by rw [resolve_congr same, hr])
  · refine ⟨_, _, _, rfl, fun s' slot same inputs => ?_⟩
    rw [← slot]
    exact execSend_rings (slot ▸ hp) (by rw [slot, inputs, ho]) (by rw [resolve_congr same, hr]) (by rw [inputs, accepted])
      (slot ▸ hb)
  · refine ⟨if s.inputs.ringOnReject = true then doorbellWord j else 0, Slot.free, .err .dbRejected, ?_,
      fun s' slot same inputs => ?_⟩
    · split
      · rfl
      · rw [writeDbr_zero]; rfl
    · rw [execSend_rejected (slot ▸ hp) (by rw [slot, inputs, ho]) (by rw [resolve_congr same, hr])
        (by rw [inputs, rejected]), inputs]
      split
      · rfl
      · rw [writeDbr_zero]; rfl

end

/-- Settles O33: each SEND finds its slot, the transport and its inputs as they were before the other, so it makes the same
writes in either order. -/
theorem sendsOnDistinctSlotsCommute : Obligations.SendsOnDistinctSlotsCommute := by
  unfold Obligations.SendsOnDistinctSlotsCommute
  intro s a b h h' io io' ne first second
  obtain ⟨v, sl, r, rfl, again⟩ := execSend_writes first
  obtain ⟨v', sl', r', rfl, again'⟩ := execSend_writes second
  refine ⟨_, _, again' _ ?slot' ⟨rfl, rfl, rfl, rfl, rfl⟩ rfl, again _ ?slot ⟨rfl, rfl, rfl, rfl, rfl⟩ rfl, ?dbr,
    fun x => ?slots⟩
  case slot' => exact (slot_setSlot_ne _ _ ne.symm).symm
  case slot => exact slot_setSlot_ne _ _ ne
  case dbr =>
    change s.dbr ||| v' ||| v = s.dbr ||| v ||| v'
    ac_rfl
  case slots =>
    simp only [slot_reply, slot_setSlot, slot_withInputs, slot_writeDbr]
    split
    · next e => rw [if_neg (e ▸ ne)]
    · rfl

/-! ## WAIT -/

section
variable {s : State} {h : Handle} (ho : (s.slot h).owner = some s.inputs.caller)
include ho

theorem exec_wait_done (hp : (s.slot h).phase = .done) : exec (.wait h) s = .next (s.reply .done) := by
  simp only [exec, execWait, ho, hp, if_pos]

theorem exec_wait_sent (hp : (s.slot h).phase = .sent) : exec (.wait h) s = .next (s.reply .hold) := by
  simp only [exec, execWait, ho, hp, if_pos]

theorem exec_wait_failed (hp : (s.slot h).phase = .failed) : exec (.wait h) s = .next (s.endTransfer h .xfer) := by
  simp only [exec, execWait, ho, hp, if_pos]

end

/-- Settles O34: the three rows of WAIT for the slot's owner. -/
theorem waitFollowsThePhase : Obligations.WaitFollowsThePhase := by
  unfold Obligations.WaitFollowsThePhase
  exact fun s h ho =>
    ⟨fun hp => ⟨_, exec_wait_done ho hp, rfl, unchangedBut_reply s _⟩,
      fun hp => ⟨_, exec_wait_sent ho hp, rfl, unchangedBut_reply s _⟩,
      fun hp => ⟨_, exec_wait_failed ho hp, rfl, slot_endTransfer_self s h _, unchangedBut_setSlot_reply s h _ _⟩⟩

end Sys2Proof.Machine
end

section
/-! What an operation can answer and change: transport errors and return codes (60_exceptions.md R108 to R111), the doorbell
register (10_state.md R23), and the slot in a transfer (10_state.md R19, 43_transfer.md R95). -/

namespace Sys2Proof.Machine

variable {i : Instr} {s t : State}

/-! ## Transport errors -/

/-- Where a transport error comes from: a failed `resolve`, a rejected doorbell write, or an exchange that failed. -/
theorem err_of_exec {er : TransportError} (e : exec i s = .next t) (port : t.port = some (.err er)) :
    (∃ h, (i = .resolve h ∨ i = .send h) ∧ resolve s h = .error er ∧ t.dbr = s.dbr) ∨
      (∃ h j, i = .send h ∧ er = .dbRejected ∧ resolve s h = .ok j ∧ s.inputs.reject = true) ∨
      ∃ h, i = .wait h ∧ er = .xfer ∧ (s.slot h).phase = .failed := by
  cases effect_of_exec e with
  | encode | encodeHold | init | resolveOk | waitHold | waitDone | sendOk => cases port
  | decode _ _ _ _ _ _ hd =>
    cases port
    cases i <;> cases hd
  | resolveErr hi hr => cases port; exact .inl ⟨_, .inl hi, hr, rfl⟩
  | sendErr hi | sendRejectedRung hi =>
    subst hi
    obtain ⟨_, ⟨er', hr, ht⟩ | ⟨j, W, _, _, _, ht⟩ | ⟨j, hr, rejected, ht⟩⟩ := execSend_next e
    · rw [ht] at port ⊢
      cases port
      exact .inl ⟨_, .inr rfl, hr, rfl⟩
    · rw [ht] at port
      cases port
    · rw [ht] at port
      cases port
      exact .inr (.inl ⟨_, j, rfl, rfl, hr, rejected⟩)
  | waitFailed hi hp => cases port; exact .inr (.inr ⟨_, hi, rfl, hp⟩)

/-- Settles O39: each error is that of one of the three sources, and `resolve` fails only as not ready or as invalid. -/
theorem transportErrorsHaveTheirCauses : Obligations.TransportErrorsHaveTheirCauses := by
  unfold Obligations.TransportErrorsHaveTheirCauses
  refine ⟨⟨rfl, rfl, rfl, rfl⟩, fun i s t e => ⟨fun port => ?notReady, fun port => ?inval, fun port => ?dbRejected,
    fun port => ?xfer⟩⟩
  all_goals
    obtain ⟨h, hi, hr, dbr⟩ | ⟨h, j, hi, her, hr, rejected⟩ | ⟨h, hi, her, hp⟩ := err_of_exec e port
  case notReady.inl =>
    refine ⟨life_of_resolve_notReady hr, ?_, dbr⟩
    rcases hi with rfl | rfl
    · exact .inl rfl
    · exact .inr rfl
  case inval.inl =>
    obtain ⟨hl, foreign⟩ := foreign_of_resolve_inval hr
    rcases hi with rfl | rfl
    · exact ⟨hl, .inl rfl, fun h' hh => by cases hh; exact foreign, dbr⟩
    · exact ⟨hl, .inr rfl, fun h' hh => by cases hh; exact foreign, dbr⟩
  case dbRejected.inr.inl =>
    subst hi
    obtain ⟨hl, known⟩ := not_foreign_of_resolve_ok hr
    exact ⟨hl, rfl, rejected, fun h' hh => by cases hh; exact known⟩
  case xfer.inr.inr =>
    subst hi
    exact ⟨rfl, fun h' hh => by cases hh; exact hp⟩
  case dbRejected.inl | xfer.inl => rcases resolve_error_cases hr with her | her <;> cases her
  all_goals cases her

/-- A reply that carries a return code. -/
def IsReturnCode (r : Reply) : Prop :=
  ∃ a, r = .rc a ∨ (∃ b, r = .rcValue a b) ∨ ∃ bs v, r = .rcBytes a bs v

/-- Every decoder's reply carries a return code. -/
theorem isReturnCode_of_decodedReply {W : Words} {r : Reply} (h : decodedReply W i = some r) : IsReturnCode r := by
  cases i with
  | decRead => cases h; exact ⟨_, .inr (.inl ⟨_, rfl⟩)⟩
  | decWrite | decUpdate | decBwrite => cases h; exact ⟨_, .inl rfl⟩
  | decBread => cases h; exact ⟨_, .inr (.inr ⟨_, _, rfl⟩)⟩
  | _ => cases h

/-- A return code is the reply of a DEC.* and of no other operation. -/
theorem isReturnCode_iff_of_exec {r : Reply} (e : exec i s = .next t) (port : t.port = some r) :
    IsReturnCode r ↔ ∃ k, i.opcode = .dec k := by
  cases effect_of_exec e with
  | decode op _ _ _ _ _ hd =>
    cases port
    exact ⟨fun _ => ⟨_, op⟩, fun _ => isReturnCode_of_decodedReply hd⟩
  | encode op | encodeHold op => cases port; simp [IsReturnCode, op]
  | init hi => cases port; subst hi; simp [IsReturnCode, Instr.opcode]
  | resolveOk hi | resolveErr hi => cases port; subst hi; simp [IsReturnCode, Instr.opcode]
  | sendOk hi | sendErr hi | sendRejectedRung hi => cases port; subst hi; simp [IsReturnCode, Instr.opcode]
  | waitHold hi | waitDone hi | waitFailed hi => cases port; subst hi; simp [IsReturnCode, Instr.opcode]

/-- Settles O38: the three sources of a transport error are RESOLVE, SEND and WAIT, and a return code is a DEC.*'s reply. -/
theorem twoErrorLayersStayApart : Obligations.TwoErrorLayersStayApart := by
  unfold Obligations.TwoErrorLayersStayApart
  refine fun i s t r e port => ⟨fun ⟨er, her⟩ => ?_, isReturnCode_iff_of_exec e port⟩
  obtain ⟨h, hi | hi, _⟩ | ⟨h, j, hi, _⟩ | ⟨h, hi, _⟩ := err_of_exec e (her ▸ port)
  · exact .inl ⟨h, hi⟩
  · exact .inr (.inl ⟨h, hi⟩)
  · exact .inr (.inl ⟨h, hi⟩)
  · exact .inr (.inr ⟨h, hi⟩)

/-- A transport error of SEND or WAIT frees the slot (R111). -/
theorem slot_free_of_err {h : Handle} {er : TransportError} (hi : i = .send h ∨ i = .wait h) (e : exec i s = .next t)
    (port : t.port = some (.err er)) : t.slot h = Slot.free := by
  have named : i.handle? = some h := by rcases hi with rfl | rfl <;> rfl
  cases effect_of_exec e with
  | sendErr hs | sendRejectedRung hs | waitFailed hs =>
    subst hs
    cases named
    exact slot_endTransfer_self _ h _
  | resolveErr hr => subst hr; simp at hi
  | decode op => rcases hi with rfl | rfl <;> cases op
  | _ => cases port

/-- Settles O40: the freed slot is not DONE. -/
theorem noReturnCodeAfterTransportError : Obligations.NoReturnCodeAfterTransportError := by
  unfold Obligations.NoReturnCodeAfterTransportError
  intro i d k h er s t hi e port op hh wf
  have free := slot_free_of_err hi e port
  obtain ⟨g, _, he⟩ := exec_dec op hh wf t
  refine ⟨free, ?_⟩
  rw [he]
  exact decodeStep_eq_fault.2 (.inl ⟨rfl, by simp [free, Slot.free]⟩)

/-! ## The doorbell register -/

/-- An operation leaves the doorbell register alone, or is a SEND that sets the bit of one of the channels. -/
theorem dbr_of_effect (e : Effect i s t) :
    t.dbr = s.dbr ∨ ∃ h j, i = .send h ∧ j < s.nchanR.getD 0 ∧ t.dbr = s.dbr ||| doorbellWord j := by
  have below : ∀ {h j}, resolve s h = .ok j → j < s.nchanR.getD 0 := fun {h j} hr => by
    rcases resolve_cases s h with ⟨_, e'⟩ | ⟨_, _, e'⟩ | ⟨j', _, hx, e'⟩ <;> cases e'.symm.trans hr
    exact (indexOf?_some hx).1
  cases e with
  | sendOk hi _ _ hr | sendRejectedRung hi _ _ hr => exact .inr ⟨_, _, hi, below hr, rfl⟩
  | _ => exact .inl rfl

/-- Settles O48: the one write an operation makes to the register is SEND's, of the doorbell word of a channel. -/
theorem blockOnlySetsChannelBits : Obligations.BlockOnlySetsChannelBits := by
  unfold Obligations.BlockOnlySetsChannelBits
  intro i s t e
  rcases dbr_of_effect (effect_of_exec e) with dbr | ⟨h, j, hi, hj, dbr⟩
  · exact ⟨fun b hb => dbr ▸ hb, fun _ => dbr, fun b _ => by rw [dbr]⟩
  · refine ⟨fun b hb => ?_, fun other => absurd hi (other h), fun b hb => ?_⟩
    · rw [dbr, getLsbD_or_doorbellWord, hb, Bool.true_or]
    · have ne : b ≠ j := by omega
      rw [dbr, getLsbD_or_doorbellWord]
      simp [ne]

/-! ## The slot in a transfer -/

/-- The change an operation makes to slot `h`, if it makes one: a row of the table of R95, by the slot's owner, who for an
ENC.* is its new owner. -/
structure TableMove (i : Instr) (s t : State) (h : Handle) : Prop where
  handle : i.handle? = some h
  row : ∃ r, t.port = some r ∧ mayMove i.opcode r (s.slot h).phase (t.slot h).phase = true
  byOwner : (∃ k, i.opcode = .enc k ∧ (s.slot h).phase = .free ∧ (t.slot h).owner = some s.inputs.caller) ∨
    ((∀ k, i.opcode ≠ .enc k) ∧ (s.slot h).owner = some s.inputs.caller)

theorem slot_eq_or_tableMove (e : Effect i s t) (h : Handle) : t.slot h = s.slot h ∨ TableMove i s t h := by
  by_cases hh : i.handle? = some h
  · cases e with
    | encode op hh' _ _ hf =>
      cases hh.symm.trans hh'
      exact .inr ⟨hh, ⟨_, rfl, by simp [op, hf, loadedSlot, mayMove]⟩, .inl ⟨_, op, hf, by simp [loadedSlot]⟩⟩
    | @decode k h' W r op hh' _ hp ho _ hd =>
      cases hh.symm.trans hh'
      obtain ⟨a, rfl | ⟨b, rfl⟩ | ⟨bs, v, rfl⟩⟩ := isReturnCode_of_decodedReply hd
      all_goals exact .inr ⟨hh, ⟨_, rfl, by simp [op, hp, Slot.free, mayMove]⟩, .inr ⟨by simp [op], ho⟩⟩
    | sendOk hi hp ho =>
      subst hi
      cases hh
      exact .inr ⟨rfl, ⟨_, rfl, by simp [hp, sentSlot, Instr.opcode, mayMove]⟩, .inr ⟨by simp [Instr.opcode], ho⟩⟩
    | sendErr hi hp ho | sendRejectedRung hi hp ho | waitFailed hi hp ho =>
      subst hi
      cases hh
      exact .inr ⟨rfl, ⟨_, rfl, by simp [hp, Slot.free, Instr.opcode, mayMove]⟩, .inr ⟨by simp [Instr.opcode], ho⟩⟩
    | encodeHold | init | resolveOk | resolveErr | waitHold | waitDone => exact .inl rfl
  · exact .inl (slot_of_effect e hh)

/-- Settles O49: a change of the slot is by its owner, or by an ENC.* of a FREE slot. -/
theorem heldSlotIsExclusive : Obligations.HeldSlotIsExclusive := by
  unfold Obligations.HeldSlotIsExclusive
  intro i h s t e held other
  rcases slot_eq_or_tableMove (effect_of_exec e) h with same | ⟨_, _, ⟨_, _, free, _⟩ | ⟨_, own⟩⟩
  · exact same
  · exact absurd free held
  · exact absurd own other

end Sys2Proof.Machine
end

section
/-! The steps of the machine: a caller's operation and the filing of its reply, the exchange's answers, the remote's DBCLEAR,
and what a step can do to a slot's phase (00_scope.md R12, 43_transfer.md R95 to R103). -/

namespace Sys2Proof.Machine

/-! ## A caller's operation -/

theorem retireOutcome_of_exec {i : Instr} {s u : State} (e : exec i s = .next u) :
    retireOutcome (exec i s) = .next u.retire := by
  rw [e]
  rfl

/-- An operation presented on the ports is the next one of its caller, whose step comes next. -/
theorem step_present {s : State} {r : Request} {i : Instr} (hd : decode r = .ok i) :
    ∃ cs, step (s.present r) = retireOutcome (exec i { s with callers := cs }) := by
  have hs : (s.present r).schedule = .caller s.inputs :: s.schedule := rfl
  have hn : nextRequest? ((s.present r).callerOf s.inputs.caller).program = some r := by
    simp [State.present, State.callerOf, nextRequest?]
  exact ⟨_, step_caller hs hn hd⟩

/-- Settles O41: the next request decodes and is executed, whether the program held it or it was presented. -/
theorem stepRunsDecodedInstruction : Obligations.StepRunsDecodedInstruction := by
  unfold Obligations.StepRunsDecodedInstruction
  refine ⟨fun s io rest r i hs hn hd => step_caller hs hn hd, fun s nbits w i hd => step_present ?_⟩
  unfold decodeTableWord at hd
  split at hd
  · next h => cases hd; exact h
  · cases hd

/-- An operation leaves the callers' records and the schedule alone. -/
theorem callers_schedule_of_effect {i : Instr} {s t : State} (e : Effect i s t) :
    t.callers = s.callers ∧ t.schedule = s.schedule ∧ t.inputs = s.inputs := by
  cases e <;> exact ⟨rfl, rfl, rfl⟩

/-- A caller's record after the reply `r` to the first operation `q` of the line `q :: qs` (R65, R66, R96). -/
theorem Caller.after_of_program {c : Caller} {q : Request} {qs : List Request} {lines : List (List Request)} (r : Reply)
    (hc : c.program = (q :: qs) :: lines) :
    c.after r = (match r with
      | .hold => c
      | .err e => ⟨lines, .err e :: c.returned⟩
      | r => ⟨if qs = [] then lines else qs :: lines, r :: c.returned⟩) := by
  have ok : afterOk c.program = if qs = [] then lines else qs :: lines := by
    rw [hc]
    cases qs <;> rfl
  have err : afterErr c.program = lines := by rw [hc]; rfl
  cases r <;> simp only [Caller.after, ok, err]

/-- Filing puts the reply on the result ports into the record of the caller on the inputs. -/
theorem retire_of_port {s : State} {r : Reply} (port : s.port = some r) :
    s.retire = s.setCaller s.inputs.caller ((s.callerOf s.inputs.caller).after r) := by
  rw [State.retire, port]

/-- After an operation its caller's record has the reply filed, and every other is as it was. -/
theorem callerOf_retire_of_exec {i : Instr} {s u : State} {io : Inputs} {rest : List AgentStep} {r : Reply}
    (e : exec i (s.issue io rest) = .next u) (port : u.port = some r) :
    u.retire.callerOf io.caller = (s.callerOf io.caller).after r ∧
      ∀ k, k ≠ io.caller → u.retire.callerOf k = s.callerOf k := by
  obtain ⟨callers, _, inputs⟩ := callers_schedule_of_effect (effect_of_exec e)
  have records : ∀ k, u.callerOf k = s.callerOf k := fun k => by rw [State.callerOf, State.callerOf, callers]; rfl
  have caller : u.inputs.caller = io.caller := by rw [inputs]; rfl
  rw [retire_of_port port, caller, ← records]
  exact ⟨callerOf_setCaller_self _ _ _, fun k ne => (callerOf_setCaller_ne _ _ ne).trans (records k)⟩

/-- Settles O42. -/
theorem replyIsFiledWithItsCaller : Obligations.ReplyIsFiledWithItsCaller := by
  unfold Obligations.ReplyIsFiledWithItsCaller
  intro s u io rest q qs lines i r hs hp hd e port
  have issued : exec i (s.issue io rest) = .next u := e
  obtain ⟨own, others⟩ := callerOf_retire_of_exec issued port
  refine ⟨u.retire, ?_, own.trans (Caller.after_of_program r hp), others, ?_⟩
  · rw [step_caller hs (by rw [hp]; rfl) hd, retireOutcome_of_exec issued]
  · obtain ⟨cs, h⟩ := retire_eq u
    rw [h]

/-! ## The environment's steps -/

/-- Settles O43: where the slot is SENT its buffer and phase are replaced, and elsewhere nothing is. -/
theorem exchangeStepsAnswerASentSlot : Obligations.ExchangeStepsAnswerASentSlot := by
  unfold Obligations.ExchangeStepsAnswerASentSlot
  refine fun s h rest => ⟨fun r hs => ?respond, fun hs => ?fail⟩
  case respond =>
    refine ⟨_, step_of_schedule hs, ?_⟩
    rcases respond_cases h r { s with schedule := rest } with ⟨hp, e⟩ | ⟨hp, e⟩ <;> rw [e]
    · exact ⟨fun _ => slot_setSlot_self _ h _, fun no => absurd hp no, unchangedBut_setSlot _ h _, rfl⟩
    · exact ⟨fun yes => absurd yes hp, fun _ => rfl, unchangedBut_refl _ _, rfl⟩
  case fail =>
    refine ⟨_, step_of_schedule hs, ?_⟩
    rcases fail_cases h { s with schedule := rest } with ⟨hp, e⟩ | ⟨hp, e⟩ <;> rw [e]
    · exact ⟨fun _ => slot_setSlot_self _ h _, fun no => absurd hp no, unchangedBut_setSlot _ h _, rfl⟩
    · exact ⟨fun yes => absurd yes hp, fun _ => rfl, unchangedBut_refl _ _, rfl⟩

/-- Settles O44: DBCLEAR writes `DBR & ~m`. -/
theorem remoteClearsDoorbellBits : Obligations.RemoteClearsDoorbellBits := by
  unfold Obligations.RemoteClearsDoorbellBits
  intro s m rest hs
  refine ⟨_, step_of_schedule hs, fun b hb => ?_, unchangedBut_refl none _, rfl⟩
  simp [hb]

/-- Settles O47: a step leaves the transport the same, or is an INIT before Ready, which reads CHAN_MASK only. -/
theorem channelSetNeverChanges : Obligations.ChannelSetNeverChanges := by
  unfold Obligations.ChannelSetNeverChanges
  intro s t e
  rcases sameTransport_or_initStep_of_step e with same | ⟨io, rest, r, _, _, _, hl, rfl⟩
  · exact ⟨same.chanMask, fun hl => ⟨same.life.trans hl, same.nchanR, same.chans, same.imrAllMasked⟩⟩
  · exact ⟨by simp [State.issue], fun ready => nomatch hl.symm.trans ready⟩

end Sys2Proof.Machine
end

section
/-! How a slot's phase moves in one step, and how a fair run ends every exchange (43_transfer.md R95, R103). -/

namespace Sys2Proof.Machine

/-! ## One step -/

section
variable {s : State} {h : Handle}

theorem slot_respond_sent (hp : (s.slot h).phase = .sent) (r : Words) :
    (respond h r s).slot h = doneSlot (s.slot h) r := by
  rw [respond, if_pos hp, slot_setSlot_self]

theorem slot_fail_sent (hp : (s.slot h).phase = .sent) : (fail h s).slot h = failedSlot (s.slot h) := by
  rw [fail, if_pos hp, slot_setSlot_self]

end

/-- After RESPOND a slot is as it was, or was SENT, is the one answered, and is DONE. -/
theorem slot_respond_cases (h x : Handle) (r : Words) (s : State) :
    (respond h r s).slot x = s.slot x ∨
      (x = h ∧ (s.slot x).phase = .sent ∧ (respond h r s).slot x = doneSlot (s.slot x) r) := by
  rcases respond_cases h r s with ⟨hp, e⟩ | ⟨_, e⟩ <;> rw [e]
  · by_cases same : x = h
    · subst same
      exact .inr ⟨rfl, hp, slot_setSlot_self s x _⟩
    · exact .inl (slot_setSlot_ne s _ same)
  · exact .inl rfl

theorem slot_fail_cases (h x : Handle) (s : State) :
    (fail h s).slot x = s.slot x ∨
      (x = h ∧ (s.slot x).phase = .sent ∧ (fail h s).slot x = failedSlot (s.slot x)) := by
  rcases fail_cases h s with ⟨hp, e⟩ | ⟨_, e⟩ <;> rw [e]
  · by_cases same : x = h
    · subst same
      exact .inr ⟨rfl, hp, slot_setSlot_self s x _⟩
    · exact .inl (slot_setSlot_ne s _ same)
  · exact .inl rfl

theorem slot_peerRespond_cases (h x : Handle) (s : State) :
    (peerRespond h s).slot x = s.slot x ∨
      (x = h ∧ (s.slot x).phase = .sent ∧ ∃ r, (peerRespond h s).slot x = doneSlot (s.slot x) r) := by
  rcases peerRespond_cases h s with ⟨W, k, _, _, _, e⟩ | e <;> rw [e]
  · rw [slot_withPeer]
    rcases slot_respond_cases h x (peerResponse s.peer k W) s with same | ⟨hx, hp, answered⟩
    · exact .inl same
    · exact .inr ⟨hx, hp, _, answered⟩
  · exact .inl rfl

/-- Settles O50: an operation moves the phase by a row of its own, and only a RESPOND or a FAIL of the slot moves it
besides. -/
theorem phaseMovesOnlyByTheTable : Obligations.PhaseMovesOnlyByTheTable := by
  unfold Obligations.PhaseMovesOnlyByTheTable
  intro s t h e moved
  cases effect_of_step e with
  | idle | noOperation | dbclear => exact absurd rfl moved
  | @operation io rest q i u hs hn hd he =>
    rw [slot_retire] at moved ⊢
    rcases slot_eq_or_tableMove (effect_of_exec he) h with same | ⟨hh, ⟨r, port, row⟩, byOwner⟩
    · exact absurd (congrArg Slot.phase same) moved
    · refine .inl ⟨io, rest, q, i, r, hs, hn, hd, hh, by rw [retire_port, port], row, ?_⟩
      exact byOwner.imp (fun ⟨k, op, _, owner⟩ => ⟨k, op, owner⟩) id
  | @respond h' r rest hs =>
    rcases slot_respond_cases h' h r { s with schedule := rest } with same | ⟨rfl, hp, answered⟩
    · exact absurd (congrArg Slot.phase same) moved
    · exact .inr (.inl ⟨hp, by rw [answered]; rfl, .inl ⟨r, by rw [hs]; rfl⟩⟩)
  | @peerRespond h' rest hs =>
    rcases slot_peerRespond_cases h' h { s with schedule := rest } with same | ⟨rfl, hp, r, answered⟩
    · exact absurd (congrArg Slot.phase same) moved
    · exact .inr (.inl ⟨hp, by rw [answered]; rfl, .inr (by rw [hs]; rfl)⟩)
  | @fail h' rest hs =>
    rcases slot_fail_cases h' h { s with schedule := rest } with same | ⟨rfl, hp, failed⟩
    · exact absurd (congrArg Slot.phase same) moved
    · exact .inr (.inr ⟨hp, by rw [failed]; rfl, by rw [hs]; rfl⟩)

/-! ## Fair runs -/

/-- No operation moves a SENT slot. -/
theorem mayMove_sent (op : Opcode) (r : Reply) (p : Phase) : mayMove op r .sent p = false := by
  unfold mayMove
  split
  case h_8 => rfl
  all_goals contradiction

/-- A SENT slot stays SENT in a step, or is answered in it. -/
theorem phase_after_sent {s t : State} {h : Handle} (e : step s = .next t) (hp : (s.slot h).phase = .sent) :
    (t.slot h).phase = .sent ∨ (t.slot h).phase = .done ∨ (t.slot h).phase = .failed := by
  by_cases moved : (t.slot h).phase = (s.slot h).phase
  · exact .inl (moved.trans hp)
  · rcases phaseMovesOnlyByTheTable s t h e moved with
      ⟨_, _, _, i, r, _, _, _, _, _, row, _⟩ | ⟨_, done, _⟩ | ⟨_, failed, _⟩
    · rw [hp, mayMove_sent] at row
      cases row
    · exact .inr (.inl done)
    · exact .inr (.inr failed)

/-- The step an answer is scheduled for answers the SENT slot. -/
theorem phase_of_answerScheduled {s t : State} {h : Handle} (e : step s = .next t) (hp : (s.slot h).phase = .sent)
    (answer : AnswerScheduled h s) : (t.slot h).phase = .done ∨ (t.slot h).phase = .failed := by
  rcases answer with ⟨r, head⟩ | head | ⟨head, W, k, sent, kind⟩
  all_goals
    obtain ⟨rest, hs⟩ := List.head?_eq_some_iff.1 head
    rw [step_of_schedule hs] at e
    cases e
  · exact .inl (congrArg Slot.phase (slot_respond_sent (s := { s with schedule := rest }) hp r))
  · exact .inr (congrArg Slot.phase (slot_fail_sent (s := { s with schedule := rest }) hp))
  · exact .inl (congrArg Slot.phase (slot_peerRespond_sent (s := { s with schedule := rest }) hp sent kind))

/-- Settles O54: a slot that were never answered would stay SENT, so its answer would come to stand at the head of the
schedule, and the next step would answer it. -/
theorem fairExchangeEndsEverySend : Obligations.FairExchangeEndsEverySend := by
  unfold Obligations.FairExchangeEndsEverySend
  intro run isRun fair h n hp
  by_contra never
  have notAnswered : ∀ m, n < m → ¬(((run m).slot h).phase = .done ∨ ((run m).slot h).phase = .failed) :=
    fun m hm answered => never ⟨m, hm, answered⟩
  have stays : ∀ m, n ≤ m → ((run m).slot h).phase = .sent := fun m hm => by
    induction m, hm using Nat.le_induction with
    | base => exact hp
    | succ m hm ih => exact (phase_after_sent (isRun m) ih).resolve_right (notAnswered (m + 1) (by omega))
  obtain ⟨m, hm, answer⟩ := fair h n stays
  exact notAnswered (m + 1) (by omega) (phase_of_answerScheduled (isRun m) (stays m hm) answer)

end Sys2Proof.Machine
end

section
/-! The reference peer: the registers it reads and writes, and its answers as echoes of the request
(43_transfer.md R105 to R107). -/

namespace Sys2Proof.Machine

/-! ## Its registers -/

/-- A register after one has been written. -/
theorem lookup_peerWrite (P : List Host.Cell) (c t r : Nat) (v : Byte) (key : Nat) :
    Sparse.lookup 0 (peerWrite P c t r v) key = if key = peerKey c t r then v else Sparse.lookup 0 P key := by
  change Sparse.lookup peerDefault (Sparse.set peerDefault P (peerKey c t r) v) key = _
  split
  · next e => rw [e, Sparse.lookup_set_self]
  · next ne => exact Sparse.lookup_set_ne peerDefault P v ne

/-- Settles O57: an UPDATE is one write, of what the update law makes of the register. -/
theorem updateAppliesMaskAtRemote : Obligations.UpdateAppliesMaskAtRemote := by
  unfold Obligations.UpdateAppliesMaskAtRemote
  intro P W key
  rw [peerRegisters, lookup_peerWrite]
  split
  · next e => rw [e]; rfl
  · rfl

/-- Register addresses are taken mod 256. -/
theorem peerKey_mod (c t r : Nat) : peerKey c t (r % 256) = peerKey c t r := by
  rw [peerKey, Nat.mod_mod, peerKey]

theorem lookup_peerWriteBulk_of_ne (bs : List Byte) : ∀ (P : List Host.Cell) {c t r key : Nat},
    (∀ j, j < bs.length → key ≠ peerKey c t (r + j)) →
    Sparse.lookup 0 (peerWriteBulk P c t r bs) key = Sparse.lookup 0 P key := by
  induction bs with
  | nil => intro P c t r key _; rfl
  | cons b bs ih =>
    intro P c t r key ne
    have here : key ≠ peerKey c t r := ne 0 (by simp)
    rw [peerWriteBulk, ih _ fun j hj => ?later, lookup_peerWrite, if_neg here]
    case later =>
      rw [Nat.add_assoc, Nat.add_comm 1 j]
      exact ne (j + 1) (by simpa using hj)

/-- Of at most 256 contiguous registers written, each holds its own byte. -/
theorem lookup_peerWriteBulk (bs : List Byte) : ∀ (P : List Host.Cell) {c t r j : Nat}, bs.length ≤ 256 →
    (hj : j < bs.length) → Sparse.lookup 0 (peerWriteBulk P c t r bs) (peerKey c t (r + j)) = bs[j] := by
  induction bs with
  | nil => intro P c t r j _ hj; simp at hj
  | cons b bs ih =>
    intro P c t r j len hj
    have len : bs.length + 1 ≤ 256 := len
    rw [peerWriteBulk]
    cases j with
    | zero =>
      have later : ∀ j, j < bs.length → peerKey c t r ≠ peerKey c t (r + 1 + j) := fun j hj => by
        unfold peerKey
        omega
      rw [Nat.add_zero r, lookup_peerWriteBulk_of_ne bs _ later, lookup_peerWrite, if_pos rfl]
      rfl
    | succ j =>
      rw [← Nat.add_assoc, Nat.add_right_comm, ih _ (by omega) (by simpa using hj)]
      rfl

/-! ## Its answers -/

section
variable (P : List Host.Cell) (k : OpKind) (W : Words)

theorem peerResponse_w0 : (peerResponse P k W).w0 = W.w0 := by
  cases k with
  | bulkRead => exact (putBytes_w01 _ _ 0).1
  | _ => rfl

/-- Word 1 of an answer is the request's with return code zero, and for a READ with another value. -/
theorem peerResponse_w1 : (peerResponse P k W).w1 = putRc W.w1 0 ∨
    (k = .read ∧ ∃ v, (peerResponse P k W).w1 = putValue (putRc W.w1 0) v) := by
  cases k with
  | read => exact .inr ⟨rfl, _, rfl⟩
  | bulkRead => exact .inl (putBytes_w01 _ _ 0).2
  | _ => exact .inl rfl

/-- Neither the return code nor a READ's value shares a bit with a field outside bits [31:24] and [15:8]. -/
theorem getField_peerResponse_w1 (lo : Nat) (h : lo + 8 ≤ 24) (h' : lo + 8 ≤ 8 ∨ 16 ≤ lo) :
    getField lo 8 (peerResponse P k W).w1 = getField lo 8 W.w1 := by
  rcases peerResponse_w1 P k W with e | ⟨_, v, e⟩ <;> rw [e]
  · exact getField_putField_ne 24 8 lo 8 W.w1 0 (by omega) (by omega)
  · exact (getField_putField_ne 8 8 lo 8 _ v (by omega) (by omega)).trans
      (getField_putField_ne 24 8 lo 8 W.w1 0 (by omega) (by omega))

theorem getRc_peerResponse : getRc (peerResponse P k W).w1 = 0 := by
  have rc : getRc (putRc W.w1 0) = 0 := getField_putField_self 24 8 W.w1 0 (by decide)
  rcases peerResponse_w1 P k W with e | ⟨_, v, e⟩ <;> rw [e]
  · exact rc
  · exact (getField_putField_ne 8 8 24 8 _ v (by decide) (by decide)).trans rc

/-- The answer to a WRITE, an UPDATE or a BULK_WRITE is the request with return code zero. -/
theorem peerResponse_of_write (h : k = .write ∨ k = .update ∨ k = .bulkWrite) :
    peerResponse P k W = ⟨W.w0, putRc W.w1 0, W.w2, W.w3⟩ := by
  rcases h with rfl | rfl | rfl <;> rfl

/-- Only a BULK_READ's answer changes words 2 and 3. -/
theorem peerResponse_payload (h : k ≠ .bulkRead) : (peerResponse P k W).w2 = W.w2 ∧ (peerResponse P k W).w3 = W.w3 := by
  cases k with
  | bulkRead => exact absurd rfl h
  | _ => exact ⟨rfl, rfl⟩

end

/-- The kind of a request is that of its func code. -/
theorem getFunc_of_requestKind? {W : Words} {k : OpKind} (h : requestKind? W = some k) : getFunc W.w1 = funcByte k := by
  have code : OpKind.ofCode? (getFunc W.w1).toNat = some k := by
    unfold requestKind? at h
    split at h
    · next e =>
      split at h
      · exact e.trans h
      · cases h
    · next e =>
      split at h
      · exact e.trans h
      · cases h
    · exact h
  apply BitVec.eq_of_toNat_eq
  rw [(ofCode?_eq_some_iff _ k).1 code, toNat_funcByte]

/-- Settles O58: the answer changes the return code, a READ's value and a BULK_READ's lanes, and no other bit. -/
theorem referencePeerEchoesCorrectly : Obligations.ReferencePeerEchoesCorrectly := by
  unfold Obligations.ReferencePeerEchoesCorrectly
  intro P W k kind
  refine ⟨⟨peerResponse_w0 P k W, ?mask, ?func, fun notRead => ?payload⟩, getRc_peerResponse P k W, fun notRead => ?value,
    peerResponse_of_write P k W⟩
  case mask => exact getField_peerResponse_w1 P k W 16 (by decide) (by decide)
  case func => exact getField_peerResponse_w1 P k W 0 (by decide) (by decide)
  case payload =>
    refine peerResponse_payload P k W ?_
    rintro rfl
    exact notRead (getFunc_of_requestKind? kind)
  case value =>
    have w1 := (peerResponse_w1 P k W).resolve_right fun read => notRead read.1
    rw [w1]
    exact getField_putField_ne 24 8 8 8 W.w1 0 (by decide) (by decide)

/-- Settles O59: the answer's value and lanes are registers read, and a bulk write puts each byte at its own address. -/
theorem referencePeerReadsAndWrites : Obligations.ReferencePeerReadsAndWrites := by
  unfold Obligations.ReferencePeerReadsAndWrites
  intro P W c t r n hc ht hr hn
  refine ⟨?read, fun key => ?write, rfl, rfl, fun fits j hj => ?bulkRead, fun fits key => ?bulkWrite⟩
  case read =>
    rw [hc, ht, hr]
    exact getField_putField_self 8 8 _ _ (by decide)
  case write => rw [peerRegisters, lookup_peerWrite, hc, ht, hr]
  case bulkRead =>
    have bytes : (peerReadBulk P c t r n).length = n := by simp [peerReadBulk]
    simp only [peerResponse, ← hc, ← ht, ← hr, ← hn]
    rw [getByte_putBytes_zero _ _ (bytes.symm ▸ fits) hj]
    split
    · next inside =>
      rw [peerRead, peerKey_mod]
      simp [peerReadBulk, inside, peerRead]
    · next outside => exact List.getD_eq_default _ _ (by omega)
  case bulkWrite =>
    have bytes : (getBytes W n).length = n := by simp [getBytes]
    simp only [peerRegisters, ← hc, ← ht, ← hr, ← hn]
    split
    · next addressed =>
      obtain ⟨j, hj, rfl⟩ := addressed
      have lane : (c * 4096 + t * 256 + (r + j) % 256 + 256 - (c * 4096 + t * 256 + r)) % 256 = j := by omega
      rw [lane]
      exact (lookup_peerWriteBulk (getBytes W n) P (by omega) (by omega)).trans (by simp [getBytes])
    · next elsewhere => exact lookup_peerWriteBulk_of_ne _ P fun j hj e => elsewhere ⟨j, bytes ▸ hj, e⟩

end Sys2Proof.Machine
end

section
/-! A written line of text reads back: its operands as tokens, the operand reader on them, and the requests they stand for
(30_encoding.md R65, R66). -/

namespace Sys2Proof.Machine

/-! ## Tokens that write operands -/

/-- The tokens `ts` write the operand `o`: the lexer keeps them apart, and the operand reader takes `o` from them and leaves
what follows. -/
structure Writes (ts : List Token) (o : Operand) : Prop where
  separated : Separated ts
  read : ∀ rest, operandAt (ts ++ rest) = .ok (o, rest)

theorem writes_num (n : Nat) : Writes [.num n] (.num n) := by
  refine ⟨?_, fun _ => rfl⟩
  simp [Separated]

theorem writes_handle (h : Handle) : Writes [handleToken h] (.handle h) := by
  have run : ∀ c ∈ 'h' :: decimal h.name, isRunChar c := fun c hc => by
    rcases List.mem_cons.1 hc with rfl | hc
    · decide
    · exact isRunChar_of_mem_decimal hc
  exact ⟨⟨rfl, run, nofun, trivial⟩, fun rest => by simp [handleToken, operandAt, handleNamed?_written]⟩

/-- The entries of a byte list after its first, with its closing mark, are kept apart, and no run stands at their front. -/
theorem separated_entries (bs : List Byte) :
    Separated (bs.flatMap (fun x : Byte => [Token.comma, .num x.toNat]) ++ [Token.closeList]) ∧
      ∀ t, (bs.flatMap (fun x : Byte => [Token.comma, .num x.toNat]) ++ [Token.closeList]).head? = some t →
        isRun t = false := by
  induction bs with
  | nil => exact ⟨trivial, by simp [isRun]⟩
  | cons b bs ih => exact ⟨⟨ih.2, ih.1⟩, by simp [isRun]⟩

theorem separated_byteListTokens (bs : List Byte) : Separated (byteListTokens bs) := by
  cases bs with
  | nil => trivial
  | cons b bs => exact ⟨(separated_entries bs).2, (separated_entries bs).1⟩

theorem writes_byteList (bs : List Byte) : Writes (byteListTokens bs) (.bytes (bs.map BitVec.toNat)) :=
  ⟨separated_byteListTokens bs, operandAt_byteList bs⟩

/-- The tokens write the operands, with a comma between any two. -/
inductive WritesAll : List Token → List Operand → Prop
  | last {ts : List Token} {o : Operand} (w : Writes ts o) : WritesAll ts [o]
  | cons {ts ts' : List Token} {o : Operand} {os : List Operand} (w : Writes ts o) (ws : WritesAll ts' os) :
      WritesAll (ts ++ .comma :: ts') (o :: os)

namespace WritesAll
variable {ts : List Token} {os : List Operand}

theorem separated (ws : WritesAll ts os) : Separated ts := by
  induction ws with
  | last w => exact w.separated
  | cons w _ ih => exact Separated.append (us := .comma :: _) ih (by simp [isRun]) w.separated

/-- The first operand reads. -/
theorem operandAt_ok (ws : WritesAll ts os) (r : List Token) : ∃ p, operandAt (ts ++ r) = .ok p := by
  cases ws with
  | last w => exact ⟨_, w.read r⟩
  | cons w _ => exact ⟨_, by rw [List.append_assoc, w.read]⟩

theorem length_le (ws : WritesAll ts os) : os.length ≤ ts.length := by
  induction ws with
  | @last ts o w =>
    cases ts with
    | nil => cases w.read []
    | cons => simp
  | cons _ _ ih => simp; omega

/-- The operand reader takes the operands and leaves what follows them, if that does not go on with a comma. -/
theorem operandsFrom_eq (ws : WritesAll ts os) {r : List Token} (hr : r = [] ∨ ∃ us, r = .arrow :: us) :
    ∀ {n : Nat}, os.length ≤ n → operandsFrom n (ts ++ r) = .ok (os, r) := by
  induction ws with
  | last w =>
    intro n hn
    obtain ⟨m, rfl⟩ : ∃ m, n = m + 1 := ⟨n - 1, by simp at hn; omega⟩
    rw [operandsFrom, w.read]
    rcases hr with rfl | ⟨us, rfl⟩ <;> rfl
  | cons w _ ih =>
    intro n hn
    obtain ⟨m, rfl⟩ : ∃ m, n = m + 1 := ⟨n - 1, by simp at hn; omega⟩
    rw [List.append_assoc, operandsFrom, w.read]
    simp only [List.cons_append, ih (Nat.le_of_succ_le_succ hn), Except.map]

theorem operands_eq (ws : WritesAll ts os) {r : List Token} (hr : r = [] ∨ ∃ us, r = .arrow :: us) :
    operands (ts ++ r) = .ok (os, r) := by
  have first := ws.operandAt_ok r
  have all := ws.operandsFrom_eq hr (n := (ts ++ r).length) (by have := ws.length_le; simp; omega)
  unfold operands
  split
  · next e =>
    rw [e] at first
    obtain ⟨p, hp⟩ := first
    cases hp
  · next e =>
    rw [e] at first
    obtain ⟨p, hp⟩ := first
    cases hp
  · exact all

end WritesAll

/-! ## The operands of an instruction -/

/-- The operands of an instruction in the order of R65. -/
def writtenOperands : Instr → List Operand
  | .encRead h ty reg chid => [.handle h, .num ty.toNat, .num reg.toNat, .num chid.toNat]
  | .encWrite h ty reg chid value => [.handle h, .num ty.toNat, .num reg.toNat, .num chid.toNat, .num value.toNat]
  | .encUpdate h ty reg chid value mask =>
    [.handle h, .num ty.toNat, .num reg.toNat, .num chid.toNat, .num value.toNat, .num mask.toNat]
  | .encBread h ty reg chid count => [.handle h, .num ty.toNat, .num reg.toNat, .num chid.toNat, .num count]
  | .encBwrite h ty reg chid count bytes =>
    [.handle h, .num ty.toNat, .num reg.toNat, .num chid.toNat, .num count, .bytes (bytes.map BitVec.toNat)]
  | .decBread h count => [.handle h, .num count]
  | .init => []
  | .decRead h | .decWrite h | .decUpdate h | .decBwrite h | .resolve h | .send h | .wait h => [.handle h]

theorem writesAll_operandTokens {i : Instr} (hi : i ≠ .init) : WritesAll (operandTokens i) (writtenOperands i) := by
  have header : ∀ (h : Handle) (ty : BitVec 4) (reg : Byte) (chid : BitVec 4) {ts : List Token} {os : List Operand},
      WritesAll ts os → WritesAll (handleToken h :: .comma :: .num ty.toNat :: .comma :: .num reg.toNat :: .comma ::
        .num chid.toNat :: .comma :: ts) (.handle h :: .num ty.toNat :: .num reg.toNat :: .num chid.toNat :: os) :=
    fun h _ _ _ _ _ ws =>
      .cons (writes_handle h) (.cons (writes_num _) (.cons (writes_num _) (.cons (writes_num _) ws)))
  cases i with
  | encRead h => exact .cons (writes_handle h) (.cons (writes_num _) (.cons (writes_num _) (.last (writes_num _))))
  | encWrite h ty reg chid value => exact header h ty reg chid (.last (writes_num _))
  | encUpdate h ty reg chid value mask => exact header h ty reg chid (.cons (writes_num _) (.last (writes_num _)))
  | encBread h ty reg chid count => exact header h ty reg chid (.last (writes_num _))
  | encBwrite h ty reg chid count bytes =>
    exact header h ty reg chid (.cons (writes_num _) (.last (writes_byteList bytes)))
  | decBread h count => exact .cons (writes_handle h) (.last (writes_num _))
  | init => exact absurd rfl hi
  | decRead h | decWrite h | decUpdate h | decBwrite h | resolve h | send h | wait h => exact .last (writes_handle h)

theorem separated_operandTokens (i : Instr) : Separated (operandTokens i) := by
  by_cases hi : i = .init
  · subst hi
    trivial
  · exact (writesAll_operandTokens hi).separated

theorem operands_operandTokens (i : Instr) {r : List Token} (hr : r = [] ∨ ∃ us, r = .arrow :: us) :
    operands (operandTokens i ++ r) = .ok (writtenOperands i, r) := by
  by_cases hi : i = .init
  · subst hi
    rcases hr with rfl | ⟨us, rfl⟩ <;> rfl
  · exact (writesAll_operandTokens hi).operands_eq hr

/-- The operands of an instruction stand for the request the encoder drives for it. -/
theorem requestOf_written {i : Instr} (fits : i.listFits = true) :
    requestOf i.opcode (writtenOperands i) = .ok (encode i) := by
  cases i with
  | encBwrite h ty reg chid count bytes => exact if_pos (by simpa [Instr.listFits] using fits)
  | _ => rfl

/-- A byte list of the wrong length is refused. -/
theorem requestOf_written_error {i : Instr} (misfit : i.listFits = false) :
    requestOf i.opcode (writtenOperands i) = .error .byteListLength := by
  cases i with
  | encBwrite h ty reg chid count bytes => exact if_neg (by simpa [Instr.listFits] using misfit)
  | _ => cases misfit

/-! ## Lines -/

theorem Pmic.opcode_encodeOp (p : Pmic) : p.encodeOp.opcode = .enc p.kind := by
  cases p <;> rfl

/-- The operands of a pseudo-operation's encode stand for the four requests of its line. -/
theorem pseudoRequests_written {p : Pmic} (fits : p.encodeOp.listFits = true) :
    pseudoRequests p.kind (writtenOperands p.encodeOp) = .ok p.line := by
  have first := requestOf_written fits
  rw [p.opcode_encodeOp] at first
  rw [pseudoRequests, first]
  cases p <;> rfl

theorem pseudoRequests_written_error {p : Pmic} (misfit : p.encodeOp.listFits = false) :
    pseudoRequests p.kind (writtenOperands p.encodeOp) = .error .byteListLength := by
  have first := requestOf_written_error misfit
  rw [p.opcode_encodeOp] at first
  rw [pseudoRequests, first]

section
variable {m : List Char} {ts rest : List Token} {os : List Operand} (ho : operands ts = .ok (os, rest))
include ho

theorem assembleTokens_operation {op : Opcode} (hn : named? mnemonics m = some op) (hc : checkResults op rest = .ok ()) :
    assembleTokens (.word m :: ts) = (requestOf op os).map fun q => [q] := by
  simp only [assembleTokens, ho, hn, hc]
  cases requestOf op os <;> rfl

theorem assembleTokens_pseudo {k : OpKind} (hn : named? mnemonics m = none) (hp : named? pseudoMnemonics m = some k)
    (hc : checkResults (.dec k) rest = .ok ()) : assembleTokens (.word m :: ts) = pseudoRequests k os := by
  simp only [assembleTokens, ho, hn, hp, hc]
  cases pseudoRequests k os <;> rfl

end

/-- A line whose mnemonic is one token is assembled from that token and its operands' and results'. -/
theorem assembleLine_written {m : List Char} (word : wordToken m = .ok (.word m))
    (run : (m.all fun c => decide (isRunChar c)) = true) (i : Instr) {n : Nat} {r : List Token} (hr : ResultsFit n r)
    {c : List Char} (hc : IsComment c) :
    assembleLine (lineText m (operandTokens i ++ r) c) = assembleTokens (.word m :: (operandTokens i ++ r)) := by
  obtain ⟨sep, head⟩ := separated_of_resultsFit hr
  have run : ∀ c ∈ m, isRunChar c := by simpa only [List.all_eq_true, decide_eq_true_eq] using run
  rw [assembleLine, lexFrom_lineText word run (Separated.append sep head (separated_operandTokens i)) hc]

/-- Settles O5: the line lexes to its mnemonic and its tokens, which read back as the operands and results written. -/
theorem writtenLineAssembles : Obligations.WrittenLineAssembles := by
  unfold Obligations.WrittenLineAssembles
  refine ⟨fun i r c hr hc => ?operation, fun p r c hr hc => ?pseudo⟩
  case operation =>
    rw [assembleLine_written (wordToken_mnemonic _) (isRunChar_mnemonic _) i hr hc,
      assembleTokens_operation (operands_operandTokens i (nil_or_arrow_of_resultsFit hr)) (named?_mnemonic _)
        (checkResults_of_resultsFit hr)]
    exact ⟨fun fits => by rw [requestOf_written fits]; rfl, fun misfit => by rw [requestOf_written_error misfit]; rfl⟩
  case pseudo =>
    rw [assembleLine_written (wordToken_pseudoMnemonic _) (isRunChar_pseudoMnemonic _) p.encodeOp hr hc,
      assembleTokens_pseudo (operands_operandTokens _ (nil_or_arrow_of_resultsFit hr)) (named?_pseudoMnemonic _).2
        (named?_pseudoMnemonic _).1 (checkResults_of_resultsFit hr)]
    exact ⟨pseudoRequests_written, pseudoRequests_written_error⟩

end Sys2Proof.Machine
end

section
/-! A caller's transfer on one handle, step by step: the caller's record and the slot after each operation of a
pseudo-operation's line, and what other agents' steps leave of them (30_encoding.md R66, 43_transfer.md R95 to R101). -/

namespace Sys2Proof.Machine

/-! ## The state of a transfer -/

/-- In `s` the transport is as in `s₀`, the record of caller `c` is `r` and the slot of `h` is `sl`. -/
structure Transfer (s₀ : State) (c : CallerId) (h : Handle) (r : Caller) (sl : Slot) (s : State) : Prop where
  transport : SameTransport s₀ s
  record : s.callerOf c = r
  slot : s.slot h = sl

/-- The step from `s` consumes the head of the schedule and takes the transfer on, leaving `dbr` in the doorbell register. -/
def StepsTo (s₀ : State) (c : CallerId) (h : Handle) (s : State) (rest : List AgentStep) (dbr : BitVec Config.dbrBits)
    (r : Caller) (sl : Slot) : Prop :=
  ∃ t, step s = .next t ∧ t.schedule = rest ∧ t.dbr = dbr ∧ Transfer s₀ c h r sl t

section
variable {s₀ s t : State} {c : CallerId} {h : Handle} {r : Caller} {sl : Slot} {io : Inputs} {rest : List AgentStep}
  {i : Instr} {qs : List Request} {lines : List (List Request)} {ret : List Reply}

/-! ## The caller's own operations -/

/-- Driving the inputs leaves a transfer as it is. -/
theorem Transfer.issue (T : Transfer s₀ c h r sl s) (io : Inputs) (rest : List AgentStep) :
    Transfer s₀ c h r sl (s.issue io rest) :=
  ⟨T.transport.trans ⟨rfl, rfl, rfl, rfl, rfl⟩, T.record, T.slot⟩

/-- When the caller issues an operation, the slot it owns is owned by the caller on the inputs. -/
theorem Transfer.owner_issue (T : Transfer s₀ c h r sl s) (hc : io.caller = c) (owner : sl.owner = some c) :
    ((s.issue io rest).slot h).owner = some (s.issue io rest).inputs.caller := by
  rw [slot_issue, T.slot, owner, ← hc]
  rfl

theorem Transfer.phase_issue {p : Phase} (T : Transfer s₀ c h r sl s) (hp : sl.phase = p) :
    ((s.issue io rest).slot h).phase = p := by
  rw [slot_issue, T.slot, hp]

/-- An operation of the caller's other than INIT takes its transfer on, with the reply filed. -/
theorem Transfer.operation {u : State} {y : Reply} {sl' : Slot}
    (T : Transfer s₀ c h ⟨(encode i :: qs) :: lines, ret⟩ sl s) (hs : s.schedule = .caller io :: rest)
    (hc : io.caller = c) (wf : i.wellFormed = true) (hi : i ≠ .init) (e : exec i (s.issue io rest) = .next u)
    (port : u.port = some y) (slot : u.slot h = sl') :
    StepsTo s₀ c h s rest u.dbr (Caller.after ⟨(encode i :: qs) :: lines, ret⟩ y) sl' := by
  subst hc
  have next : nextRequest? (s.callerOf io.caller).program = some (encode i) := by rw [T.record]; rfl
  have stepped : step s = .next u.retire := by
    rw [step_caller hs next (decodeOfEncodeIsIdentity i wf), retireOutcome_of_exec e]
  have effect := effect_of_exec e
  have transport : SameTransport s₀ u :=
    (T.issue io rest).transport.trans ((sameTransport_or_init_of_effect effect).resolve_right fun init => hi init.1)
  refine ⟨u.retire, stepped, ?_, retire_dbr u, transport.trans (sameTransport_retire u), ?_, ?_⟩
  · rw [retire_schedule, (callers_schedule_of_effect effect).2.1]
    rfl
  · rw [(callerOf_retire_of_exec e port).1, T.record]
  · rw [slot_retire, slot]

/-- Its ENC.* on a FREE slot (R68). -/
theorem Transfer.enc {k : OpKind} {q : Request} (T : Transfer s₀ c h ⟨(encode i :: q :: qs) :: lines, ret⟩ sl s)
    (hs : s.schedule = .caller io :: rest) (hc : io.caller = c) (wf : i.wellFormed = true) (op : i.opcode = .enc k)
    (hh : i.handle? = some h) (free : sl.phase = .free) :
    ∃ W, StepsTo s₀ c h s rest s.dbr ⟨(q :: qs) :: lines, .done :: ret⟩ (loadedSlot k W c) := by
  subst hc
  obtain ⟨W, hW, _⟩ := exec_enc op hh wf (s.issue io rest)
  have hi : i ≠ .init := by rintro rfl; cases op
  exact ⟨W, T.operation hs rfl wf hi (exec_enc_free op hh wf hW (T.phase_issue free)) rfl
    (by rw [slot_reply, slot_setSlot_self]; rfl)⟩

/-- Its SEND, not rejected (R93, R94). -/
theorem Transfer.send {j : Nat} {W : Words} {q : Request}
    (T : Transfer s₀ c h ⟨(encode (.send h) :: q :: qs) :: lines, ret⟩ sl s)
    (hs : s.schedule = .caller io :: rest) (hc : io.caller = c) (loaded : sl.phase = .loaded) (owner : sl.owner = some c)
    (read : sl.cb.read = some W) (hr : resolve s₀ h = .ok j) (accepted : io.reject = false) :
    StepsTo s₀ c h s rest (s.dbr ||| doorbellWord j) ⟨(q :: qs) :: lines, .done :: ret⟩ (sentSlot sl W) := by
  have resolved := (resolve_congr (T.issue io rest).transport h).trans hr
  have e := execSend_rings (T.phase_issue loaded) (T.owner_issue hc owner) resolved accepted
    (by rw [slot_issue, T.slot, read])
  exact T.operation (i := .send h) hs hc rfl nofun e rfl (by rw [slot_reply, slot_setSlot_self, slot_issue, T.slot])

/-- Its SEND with a transport error: the rest of the line is dropped and the slot freed (R66, R94). -/
theorem Transfer.send_error {er : TransportError}
    (T : Transfer s₀ c h ⟨(encode (.send h) :: qs) :: lines, ret⟩ sl s)
    (hs : s.schedule = .caller io :: rest) (hc : io.caller = c) (loaded : sl.phase = .loaded) (owner : sl.owner = some c)
    (fails : resolve s₀ h = .error er ∨ ∃ j, resolve s₀ h = .ok j ∧ io.reject = true ∧ er = .dbRejected) :
    ∃ dbr, StepsTo s₀ c h s rest dbr ⟨lines, .err er :: ret⟩ Slot.free := by
  have resolves := resolve_congr (T.issue io rest).transport h
  rcases fails with hr | ⟨j, hr, rejected, rfl⟩
  · have e := execSend_unresolved (T.phase_issue loaded) (T.owner_issue hc owner) (resolves.trans hr)
    exact ⟨_, T.operation (i := .send h) hs hc rfl nofun e rfl (slot_endTransfer_self _ h _)⟩
  · have e := execSend_rejected (T.phase_issue loaded) (T.owner_issue hc owner) (resolves.trans hr) rejected
    exact ⟨_, T.operation (i := .send h) hs hc rfl nofun e rfl (slot_endTransfer_self _ h _)⟩

/-- Its WAIT while the exchange is in flight (R97): nothing moves, and the WAIT stays its next operation. -/
theorem Transfer.wait_sent (T : Transfer s₀ c h ⟨(encode (.wait h) :: qs) :: lines, ret⟩ sl s)
    (hs : s.schedule = .caller io :: rest) (hc : io.caller = c) (owner : sl.owner = some c) (sent : sl.phase = .sent) :
    StepsTo s₀ c h s rest s.dbr ⟨(encode (.wait h) :: qs) :: lines, ret⟩ sl :=
  T.operation hs hc rfl nofun (exec_wait_sent (T.owner_issue hc owner) (T.phase_issue sent)) rfl T.slot

/-- Its WAIT after the response. -/
theorem Transfer.wait_done {q : Request}
    (T : Transfer s₀ c h ⟨(encode (.wait h) :: q :: qs) :: lines, ret⟩ sl s)
    (hs : s.schedule = .caller io :: rest) (hc : io.caller = c) (owner : sl.owner = some c) (done : sl.phase = .done) :
    StepsTo s₀ c h s rest s.dbr ⟨(q :: qs) :: lines, .done :: ret⟩ sl :=
  T.operation hs hc rfl nofun (exec_wait_done (T.owner_issue hc owner) (T.phase_issue done)) rfl T.slot

/-- Its WAIT after the exchange failed: the rest of the line is dropped and the slot freed. -/
theorem Transfer.wait_failed (T : Transfer s₀ c h ⟨(encode (.wait h) :: qs) :: lines, ret⟩ sl s)
    (hs : s.schedule = .caller io :: rest) (hc : io.caller = c) (owner : sl.owner = some c) (failed : sl.phase = .failed) :
    StepsTo s₀ c h s rest s.dbr ⟨lines, .err .xfer :: ret⟩ Slot.free :=
  T.operation hs hc rfl nofun (exec_wait_failed (T.owner_issue hc owner) (T.phase_issue failed)) rfl
    (slot_endTransfer_self _ h _)

/-- Its DEC.* of a DONE slot, the last operation of its line (R79). -/
theorem Transfer.dec {k : OpKind} {R : Words} {y : Reply} (T : Transfer s₀ c h ⟨[encode i] :: lines, ret⟩ sl s)
    (hs : s.schedule = .caller io :: rest) (hc : io.caller = c) (owner : sl.owner = some c) (done : sl.phase = .done)
    (words : sl.cb = .ofWords R) (op : i.opcode = .dec k) (hh : i.handle? = some h) (wf : i.wellFormed = true)
    (hd : decodedReply R i = some y) : StepsTo s₀ c h s rest s.dbr ⟨lines, y :: ret⟩ Slot.free := by
  have hi : i ≠ .init := by rintro rfl; cases op
  have e := exec_dec_done (s := s.issue io rest) op hh wf (T.phase_issue done) (T.owner_issue hc owner)
    (by rw [slot_issue, T.slot, words]) hd
  have filed : Caller.after ⟨[encode i] :: lines, ret⟩ y = ⟨lines, y :: ret⟩ := by
    obtain ⟨a, rfl | ⟨b, rfl⟩ | ⟨bs, v, rfl⟩⟩ := isReturnCode_of_decodedReply hd <;> rfl
  have stepsTo := T.operation hs hc wf hi e rfl (slot_freeSlot_self _ h)
  rw [filed] at stepsTo
  exact stepsTo

/-! ## The exchange -/

/-- RESPOND (R99). -/
theorem Transfer.respond {R : Words} (T : Transfer s₀ c h r sl s) (hs : s.schedule = .respond h R :: rest)
    (sent : sl.phase = .sent) : StepsTo s₀ c h s rest s.dbr r (doneSlot sl R) := by
  refine ⟨_, step_of_schedule hs, ?_⟩
  have phase : (State.slot { s with schedule := rest } h).phase = .sent := by rw [slot_withSchedule, T.slot, sent]
  rw [Machine.respond, if_pos phase]
  exact ⟨rfl, rfl, T.transport.trans ⟨rfl, rfl, rfl, rfl, rfl⟩, T.record, by
    rw [slot_setSlot_self, slot_withSchedule, T.slot]⟩

/-- FAIL (R101). -/
theorem Transfer.fail (T : Transfer s₀ c h r sl s) (hs : s.schedule = .fail h :: rest) (sent : sl.phase = .sent) :
    StepsTo s₀ c h s rest s.dbr r (failedSlot sl) := by
  refine ⟨_, step_of_schedule hs, ?_⟩
  have phase : (State.slot { s with schedule := rest } h).phase = .sent := by rw [slot_withSchedule, T.slot, sent]
  rw [Machine.fail, if_pos phase]
  exact ⟨rfl, rfl, T.transport.trans ⟨rfl, rfl, rfl, rfl, rfl⟩, T.record, by
    rw [slot_setSlot_self, slot_withSchedule, T.slot]⟩

end

/-! ## Pseudo-operations without interruption -/

theorem Pmic.handle?_encodeOp (p : Pmic) : p.encodeOp.handle? = some p.handle := by
  cases p <;> rfl

theorem Pmic.decodeOp_facts (p : Pmic) (wf : p.encodeOp.wellFormed = true) :
    p.decodeOp.opcode = .dec p.kind ∧ p.decodeOp.handle? = some p.handle ∧ p.decodeOp.wellFormed = true := by
  cases p with
  | bread => exact ⟨rfl, rfl, wf⟩
  | _ => exact ⟨rfl, rfl, rfl⟩

theorem Pmic.decodedReply_decodeOp (p : Pmic) (R : Words) : ∃ y, decodedReply R p.decodeOp = some y := by
  cases p <;> exact ⟨_, rfl⟩

/-- The start of a pseudo-operation: its line comes first in the caller's program. -/
theorem transfer_start {s : State} {c : CallerId} {p : Pmic} {lines : List (List Request)}
    (hp : (s.callerOf c).program = p.line :: lines) :
    Transfer s c p.handle ⟨(encode p.encodeOp :: encode (.send p.handle) :: [encode (.wait p.handle),
      encode p.decodeOp]) :: lines, (s.callerOf c).returned⟩ (s.slot p.handle) s := by
  refine ⟨⟨rfl, rfl, rfl, rfl, rfl⟩, ?_, rfl⟩
  cases hc : s.callerOf c with
  | mk program returned =>
    rw [hc] at hp
    cases hp
    rfl

/-- Settles O56: the operations before the error take the transfer on, and the error drops the rest of the line and frees
the slot. -/
theorem pseudoOperationStopsAtFirstError : Obligations.PseudoOperationStopsAtFirstError := by
  unfold Obligations.PseudoOperationStopsAtFirstError
  intro p s io1 io2 lines after wf hc2 free hp
  have start := transfer_start hp
  refine ⟨fun er hs cause => ?send, fun io3 j hc3 hl index accepted hs => ?wait⟩
  case send =>
    have fails : resolve s p.handle = .error er ∨
        ∃ j, resolve s p.handle = .ok j ∧ io2.reject = true ∧ er = .dbRejected := by
      rcases cause with ⟨rfl, hl⟩ | ⟨rfl, hl, foreign⟩ | ⟨rfl, hl, ⟨j, index⟩, rejected⟩
      · exact .inl (resolve_uninitialized hl)
      · exact .inl (resolve_of_foreign hl foreign)
      · exact .inr ⟨j, resolve_of_atIndex hl index, rejected, rfl⟩
    obtain ⟨W, s1, step1, sch1, _, T1⟩ := start.enc hs rfl wf p.opcode_encodeOp p.handle?_encodeOp free
    obtain ⟨_, s2, step2, _, _, T2⟩ := T1.send_error sch1 hc2 rfl rfl fails
    exact ⟨s2, by rw [run_succ step1, run_succ step2]; rfl, T2.record, T2.slot⟩
  case wait =>
    obtain ⟨W, s1, step1, sch1, _, T1⟩ := start.enc hs rfl wf p.opcode_encodeOp p.handle?_encodeOp free
    obtain ⟨s2, step2, sch2, _, T2⟩ := T1.send sch1 hc2 rfl rfl (read_ofWords W) (resolve_of_atIndex hl index) accepted
    obtain ⟨s3, step3, sch3, _, T3⟩ := T2.fail sch2 rfl
    obtain ⟨s4, step4, _, _, T4⟩ := T3.wait_failed sch3 hc3 rfl rfl
    exact ⟨s4, by rw [run_succ step1, run_succ step2, run_succ step3, run_succ step4]; rfl, T4.record, T4.slot⟩

end Sys2Proof.Machine
end

section
/-! Whole transfers: a pseudo-operation returns the decoded response, with nothing between its steps or with other agents'
steps between them (30_encoding.md R66, 43_transfer.md R100). -/

namespace Sys2Proof.Machine

/-! ## Steps between the caller's own -/

/-- A step consumes the head of the schedule. -/
theorem schedule_of_step {s t : State} {a : AgentStep} {rest : List AgentStep} (hs : s.schedule = a :: rest)
    (e : step s = .next t) : t.schedule = rest := by
  have popped : ∀ {b rest'}, s.schedule = b :: rest' → rest' = rest := fun h => by
    cases hs.symm.trans h
    rfl
  cases effect_of_step e with
  | idle h => cases hs.symm.trans h
  | noOperation h | dbclear h => exact popped h
  | operation h _ _ he =>
    rw [retire_schedule, (callers_schedule_of_effect (effect_of_exec he)).2.1]
    exact popped h
  | @respond h' r rest' h =>
    rcases respond_cases h' r { s with schedule := rest' } with ⟨_, e'⟩ | ⟨_, e'⟩ <;> rw [e'] <;> exact popped h
  | @peerRespond h' rest' h =>
    rcases peerRespond_cases h' { s with schedule := rest' } with ⟨W, k, hp, hw, hk, _⟩ | e'
    · rw [peerRespond_sent hp hw hk]
      exact popped h
    · rw [e']
      exact popped h
  | @fail h' rest' h =>
    rcases fail_cases h' { s with schedule := rest' } with ⟨_, e'⟩ | ⟨_, e'⟩ <;> rw [e'] <;> exact popped h

/-- Every operation that goes on puts a reply on the result ports. -/
theorem port_of_effect {i : Instr} {s t : State} (e : Effect i s t) : ∃ y, t.port = some y := by
  cases e <;> exact ⟨_, rfl⟩

/-- The environment's steps leave the callers' records alone. -/
theorem callers_respond (h : Handle) (r : Words) (s : State) : (respond h r s).callers = s.callers := by
  rcases respond_cases h r s with ⟨_, e⟩ | ⟨_, e⟩ <;> rw [e]
  rfl

theorem callers_fail (h : Handle) (s : State) : (fail h s).callers = s.callers := by
  rcases fail_cases h s with ⟨_, e⟩ | ⟨_, e⟩ <;> rw [e]
  rfl

theorem callers_peerRespond (h : Handle) (s : State) : (peerRespond h s).callers = s.callers := by
  rcases peerRespond_cases h s with ⟨W, k, _, _, _, e⟩ | e <;> rw [e]
  exact callers_respond h _ s

/-- A caller's record depends on the callers' table alone. -/
theorem callerOf_congr {s t : State} (e : t.callers = s.callers) (c : CallerId) : t.callerOf c = s.callerOf c := by
  rw [State.callerOf, State.callerOf, e]

section
variable {s₀ s t : State} {c : CallerId} {h : Handle} {r : Caller} {sl : Slot} {a : AgentStep} {rest : List AgentStep}

/-- Once Ready, a step of another agent leaves a held transfer as it is, unless it answers its exchange. -/
theorem Transfer.of_other_step (T : Transfer s₀ c h r sl s) (ready : s₀.life = .ready) (held : sl.phase ≠ .free)
    (owner : sl.owner = some c) (other : ¬a.ByCaller c) (quiet : sl.phase = .sent → ¬a.Answers h)
    (hs : s.schedule = a :: rest) (e : step s = .next t) : Transfer s₀ c h r sl t := by
  have life : s.life = .ready := T.transport.life.trans ready
  have transport : SameTransport s t :=
    (sameTransport_or_initStep_of_step e).resolve_right fun ⟨_, _, _, _, _, _, hl, _⟩ => nomatch life.symm.trans hl
  suffices kept : t.callerOf c = s.callerOf c ∧ t.slot h = s.slot h from
    ⟨T.transport.trans transport, kept.1.trans T.record, kept.2.trans T.slot⟩
  have unanswered : ∀ {x}, h = x → (s.slot h).phase = .sent → a.Answers x → False := fun hx hp answers =>
    quiet (by rw [← T.slot, hp]) (hx ▸ answers)
  cases effect_of_step e with
  | idle => exact ⟨rfl, rfl⟩
  | noOperation | dbclear => exact ⟨rfl, rfl⟩
  | @operation io rest' _ i u h' _ _ he =>
    cases hs.symm.trans h'
    have ne : c ≠ io.caller := fun same => other same.symm
    obtain ⟨y, port⟩ := port_of_effect (effect_of_exec he)
    have heldByOther : ((s.issue io rest).slot h).owner ≠ some (s.issue io rest).inputs.caller := by
      rw [slot_issue, T.slot, owner]
      exact fun same => ne (Option.some.inj same)
    exact ⟨(callerOf_retire_of_exec he port).2 c ne,
      (slot_retire u h).trans (heldSlotIsExclusive i h (s.issue io rest) u he (by rwa [slot_issue, T.slot]) heldByOther)⟩
  | @respond h' R rest' hs' =>
    cases hs.symm.trans hs'
    refine ⟨callerOf_congr (callers_respond h' R _) c, ?_⟩
    exact (slot_respond_cases h' h R _).resolve_right fun ⟨hx, hp, _⟩ => unanswered hx hp rfl
  | @peerRespond h' rest' hs' =>
    cases hs.symm.trans hs'
    refine ⟨callerOf_congr (callers_peerRespond h' _) c, ?_⟩
    exact (slot_peerRespond_cases h' h _).resolve_right fun ⟨hx, hp, _⟩ => unanswered hx hp rfl
  | @fail h' rest' hs' =>
    cases hs.symm.trans hs'
    refine ⟨callerOf_congr (callers_fail h' _) c, ?_⟩
    exact (slot_fail_cases h' h _).resolve_right fun ⟨hx, hp, _⟩ => unanswered hx hp rfl

end

/-- A run that goes on makes its first step. -/
theorem step_of_run_succ {M : Host.Core} {s t : M.State} {n : Nat} (run : M.run (n + 1) s = .next t) :
    ∃ u, M.step s = .next u ∧ M.run n u = .next t := by
  rw [Host.Core.run] at run
  split at run
  · next u stepped => exact ⟨u, stepped, run⟩
  · cases run
  · cases run

/-- A property that every step of the agents in `es` keeps holds after them, with the rest of the schedule and of the run to
come. -/
theorem run_through {P : State → Prop} {ok : AgentStep → Prop}
    (keep : ∀ {s t a rest}, P s → ok a → s.schedule = a :: rest → step s = .next t → P t) :
    ∀ (es : List AgentStep) {s t : State} {rest : List AgentStep} {n : Nat}, P s → (∀ a ∈ es, ok a) →
      s.schedule = es ++ rest → core.run (es.length + n) s = .next t →
      ∃ u, P u ∧ u.schedule = rest ∧ core.run n u = .next t
  | [], s, t, rest, n, hP, _, hs, run => ⟨s, hP, hs, by simpa using run⟩
  | a :: es, s, t, rest, n, hP, hok, hs, run => by
    rw [List.length_cons, Nat.add_right_comm] at run
    obtain ⟨u, stepped, run⟩ := step_of_run_succ run
    exact run_through keep es (keep hP (hok a (by simp)) hs stepped) (fun b hb => hok b (by simp [hb]))
      (schedule_of_step hs stepped) run

section
variable {s₀ s t : State} {c : CallerId} {h : Handle} {r : Caller} {sl : Slot} {es rest : List AgentStep} {n : Nat}

/-- Other agents' steps leave a transfer that is not in flight as it is. -/
theorem Transfer.run_others (T : Transfer s₀ c h r sl s) (ready : s₀.life = .ready) (held : sl.phase ≠ .free)
    (notSent : sl.phase ≠ .sent) (owner : sl.owner = some c) (others : ∀ a ∈ es, ¬a.ByCaller c)
    (hs : s.schedule = es ++ rest) (run : core.run (es.length + n) s = .next t) :
    ∃ u, Transfer s₀ c h r sl u ∧ u.schedule = rest ∧ core.run n u = .next t :=
  run_through (fun T other hs e => T.of_other_step ready held owner other (fun sent => absurd sent notSent) hs e)
    es T others hs run

/-- While the exchange is in flight, steps that do not answer it leave the transfer as it is, the caller's held WAITs
included. -/
theorem Transfer.run_inFlight {qs : List Request} {lines : List (List Request)} {ret : List Reply}
    (T : Transfer s₀ c h ⟨(encode (.wait h) :: qs) :: lines, ret⟩ sl s) (ready : s₀.life = .ready)
    (sent : sl.phase = .sent) (owner : sl.owner = some c) (quiet : ∀ a ∈ es, ¬a.Answers h)
    (hs : s.schedule = es ++ rest) (run : core.run (es.length + n) s = .next t) :
    ∃ u, Transfer s₀ c h ⟨(encode (.wait h) :: qs) :: lines, ret⟩ sl u ∧ u.schedule = rest ∧ core.run n u = .next t := by
  refine run_through (fun {s t a rest} T quiet hs e => ?_) es T quiet hs run
  by_cases own : a.ByCaller c
  · cases a with
    | caller io =>
      obtain ⟨u, stepped, _, _, T'⟩ := T.wait_sent hs own owner sent
      cases stepped.symm.trans e
      exact T'
    | _ => cases own
  · exact T.of_other_step ready (by simp [sent]) owner own (fun _ => quiet) hs e

end

/-! ## Pseudo-operations -/

/-- Settles O55: each of the line's operations takes the transfer on, the exchange's answer replaces the words, and no step
between them touches the transfer. -/
theorem pseudoOperationReturnsDecodedResponse : Obligations.PseudoOperationReturnsDecodedResponse := by
  unfold Obligations.PseudoOperationReturnsDecodedResponse
  intro p s io1 io2 io3 io4 R j lines after wf hc2 hc3 hc4 accepted free ready index hp
  have start := transfer_start hp
  have hr := resolve_of_atIndex ready index
  obtain ⟨op, hh, decWf⟩ := p.decodeOp_facts wf
  obtain ⟨y, hy⟩ := p.decodedReply_decodeOp R
  refine ⟨fun hs => ?alone, fun e1 e2 e3 e4 t others quiet hs run => ?interleaved⟩
  case alone =>
    obtain ⟨W, s1, step1, sch1, dbr1, T1⟩ := start.enc hs rfl wf p.opcode_encodeOp p.handle?_encodeOp free
    obtain ⟨s2, step2, sch2, dbr2, T2⟩ := T1.send sch1 hc2 rfl rfl (read_ofWords W) hr accepted
    obtain ⟨s3, step3, sch3, dbr3, T3⟩ := T2.respond sch2 rfl
    obtain ⟨s4, step4, sch4, dbr4, T4⟩ := T3.wait_done sch3 hc3 rfl rfl
    obtain ⟨s5, step5, _, dbr5, T5⟩ := T4.dec sch4 hc4 rfl rfl rfl op hh decWf hy
    refine ⟨s5, y, ?_, hy, T5.record, T5.slot, fun b hb => ?_⟩
    · rw [run_succ step1, run_succ step2, run_succ step3, run_succ step4, run_succ step5]
      rfl
    · rw [dbr5, dbr4, dbr3, dbr2, dbr1]
      exact getLsbD_writeDbr_doorbellWord s j hb
  case interleaved =>
    simp only [List.append_assoc, List.cons_append] at hs
    rw [show e1.length + e2.length + e3.length + e4.length + 5 =
      (e1.length + ((e2.length + ((e3.length + ((e4.length + 1) + 1)) + 1)) + 1)) + 1 by omega] at run
    have others1 : ∀ a ∈ e1, ¬a.ByCaller io1.caller := fun a ha => others a (by simp [ha])
    have others3 : ∀ a ∈ e3, ¬a.ByCaller io1.caller := fun a ha => others a (by simp [ha])
    have others4 : ∀ a ∈ e4, ¬a.ByCaller io1.caller := fun a ha => others a (by simp [ha])
    obtain ⟨W, s1, step1, sch1, _, T1⟩ := start.enc hs rfl wf p.opcode_encodeOp p.handle?_encodeOp free
    rw [run_succ step1] at run
    obtain ⟨u1, U1, sch1, run⟩ := T1.run_others ready nofun nofun rfl others1 sch1 run
    obtain ⟨s2, step2, sch2, _, T2⟩ := U1.send sch1 hc2 rfl rfl (read_ofWords W) hr accepted
    rw [run_succ step2] at run
    obtain ⟨u2, U2, sch2, run⟩ := T2.run_inFlight ready rfl rfl quiet sch2 run
    obtain ⟨s3, step3, sch3, _, T3⟩ := U2.respond sch2 rfl
    rw [run_succ step3] at run
    obtain ⟨u3, U3, sch3, run⟩ := T3.run_others ready nofun nofun rfl others3 sch3 run
    obtain ⟨s4, step4, sch4, _, T4⟩ := U3.wait_done sch3 hc3 rfl rfl
    rw [run_succ step4] at run
    obtain ⟨u4, U4, sch4, run⟩ := T4.run_others ready nofun nofun rfl others4 sch4 run
    obtain ⟨s5, step5, sch5, _, T5⟩ := U4.dec sch4 hc4 rfl rfl rfl op hh decWf hy
    rw [run_succ step5] at run
    cases run
    exact ⟨y, hy, T5.record, T5.slot, sch5⟩

end Sys2Proof.Machine
end
